-- ==== Sys2Proof/Word.lean ====
section
/-!
DEFINITION. The widths of the machine (00_scope.md R3, R5; 10_state.md R10): words, bytes and register numbers.

A word has no signedness of its own (R5): `BitVec.toNat` is the spec's `uint`, `BitVec.toInt` its `sint`.
-/

-- One elaboration thread: each thread's stack counts against the check's memory limit.
set_option Elab.async false

namespace Sys2Proof

/-- The 32-bit word of registers, `pc`, addresses and instructions (00_scope.md R3, `XLEN = 32`). -/
abbrev Word := BitVec 32

/-- A memory byte (20_memory.md R40). -/
abbrev Byte := BitVec 8

/-- A general register's number, 0 to 31 (10_state.md R10). -/
abbrev Reg := Fin 32

end Sys2Proof
end

