-- ==== Sys2Proof/Config.lean ====
section
/-!
DEFINITION. What is fixed for a run: the parameters of 00_scope.md R3, and the free values of the model.

An OPEN parameter is a field of `Params`, which State holds and no step changes, so that a statement about every
state is a statement about every value of the parameter (logs 1 and 2).
-/

-- One elaboration thread: each thread's stack counts against the check's memory limit.
set_option Elab.async false

namespace Sys2Proof

/-- The byte order of 4-byte accesses, `ENDIAN` of 00_scope.md R3 (20_memory.md R45, R47, R50). -/
inductive Endian where
  | big
  | little
deriving DecidableEq, Repr

/-- One host service of `SyscallTable`. The first five are the customary ones of 93_implementation_defined.md U9,
which 45_system.md R193 allows a model to instantiate the table with; `other n` is a service about which nothing is
known but 45_system.md R191, told apart from the others by its number. -/
inductive Service where
  | printInt
  | printString
  | readInt
  | exit
  | printChar
  | other (n : Nat)
deriving DecidableEq, Repr

/-- The kind of a console line (60_exceptions.md R272). -/
inductive LineKind where
  | success
  | error
deriving DecidableEq, Repr

/-- The outcome a host service answers with (45_system.md R190). -/
inductive ServiceOutcome where
  | proceed
  | exit
  | block
deriving DecidableEq, Repr, Inhabited

/-- The writes of a host service (45_system.md R191), each list in the order the writes are made. -/
structure ServiceWrites where
  regs : List (Reg × Word)
  hi : Option Word
  lo : Option Word
  mem : List (Word × Byte)
deriving DecidableEq, Repr, Inhabited

/-- What a host service answers an environment call with (45_system.md R190, R191). -/
structure ServiceAnswer where
  outcome : ServiceOutcome
  writes : ServiceWrites
  lines : List (LineKind × List Byte)
deriving DecidableEq, Repr, Inhabited

/-- What a blocked host service answers to the input it waited for (45_system.md R191, R192): `writes` is `none` where
it rejects the input (InputError), else the writes it completes with; `lines` are the console lines it appends. -/
structure ServiceReply where
  writes : Option ServiceWrites
  lines : List (LineKind × List Byte)
deriving DecidableEq, Repr, Inhabited

/-- What a host service may read (45_system.md R191): every general register, `hi`, `lo`, `pc`, any memory byte. -/
structure ServiceView where
  regs : List Word
  hi : Word
  lo : Word
  pc : Word
  mem : List Host.Cell
deriving DecidableEq, Repr

/-- FREE VALUE. What the abstract service `n` answers when it sees `view`, at the `k`-th call of the run. It is open
(45_system.md R191, 93_implementation_defined.md U8: `any value`), log 4. -/
opaque Config.serviceAnswer (n : Nat) (view : ServiceView) (k : Nat) : ServiceAnswer

/-- FREE VALUE. How the abstract service `n`, blocked before, takes the input (45_system.md R191, R192), log 4. -/
opaque Config.serviceResume (n : Nat) (view : ServiceView) (k : Nat) (input : List Char) : ServiceReply

/-- The parameters of the core, 00_scope.md R3. -/
structure Params where
  endian : Endian
  spReset : Word
  entryPc : Word
  divOvfLo : Word
  divOvfHi : Word
  syscallTable : List (Word × Service)
deriving DecidableEq, Repr

/-- `GP_RESET` of 00_scope.md R3. -/
def Config.gpReset : Word := 0x10008000

/-- `TEXT_BASE` of 00_scope.md R3. -/
def Config.textBase : Word := 0x00400000

/-- `DATA_BASE` of 00_scope.md R3. -/
def Config.dataBase : Word := 0x10010000

/-- `SYSCALL_CODE_REG` of 00_scope.md R3: register 2, `$v0`. -/
def Config.syscallCodeReg : Reg := 2

/-- The parameters at the values 00_scope.md R3 gives them. `ENDIAN` and `SyscallTable` are OPEN there: big
(log 1, DESIGN CHOICE, unsafe) and the empty table (log 2, DESIGN CHOICE, unsafe). -/
def Params.default : Params where
  endian := .big
  spReset := 0x7FFFEFFC
  entryPc := Config.textBase
  divOvfLo := 0x80000000
  divOvfHi := 0x00000000
  syscallTable := []

end Sys2Proof
end

