-- ==== Sys2Proof/Catalog.lean ====
section
/-!
DEFINITION. The types the catalog of 30_encoding.md R80 is written in. The catalog's rows themselves stand in
Sys2Proof/Decode.lean.
-/

-- One elaboration thread: each thread's stack counts against the check's memory limit.
set_option Elab.async false

namespace Sys2Proof

/-- The 46 catalog entries, the decoder's output `op` of 00_scope.md R2; the order is that of 30_encoding.md R80.
The names are the table's mnemonics. -/
inductive Op where
  | sll | srl | sra | sllv | srlv | srav
  | jr | jalr | syscall
  | mfhi | mthi | mflo | mtlo
  | mult | multu | div | divu
  | add | addu | sub | subu
  | and | or | xor | nor | slt | sltu
  | j | jal
  | beq | bne | blez | bgtz
  | addi | addiu | slti | sltiu | andi | ori | xori | lui
  | lb | lw | lbu | sb | sw
deriving DecidableEq, Repr

/-- The instruction formats (30_encoding.md R71, R72, R73). -/
inductive Format where
  | R
  | I
  | J
deriving DecidableEq, Repr

/-- The operand layouts of 30_encoding.md R86. -/
inductive Layout where
  | triple | double | single | singleRs | shiftTriple | shiftVar | jalrPair | none
  | immTriple | immPair | mem | branch2 | branch1 | jump
deriving DecidableEq, Repr

/-- One row of the catalog, 30_encoding.md R80. `funct` means something for the R format only. -/
structure Row where
  fmt : Format
  opcode : BitVec 6
  funct : BitVec 6
  layout : Layout
deriving DecidableEq, Repr

/-- The operand fields the decoder slices from every word (30_encoding.md R74). -/
structure Fields where
  rs : Reg
  rt : Reg
  rd : Reg
  shamt : BitVec 5
  imm : BitVec 16
  address : BitVec 26
deriving DecidableEq, Repr

end Sys2Proof
end

