-- ==== Sys2Proof/Syntax.lean ====
section
/-!
DEFINITION. The instructions: one constructor per row of spec/opcode_table.json (30_encoding.md R80).
-/

-- One elaboration thread: each thread's stack counts against the check's memory limit.
set_option Elab.async false

namespace Sys2Proof

/-- A decoded instruction: its operands stand in the order of the row's operand grammar (30_encoding.md R86).
Fields an instruction does not use are not operands (R85). The one-operand form of `jalr` is the assembler's way to
write `rd = 31`. -/
inductive Instr where
  -- 40_arithmetic.md
  | add (rd rs rt : Reg)
  | addu (rd rs rt : Reg)
  | sub (rd rs rt : Reg)
  | subu (rd rs rt : Reg)
  | addi (rt rs : Reg) (imm : BitVec 16)
  | addiu (rt rs : Reg) (imm : BitVec 16)
  | slt (rd rs rt : Reg)
  | sltu (rd rs rt : Reg)
  | slti (rt rs : Reg) (imm : BitVec 16)
  | sltiu (rt rs : Reg) (imm : BitVec 16)
  -- 41_logical_shift.md
  | and (rd rs rt : Reg)
  | or (rd rs rt : Reg)
  | xor (rd rs rt : Reg)
  | nor (rd rs rt : Reg)
  | andi (rt rs : Reg) (imm : BitVec 16)
  | ori (rt rs : Reg) (imm : BitVec 16)
  | xori (rt rs : Reg) (imm : BitVec 16)
  | lui (rt : Reg) (imm : BitVec 16)
  | sll (rd rt : Reg) (shamt : BitVec 5)
  | srl (rd rt : Reg) (shamt : BitVec 5)
  | sra (rd rt : Reg) (shamt : BitVec 5)
  | sllv (rd rt rs : Reg)
  | srlv (rd rt rs : Reg)
  | srav (rd rt rs : Reg)
  -- 42_muldiv.md
  | mult (rs rt : Reg)
  | multu (rs rt : Reg)
  | div (rs rt : Reg)
  | divu (rs rt : Reg)
  | mfhi (rd : Reg)
  | mflo (rd : Reg)
  | mthi (rs : Reg)
  | mtlo (rs : Reg)
  -- 43_load_store.md
  | lb (rt : Reg) (imm : BitVec 16) (rs : Reg)
  | lbu (rt : Reg) (imm : BitVec 16) (rs : Reg)
  | lw (rt : Reg) (imm : BitVec 16) (rs : Reg)
  | sb (rt : Reg) (imm : BitVec 16) (rs : Reg)
  | sw (rt : Reg) (imm : BitVec 16) (rs : Reg)
  -- 44_control.md
  | beq (rs rt : Reg) (imm : BitVec 16)
  | bne (rs rt : Reg) (imm : BitVec 16)
  | blez (rs : Reg) (imm : BitVec 16)
  | bgtz (rs : Reg) (imm : BitVec 16)
  | j (address : BitVec 26)
  | jal (address : BitVec 26)
  | jr (rs : Reg)
  | jalr (rd rs : Reg)
  -- 45_system.md
  | syscall
deriving DecidableEq, Repr

end Sys2Proof
end

