-- ==== Sys2Proof/WellFormed.lean ====
section
/-!
DEFINITION. Which instructions have a word of their own.

The operand types already bound every field (registers and shift amounts 0 to 31, 16-bit immediates, 26-bit
addresses), so 30_encoding.md R89 leaves one check: the tuple that encodes to the zero word.
-/

-- One elaboration thread: each thread's stack counts against the check's memory limit.
set_option Elab.async false

namespace Sys2Proof

/-- The instruction is not `sll $zero, $zero, 0`, whose canonical word 0x00000000 is no instruction (30_encoding.md
R83, R89). The decoder can still answer `.sll 0 0 0`, from a word whose ignored `rs` field is not zero, and that
instruction runs. -/
def Instr.hasOwnWord (i : Instr) : Bool :=
  decide (i ≠ .sll 0 0 0)

/-- An instruction is well formed when the encoder gives it a word that decodes to it (30_encoding.md R89). -/
def Instr.wf (i : Instr) : Bool :=
  i.hasOwnWord

end Sys2Proof
end

