-- ==== Sys2Proof/Decode.lean ====
section
/-!
DEFINITION. The catalog's rows, the decoder, and the encoder (30_encoding.md), with the bit-field and byte-order
helpers both rest on.
-/

-- One elaboration thread: each thread's stack counts against the check's memory limit.
set_option Elab.async false

namespace Sys2Proof

/-! ### Bit fields (00_scope.md R4, 30_encoding.md R90) -/

/-- `w[hi:lo]`, the source's `get(bitHigh, bitLow)` (00_scope.md R4). -/
def getBits (hi lo : Nat) (w : Word) : BitVec (hi - lo + 1) :=
  w.extractLsb' lo (hi - lo + 1)

/-- `w` with bits `hi` to `lo` set to `v`, the source's `set(bitHigh, bitLow, value)` (00_scope.md R4). A value that
does not fit the field cannot be written: the type of `v` has the field's width (30_encoding.md R88). -/
def setBits (hi lo : Nat) (v : BitVec (hi - lo + 1)) (w : Word) : Word :=
  (w &&& ~~~((BitVec.allOnes (hi - lo + 1)).setWidth 32 <<< lo)) ||| (v.setWidth 32 <<< lo)

/-! ### The fields of a word (30_encoding.md R74) -/

/-- `opcode = w[31:26]`. -/
def opcodeOf (w : Word) : BitVec 6 := getBits 31 26 w
/-- `rs = w[25:21]`. -/
def rsOf (w : Word) : Reg := BitVec.toFin (getBits 25 21 w)
/-- `rt = w[20:16]`. -/
def rtOf (w : Word) : Reg := BitVec.toFin (getBits 20 16 w)
/-- `rd = w[15:11]`. -/
def rdOf (w : Word) : Reg := BitVec.toFin (getBits 15 11 w)
/-- `shamt = w[10:6]`. -/
def shamtOf (w : Word) : BitVec 5 := getBits 10 6 w
/-- `funct = w[5:0]`. -/
def functOf (w : Word) : BitVec 6 := getBits 5 0 w
/-- `imm = w[15:0]`. -/
def immOf (w : Word) : BitVec 16 := getBits 15 0 w
/-- `address = w[25:0]`. -/
def addressOf (w : Word) : BitVec 26 := getBits 25 0 w

/-- The decoder slices every field from every word, whatever the format turns out to be (30_encoding.md R74). -/
def fieldsOf (w : Word) : Fields where
  rs := rsOf w
  rt := rtOf w
  rd := rdOf w
  shamt := shamtOf w
  imm := immOf w
  address := addressOf w

/-! ### The catalog (30_encoding.md R80) -/

/-- A row of format R: opcode 0x00, told apart by `funct`. -/
def Row.ofR (funct : BitVec 6) (layout : Layout) : Row := ⟨.R, 0x00, funct, layout⟩
/-- A row of format I. -/
def Row.ofI (opcode : BitVec 6) (layout : Layout) : Row := ⟨.I, opcode, 0, layout⟩
/-- A row of format J. -/
def Row.ofJ (opcode : BitVec 6) : Row := ⟨.J, opcode, 0, .jump⟩

/-- The table of 30_encoding.md R80, row by row. -/
def Op.row : Op → Row
  | .sll => .ofR 0x00 .shiftTriple
  | .srl => .ofR 0x02 .shiftTriple
  | .sra => .ofR 0x03 .shiftTriple
  | .sllv => .ofR 0x04 .shiftVar
  | .srlv => .ofR 0x06 .shiftVar
  | .srav => .ofR 0x07 .shiftVar
  | .jr => .ofR 0x08 .singleRs
  | .jalr => .ofR 0x09 .jalrPair
  | .syscall => .ofR 0x0C .none
  | .mfhi => .ofR 0x10 .single
  | .mthi => .ofR 0x11 .singleRs
  | .mflo => .ofR 0x12 .single
  | .mtlo => .ofR 0x13 .singleRs
  | .mult => .ofR 0x18 .double
  | .multu => .ofR 0x19 .double
  | .div => .ofR 0x1A .double
  | .divu => .ofR 0x1B .double
  | .add => .ofR 0x20 .triple
  | .addu => .ofR 0x21 .triple
  | .sub => .ofR 0x22 .triple
  | .subu => .ofR 0x23 .triple
  | .and => .ofR 0x24 .triple
  | .or => .ofR 0x25 .triple
  | .xor => .ofR 0x26 .triple
  | .nor => .ofR 0x27 .triple
  | .slt => .ofR 0x2A .triple
  | .sltu => .ofR 0x2B .triple
  | .j => .ofJ 0x02
  | .jal => .ofJ 0x03
  | .beq => .ofI 0x04 .branch2
  | .bne => .ofI 0x05 .branch2
  | .blez => .ofI 0x06 .branch1
  | .bgtz => .ofI 0x07 .branch1
  | .addi => .ofI 0x08 .immTriple
  | .addiu => .ofI 0x09 .immTriple
  | .slti => .ofI 0x0A .immTriple
  | .sltiu => .ofI 0x0B .immTriple
  | .andi => .ofI 0x0C .immTriple
  | .ori => .ofI 0x0D .immTriple
  | .xori => .ofI 0x0E .immTriple
  | .lui => .ofI 0x0F .immPair
  | .lb => .ofI 0x20 .mem
  | .lw => .ofI 0x23 .mem
  | .lbu => .ofI 0x24 .mem
  | .sb => .ofI 0x28 .mem
  | .sw => .ofI 0x2B .mem

/-- Every catalog entry, in the table's order. -/
def Op.all : List Op :=
  [.sll, .srl, .sra, .sllv, .srlv, .srav, .jr, .jalr, .syscall, .mfhi, .mthi, .mflo, .mtlo]
    ++ [.mult, .multu, .div, .divu, .add, .addu, .sub, .subu, .and, .or, .xor, .nor, .slt, .sltu]
    ++ [.j, .jal, .beq, .bne, .blez, .bgtz, .addi, .addiu, .slti, .sltiu, .andi, .ori, .xori, .lui]
    ++ [.lb, .lw, .lbu, .sb, .sw]

/-- The bits a row looks at: `opcode` and `funct` for format R, `opcode` alone for I and J (30_encoding.md R82). -/
def Row.mask (r : Row) : Word :=
  match r.fmt with
  | .R => 0xFC00003F
  | .I => 0xFC000000
  | .J => 0xFC000000

/-- The value of a row's masked bits. -/
def Row.pattern (r : Row) : Word :=
  setBits 5 0 r.funct (setBits 31 26 r.opcode 0)

/-- The row selects the word (30_encoding.md R82): `opcode` alone for I and J, `opcode` and `funct` for R. -/
def Row.matchesKey (r : Row) (opcode funct : BitVec 6) : Bool :=
  match r.fmt with
  | .R => opcode == 0x00 && funct == r.funct
  | .I => opcode == r.opcode
  | .J => opcode == r.opcode

/-- The catalog is "keyed by opcode/funct" (30_encoding.md R82). -/
def Op.ofKey (opcode funct : BitVec 6) : Option Op :=
  Op.all.find? fun o => o.row.matchesKey opcode funct

/-! ### Operands and fields (30_encoding.md R86) -/

/-- The instruction a row makes of the fields of a word: each operand from the field R86 gives it. -/
def Instr.ofFields (o : Op) (f : Fields) : Instr :=
  match o with
  | .sll => .sll f.rd f.rt f.shamt
  | .srl => .srl f.rd f.rt f.shamt
  | .sra => .sra f.rd f.rt f.shamt
  | .sllv => .sllv f.rd f.rt f.rs
  | .srlv => .srlv f.rd f.rt f.rs
  | .srav => .srav f.rd f.rt f.rs
  | .jr => .jr f.rs
  | .jalr => .jalr f.rd f.rs
  | .syscall => .syscall
  | .mfhi => .mfhi f.rd
  | .mthi => .mthi f.rs
  | .mflo => .mflo f.rd
  | .mtlo => .mtlo f.rs
  | .mult => .mult f.rs f.rt
  | .multu => .multu f.rs f.rt
  | .div => .div f.rs f.rt
  | .divu => .divu f.rs f.rt
  | .add => .add f.rd f.rs f.rt
  | .addu => .addu f.rd f.rs f.rt
  | .sub => .sub f.rd f.rs f.rt
  | .subu => .subu f.rd f.rs f.rt
  | .and => .and f.rd f.rs f.rt
  | .or => .or f.rd f.rs f.rt
  | .xor => .xor f.rd f.rs f.rt
  | .nor => .nor f.rd f.rs f.rt
  | .slt => .slt f.rd f.rs f.rt
  | .sltu => .sltu f.rd f.rs f.rt
  | .j => .j f.address
  | .jal => .jal f.address
  | .beq => .beq f.rs f.rt f.imm
  | .bne => .bne f.rs f.rt f.imm
  | .blez => .blez f.rs f.imm
  | .bgtz => .bgtz f.rs f.imm
  | .addi => .addi f.rt f.rs f.imm
  | .addiu => .addiu f.rt f.rs f.imm
  | .slti => .slti f.rt f.rs f.imm
  | .sltiu => .sltiu f.rt f.rs f.imm
  | .andi => .andi f.rt f.rs f.imm
  | .ori => .ori f.rt f.rs f.imm
  | .xori => .xori f.rt f.rs f.imm
  | .lui => .lui f.rt f.imm
  | .lb => .lb f.rt f.imm f.rs
  | .lw => .lw f.rt f.imm f.rs
  | .lbu => .lbu f.rt f.imm f.rs
  | .sb => .sb f.rt f.imm f.rs
  | .sw => .sw f.rt f.imm f.rs

/-! ### The decoder (30_encoding.md R82) -/

/-- Why a word is no instruction; the spec's one answer `Invalid` (30_encoding.md R82), split by reason. All of them
halt the core alike (R84). `truncated` is for byte lists shorter than an instruction and never for a fetched word. -/
inductive DecodeError where
  | zeroWord
  | unusedOpcode (opcode : BitVec 6)
  | unusedFunct (funct : BitVec 6)
  | truncated
deriving DecidableEq, Repr

/-- What the decoder answers: an instruction, or `Invalid` with its reason (30_encoding.md R82). -/
inductive Decoded where
  | instr (i : Instr)
  | invalid (why : DecodeError)
deriving DecidableEq, Repr

/-- The decoder, total on words (30_encoding.md R82); the zero word is rejected before the catalog is consulted
(R83, C2). -/
def decode (w : Word) : Decoded :=
  if w = 0 then .invalid .zeroWord
  else
    match Op.ofKey (opcodeOf w) (functOf w) with
    | some o => .instr (Instr.ofFields o (fieldsOf w))
    | none => if opcodeOf w = 0x00 then .invalid (.unusedFunct (functOf w)) else .invalid (.unusedOpcode (opcodeOf w))

/-! ### Byte order (20_memory.md R45, R47) -/

/-- The word the bytes at `addr`, `addr + 1`, `addr + 2`, `addr + 3` make (20_memory.md R45). -/
def wordOfBytes (e : Endian) (b0 b1 b2 b3 : Byte) : Word :=
  match e with
  | .big => b0 ++ b1 ++ b2 ++ b3
  | .little => b3 ++ b2 ++ b1 ++ b0

/-- The byte a word's write puts at `addr + k` (20_memory.md R47). -/
def byteOfWord (e : Endian) (v : Word) (k : Fin 4) : Byte :=
  match e with
  | .big => v.extractLsb' (24 - 8 * k.val) 8
  | .little => v.extractLsb' (8 * k.val) 8

/-- The four bytes of a word, lowest address first (20_memory.md R47). -/
def bytesOfWord (e : Endian) (v : Word) : List Byte :=
  [byteOfWord e v 0, byteOfWord e v 1, byteOfWord e v 2, byteOfWord e v 3]

/-- The decoder on bytes, lowest address first: the first four bytes are the instruction, the rest is left over
(30_encoding.md R70). -/
def decodeBytes (e : Endian) : List Byte → Decoded × List Byte
  | b0 :: b1 :: b2 :: b3 :: rest => (decode (wordOfBytes e b0 b1 b2 b3), rest)
  | rest => (.invalid .truncated, rest)

/-! ### The encoder (30_encoding.md R87) -/

/-- The catalog entry of an instruction. -/
def Instr.op : Instr → Op
  | .add _ _ _ => .add
  | .addu _ _ _ => .addu
  | .sub _ _ _ => .sub
  | .subu _ _ _ => .subu
  | .addi _ _ _ => .addi
  | .addiu _ _ _ => .addiu
  | .slt _ _ _ => .slt
  | .sltu _ _ _ => .sltu
  | .slti _ _ _ => .slti
  | .sltiu _ _ _ => .sltiu
  | .and _ _ _ => .and
  | .or _ _ _ => .or
  | .xor _ _ _ => .xor
  | .nor _ _ _ => .nor
  | .andi _ _ _ => .andi
  | .ori _ _ _ => .ori
  | .xori _ _ _ => .xori
  | .lui _ _ => .lui
  | .sll _ _ _ => .sll
  | .srl _ _ _ => .srl
  | .sra _ _ _ => .sra
  | .sllv _ _ _ => .sllv
  | .srlv _ _ _ => .srlv
  | .srav _ _ _ => .srav
  | .mult _ _ => .mult
  | .multu _ _ => .multu
  | .div _ _ => .div
  | .divu _ _ => .divu
  | .mfhi _ => .mfhi
  | .mflo _ => .mflo
  | .mthi _ => .mthi
  | .mtlo _ => .mtlo
  | .lb _ _ _ => .lb
  | .lbu _ _ _ => .lbu
  | .lw _ _ _ => .lw
  | .sb _ _ _ => .sb
  | .sw _ _ _ => .sw
  | .beq _ _ _ => .beq
  | .bne _ _ _ => .bne
  | .blez _ _ => .blez
  | .bgtz _ _ => .bgtz
  | .j _ => .j
  | .jal _ => .jal
  | .jr _ => .jr
  | .jalr _ _ => .jalr
  | .syscall => .syscall

/-- A register's field value. -/
def regBits (r : Reg) : BitVec 5 := BitVec.ofFin (w := 5) r

/-- The word of an R row (30_encoding.md R71, R87): fields that are no operand are given as zero. -/
def wordR (funct : BitVec 6) (rs rt rd : Reg) (shamt : BitVec 5) : Word :=
  setBits 5 0 funct <| setBits 10 6 shamt <| setBits 15 11 (regBits rd) <| setBits 20 16 (regBits rt) <|
    setBits 25 21 (regBits rs) <| setBits 31 26 (0x00 : BitVec 6) 0

/-- The word of an I row (30_encoding.md R72, R87). -/
def wordI (opcode : BitVec 6) (rs rt : Reg) (imm : BitVec 16) : Word :=
  setBits 15 0 imm <| setBits 20 16 (regBits rt) <| setBits 25 21 (regBits rs) <| setBits 31 26 opcode 0

/-- The word of a J row (30_encoding.md R73, R87). -/
def wordJ (opcode : BitVec 6) (address : BitVec 26) : Word :=
  setBits 25 0 address <| setBits 31 26 opcode 0

/-- The operands of an instruction in their fields (30_encoding.md R86), every other field zero (R87). -/
def Instr.fields (i : Instr) : Fields :=
  let z : Fields := ⟨0, 0, 0, 0, 0, 0⟩
  match i with
  | .add rd rs rt => { z with rd, rs, rt }
  | .addu rd rs rt => { z with rd, rs, rt }
  | .sub rd rs rt => { z with rd, rs, rt }
  | .subu rd rs rt => { z with rd, rs, rt }
  | .addi rt rs imm => { z with rt, rs, imm }
  | .addiu rt rs imm => { z with rt, rs, imm }
  | .slt rd rs rt => { z with rd, rs, rt }
  | .sltu rd rs rt => { z with rd, rs, rt }
  | .slti rt rs imm => { z with rt, rs, imm }
  | .sltiu rt rs imm => { z with rt, rs, imm }
  | .and rd rs rt => { z with rd, rs, rt }
  | .or rd rs rt => { z with rd, rs, rt }
  | .xor rd rs rt => { z with rd, rs, rt }
  | .nor rd rs rt => { z with rd, rs, rt }
  | .andi rt rs imm => { z with rt, rs, imm }
  | .ori rt rs imm => { z with rt, rs, imm }
  | .xori rt rs imm => { z with rt, rs, imm }
  | .lui rt imm => { z with rt, imm }
  | .sll rd rt shamt => { z with rd, rt, shamt }
  | .srl rd rt shamt => { z with rd, rt, shamt }
  | .sra rd rt shamt => { z with rd, rt, shamt }
  | .sllv rd rt rs => { z with rd, rt, rs }
  | .srlv rd rt rs => { z with rd, rt, rs }
  | .srav rd rt rs => { z with rd, rt, rs }
  | .mult rs rt => { z with rs, rt }
  | .multu rs rt => { z with rs, rt }
  | .div rs rt => { z with rs, rt }
  | .divu rs rt => { z with rs, rt }
  | .mfhi rd => { z with rd }
  | .mflo rd => { z with rd }
  | .mthi rs => { z with rs }
  | .mtlo rs => { z with rs }
  | .lb rt imm rs => { z with rt, imm, rs }
  | .lbu rt imm rs => { z with rt, imm, rs }
  | .lw rt imm rs => { z with rt, imm, rs }
  | .sb rt imm rs => { z with rt, imm, rs }
  | .sw rt imm rs => { z with rt, imm, rs }
  | .beq rs rt imm => { z with rs, rt, imm }
  | .bne rs rt imm => { z with rs, rt, imm }
  | .blez rs imm => { z with rs, imm }
  | .bgtz rs imm => { z with rs, imm }
  | .j address => { z with address }
  | .jal address => { z with address }
  | .jr rs => { z with rs }
  | .jalr rd rs => { z with rd, rs }
  | .syscall => z

/-- The word of a row with given fields (30_encoding.md R87). -/
def Row.assemble (r : Row) (f : Fields) : Word :=
  match r.fmt with
  | .R => wordR r.funct f.rs f.rt f.rd f.shamt
  | .I => wordI r.opcode f.rs f.rt f.imm
  | .J => wordJ r.opcode f.address

/-- The encoder (30_encoding.md R87). -/
def encode (i : Instr) : Word :=
  i.op.row.assemble i.fields

/-- The bits a layout's operands do not fill and the row does not fix: the ignored fields of 30_encoding.md R85. -/
def Op.ignoredMask (o : Op) : Word :=
  match o.row.layout with
  | .triple => 0x000007C0
  | .double => 0x0000FFC0
  | .single => 0x03FF07C0
  | .singleRs => 0x001FFFC0
  | .shiftTriple => 0x03E00000
  | .shiftVar => 0x000007C0
  | .jalrPair => 0x001F07C0
  | .none => 0x03FFFFC0
  | .immTriple => 0x00000000
  | .immPair => 0x03E00000
  | .mem => 0x00000000
  | .branch2 => 0x00000000
  | .branch1 => 0x001F0000
  | .jump => 0x00000000

/-! ### The host's numbering of words (spec/opcode_table.json) -/

/-- The instruction the decoder reads from the bits `w` of an opcode-table row: the word is laid out as memory holds
it and read back through the decoder on bytes. The byte order does not matter (20_memory.md R50). -/
def decodeTableWord (nbits w : Nat) : Option Instr :=
  match (decodeBytes .big (bytesOfWord .big (BitVec.ofNat 32 (w % 2 ^ nbits)))).1 with
  | .instr i => some i
  | .invalid _ => none

end Sys2Proof
end

