-- ==== Sys2Proof/Machine/State.lean ====
section
/-!
DEFINITION. The state of the machine as plain data: the core of 10_state.md, the parameters of the run (00_scope.md
R3) and the host's side of the interface (10_state.md R29), and the state after reset.
-/

-- One elaboration thread: each thread's stack counts against the check's memory limit.
set_option Elab.async false

namespace Sys2Proof.Machine

/-- Why a step could end in a fault. The type is EMPTY: the spec gives every fetched word and every instruction an
effect (70_reset_and_hazards.md R303, "the core is never stuck"); its traps are next states with `status = Faulted`
(60_exceptions.md R264). Nobody raises one, and that is safe: it claims nothing the spec does not say. -/
inductive Fault : Type
deriving DecidableEq, Repr

/-- Why a step could be refused. -/
inductive Refusal where
  /-- Raised by an arm of `exec` for an instruction that has no meaning yet; no arm does now. Safe. -/
  | notModelled (mnemonic : String)
deriving DecidableEq, Repr

/-- The run status (10_state.md R24). -/
inductive Status where
  | running
  | halted
  | suspended
  | faulted
deriving DecidableEq, Repr

/-- The recorded reason of `Faulted` (10_state.md R25). -/
inductive Cause where
  | none
  | overflow
  | syscallNotImplemented
deriving DecidableEq, Repr

/-- The host's lifecycle state (70_reset_and_hazards.md R292). -/
inductive Mode where
  | edit
  | execute
deriving DecidableEq, Repr

/-- The console's state (60_exceptions.md R272). -/
inductive ConsoleState where
  | ready
  | waitingInput
deriving DecidableEq, Repr

/-- What a console line says. The spec gives the text of no error line, so the model records the event (log 6). -/
inductive LineText where
  /-- Text a service wrote. -/
  | chars (text : List Byte)
  /-- The trap of 60_exceptions.md R264. -/
  | trap (cause : Cause) (info : Word)
  /-- A service rejected its input (45_system.md R192). -/
  | inputError
  /-- The off-line pass failed at a line of a file (50_assembler.md R241), for an InvalidOperand at a token
  (30_encoding.md R88). -/
  | assembleError (fileId line : Nat) (token : Option (List Char))
deriving DecidableEq, Repr

/-- A console line (60_exceptions.md R272). -/
structure ConsoleLine where
  kind : LineKind
  text : LineText
deriving DecidableEq, Repr

/-- A blocked environment call: the service and the generation it captured (45_system.md R192, 60_exceptions.md
R278). -/
structure PendingCall where
  service : Service
  token : Nat
deriving DecidableEq, Repr

/-- The host's side of the interface, "state that exists beside the core" (10_state.md R29). No instruction reads
it. -/
structure HostSide where
  /-- `edit` or `execute` (70_reset_and_hazards.md R292). -/
  mode : Mode
  /-- The flag of `run()` (60_exceptions.md R275, R277). -/
  running : Bool
  /-- The generation token's counter (60_exceptions.md R278). -/
  generation : Nat
  /-- The console's lines, oldest first (60_exceptions.md R272). -/
  console : List ConsoleLine
  /-- Whether a blocked read waits (60_exceptions.md R272). -/
  consoleState : ConsoleState
  /-- The blocked environment call, if there is one (45_system.md R192). -/
  pending : Option PendingCall
  /-- File and line of each instruction address (50_assembler.md R244). -/
  lineMap : List (Word × Nat × Nat)
  /-- THE MODEL'S OWN FIELD: how many answers abstract services have given, so that each is a fresh free value
  (log 4). -/
  calls : Nat
deriving DecidableEq, Repr

/-- Memory: (address, byte) pairs. An unlisted address reads 0x00 (20_memory.md R41, R42). -/
abbrev Memory := List Host.Cell

/-- The one canonical form of a memory: addresses strictly rising and inside the 32-bit space (20_memory.md R40), no
entry equal to what an unlisted address reads as. -/
abbrev Memory.wf (m : Memory) : Prop :=
  m.Pairwise (fun c d => c.1 < d.1) ∧ ∀ c ∈ m, c.1 < 2 ^ 32 ∧ c.2 ≠ 0#8

/-- The machine (10_state.md R33). -/
structure State where
  /-- The parameters of the run (00_scope.md R3, 70_reset_and_hazards.md R295); no step changes them. -/
  params : Params
  /-- The general registers (10_state.md R10). Slot 0 is never read or written (R12). -/
  regs : Vector Word 32
  /-- `hi` (10_state.md R15). -/
  hi : Word
  /-- `lo` (10_state.md R15). -/
  lo : Word
  /-- `pc` (10_state.md R20). -/
  pc : Word
  /-- `status` (10_state.md R24). -/
  status : Status
  /-- `cause` (10_state.md R25). -/
  cause : Cause
  /-- `cause_info` (10_state.md R25). -/
  causeInfo : Word
  /-- Memory (20_memory.md R41). -/
  mem : Memory
  /-- The host's side (10_state.md R29). -/
  host : HostSide
deriving DecidableEq, Repr

/-- The numeric codes of `cause` (10_state.md R25). -/
def Cause.code : Cause → Nat
  | .none => 0
  | .overflow => 1
  | .syscallNotImplemented => 2

/-- The register file after reset (10_state.md R16). -/
def State.resetRegs (spReset : Word) : Vector Word 32 :=
  ((Vector.replicate 32 0).set 28 Config.gpReset).set 29 spReset

/-- The host's side at its initial state (60_exceptions.md R279; the values the spec does not give: log 3). -/
def HostSide.initial (generation calls : Nat) : HostSide where
  mode := .edit
  running := false
  generation := generation
  console := []
  consoleState := .ready
  pending := none
  lineMap := []
  calls := calls

/-- The machine after a reset with the given parameters (10_state.md R33, 70_reset_and_hazards.md R290). -/
def State.resetWith (p : Params) (h : HostSide) : State where
  params := p
  regs := State.resetRegs p.spReset
  hi := 0
  lo := 0
  pc := p.entryPc
  status := .running
  cause := .none
  causeInfo := 0
  mem := []
  host := h

/-- The machine right after reset "at construction of the core" (70_reset_and_hazards.md R290), before any image is
loaded: the parameters of 00_scope.md R3 (`ENDIAN` and `SyscallTable`: logs 1 and 2), memory all zero. -/
def State.reset : State :=
  State.resetWith .default (.initial 0 0)

end Sys2Proof.Machine
end

