-- ==== Sys2Proof/Machine/Ops.lean ====
section
/-!
DEFINITION. The named operations over registers and memory, and taking a trap.
-/

-- One elaboration thread: each thread's stack counts against the check's memory limit.
set_option Elab.async false

namespace Sys2Proof.Machine

/-! ### Memory as a list of cells (20_memory.md R41) -/

/-- The byte at an address; 0x00 where nothing is listed (20_memory.md R41). -/
def Memory.read : Memory → Nat → Byte
  | [], _ => 0#8
  | (k, v) :: m, a => if a < k then 0#8 else if a = k then v else Memory.read m a

/-- Writing a byte; it keeps the canonical form, so writing 0x00 removes the entry. -/
def Memory.write : Memory → Nat → Byte → Memory
  | [], a, b => if b = 0#8 then [] else [(a, b)]
  | (k, v) :: m, a, b =>
    if a < k then (if b = 0#8 then (k, v) :: m else (a, b) :: (k, v) :: m)
    else if a = k then (if b = 0#8 then m else (a, b) :: m)
    else (k, v) :: Memory.write m a b

/-- Writing bytes at consecutive addresses, each taken modulo 2^32 (20_memory.md R49). -/
def Memory.writeBytes : Memory → Word → List Byte → Memory
  | m, _, [] => m
  | m, addr, b :: bs => Memory.writeBytes (m.write addr.toNat b) (addr + 1) bs

/-! ### Memory access (20_memory.md R44 to R49) -/

/-- `MemRead(addr, 1)` (20_memory.md R44). -/
def State.memRead1 (s : State) (addr : Word) : Byte :=
  s.mem.read addr.toNat

/-- `MemRead(addr, 4)`: each byte address modulo 2^32, no alignment check (20_memory.md R45, R48, R49). -/
def State.memRead4 (s : State) (addr : Word) : Word :=
  wordOfBytes s.params.endian (s.memRead1 addr) (s.memRead1 (addr + 1)) (s.memRead1 (addr + 2)) (s.memRead1 (addr + 3))

/-- `MemWrite(addr, 1, v)` (20_memory.md R46). -/
def State.memWrite1 (s : State) (addr : Word) (v : Byte) : State :=
  { s with mem := s.mem.write addr.toNat v }

/-- `MemWrite(addr, 4, v)` (20_memory.md R47, R48, R49). -/
def State.memWrite4 (s : State) (addr : Word) (v : Word) : State :=
  { s with mem := s.mem.writeBytes addr (bytesOfWord s.params.endian v) }

/-- The fetch of a step: `MemRead(pc, 4)`, changing nothing (20_memory.md R52). -/
def State.fetch (s : State) : Word :=
  s.memRead4 s.pc

/-! ### Registers (10_state.md R10 to R15, R20 to R22) -/

/-- `x[r]`: register 0 reads zero always (10_state.md R12). -/
def State.x (s : State) (r : Reg) : Word :=
  if r = 0 then 0 else s.regs[r]

/-- `x[r] <- v`: a write to register 0 is suppressed (10_state.md R12). -/
def State.setX (s : State) (r : Reg) (v : Word) : State :=
  if r = 0 then s else { s with regs := s.regs.set r v }

/-- `hi <- v` (10_state.md R15). -/
def State.setHi (s : State) (v : Word) : State := { s with hi := v }

/-- `lo <- v` (10_state.md R15). -/
def State.setLo (s : State) (v : Word) : State := { s with lo := v }

/-- `pc <- t` (10_state.md R21). -/
def State.setPc (s : State) (t : Word) : State := { s with pc := t }

/-- `pc <- pc + 4`, modulo 2^32 (10_state.md R21, R22). -/
def State.advance (s : State) : State := s.setPc (s.pc + 4)

/-! ### Ending an instruction -/

/-- The instruction writes one general register and goes on to the next word (10_state.md R21). -/
def writeResult (rd : Reg) (v : Word) (s : State) : Host.Outcome State Fault Refusal :=
  .next (s.setX rd v).advance

/-- The instruction writes `hi` and `lo` and goes on to the next word (42_muldiv.md R140). -/
def writeHiLo (hi lo : Word) (s : State) : Host.Outcome State Fault Refusal :=
  .next ((s.setHi hi).setLo lo).advance

/-! ### Traps and halts (60_exceptions.md) -/

/-- A line is appended to the console (60_exceptions.md R272). -/
def State.appendLine (s : State) (l : ConsoleLine) : State :=
  { s with host := { s.host with console := s.host.console ++ [l] } }

/-- `raise E`, trap entry (60_exceptions.md R264): nothing of the instruction commits, so `s` is the state before the
step; `status <- Faulted`, `cause` and `cause_info` record the trap, `pc` keeps the address of the trapping
instruction, there is no vector, no handler and no saved register. "A trap appends one error line" (R272). There is no
return from a trap but reset (R268), which is `State.resetWith`, and `hostReset` for the host. -/
def State.raise (s : State) (c : Cause) (info : Word) : State :=
  { s with status := .faulted, cause := c, causeInfo := info }.appendLine ⟨.error, .trap c info⟩

/-- `raise Overflow` (60_exceptions.md R261, R264): `cause_info` is 0. -/
def State.raiseOverflow (s : State) : State := s.raise .overflow 0

/-- `raise SyscallNotImplemented(code)` (60_exceptions.md R262, R264): `cause_info` is the code. -/
def State.raiseSyscallNotImplemented (s : State) (code : Word) : State := s.raise .syscallNotImplemented code

/-- `halt`: `status <- Halted`, nothing else changes (60_exceptions.md R266). -/
def State.halt (s : State) : State := { s with status := .halted }

end Sys2Proof.Machine
end

