-- ==== Sys2Proof/Machine/Operands.lean ====
section
/-!
DEFINITION. The operand forms: immediates, effective addresses, targets, shift amounts (30_encoding.md R75 to R79,
43_load_store.md R160).
-/

-- One elaboration thread: each thread's stack counts against the check's memory limit.
set_option Elab.async false

namespace Sys2Proof.Machine

/-- `sext_32(imm)`, the arithmetic, compare and displacement operand (30_encoding.md R75). -/
def sextImm (imm : BitVec 16) : Word := imm.signExtend 32

/-- `zext_32(imm)`, the logical operand (30_encoding.md R75). -/
def zextImm (imm : BitVec 16) : Word := imm.zeroExtend 32

/-- `sext_32` of a byte (43_load_store.md R161). -/
def sextByte (b : Byte) : Word := b.signExtend 32

/-- `zext_32` of a byte (43_load_store.md R162). -/
def zextByte (b : Byte) : Word := b.zeroExtend 32

/-- The `lui` operand `{imm, 0x0000}` (30_encoding.md R78). -/
def upperImm (imm : BitVec 16) : Word := imm ++ (0 : BitVec 16)

/-- The effective address of a load or store, `(x[rs] + sext_32(imm)) mod 2^32` (43_load_store.md R160). -/
def effectiveAddress (s : State) (rs : Reg) (imm : BitVec 16) : Word := s.x rs + sextImm imm

/-- The branch target, `pc + 4 + (sext_32(imm) << 2)` modulo 2^32 (30_encoding.md R76). -/
def branchTarget (pc : Word) (imm : BitVec 16) : Word := pc + 4 + (sextImm imm <<< 2)

/-- The jump target, `zext_32(address) << 2`, with no bit from `pc` (30_encoding.md R77). -/
def jumpTarget (address : BitVec 26) : Word := address.zeroExtend 32 <<< 2

/-- The shift amount of `sllv`, `srlv`, `srav`: the low five bits of `x[rs]` (30_encoding.md R79). -/
def shiftAmount (v : Word) : BitVec 5 := getBits 4 0 v

/-- The link value of `jal` and `jalr`, `pc + 4` (44_control.md R170). -/
def linkValue (s : State) : Word := s.pc + 4

end Sys2Proof.Machine
end

