-- ==== Sys2Proof/Machine/Flags.lean ====
section
/-!
DEFINITION. The core has no flags (10_state.md R27). What stands here in their place: the ALU's overflow signal
(00_scope.md R2, 40_arithmetic.md R100) and the results of comparisons (40_arithmetic.md R107 to R110).
-/

-- One elaboration thread: each thread's stack counts against the check's memory limit.
set_option Elab.async false

namespace Sys2Proof.Machine

/-- The mathematical result lies in the signed 32-bit range `[-2^31, 2^31 - 1]` (40_arithmetic.md R100). -/
def inSignedRange (r : Int) : Bool := decide (-2 ^ 31 ≤ r ∧ r ≤ 2 ^ 31 - 1)

/-- A comparison's result, 0x00000001 or 0x00000000 (40_arithmetic.md R100). -/
def ofCompare (b : Bool) : Word := if b then 1 else 0

/-- The signed comparison of `slt` and `slti` (40_arithmetic.md R107, R109). -/
def ltSigned (a b : Word) : Bool := decide (a.toInt < b.toInt)

/-- The unsigned comparison of `sltu` and `sltiu` (40_arithmetic.md R108, R110). -/
def ltUnsigned (a b : Word) : Bool := decide (a.toNat < b.toNat)

/-- The end of `add`, `addi` and `sub` (40_arithmetic.md R100): outside the signed range the instruction traps,
whatever its destination (D32); in range the destination receives the two's-complement form. -/
def writeOrTrap (rd : Reg) (r : Int) (s : State) : Host.Outcome State Fault Refusal :=
  if inSignedRange r then writeResult rd (BitVec.ofInt 32 r) s else .next s.raiseOverflow

end Sys2Proof.Machine
end

