-- ==== Sys2Proof/Machine/Arith.lean ====
section
/-!
DEFINITION. Integer add, subtract and compare (40_arithmetic.md).
-/

-- One elaboration thread: each thread's stack counts against the check's memory limit.
set_option Elab.async false

namespace Sys2Proof.Machine

/-- `add rd, rs, rt` (40_arithmetic.md R101). -/
def execAdd (rd rs rt : Reg) (s : State) : Host.Outcome State Fault Refusal :=
  writeOrTrap rd ((s.x rs).toInt + (s.x rt).toInt) s

/-- `addu rd, rs, rt` (40_arithmetic.md R102). -/
def execAddu (rd rs rt : Reg) (s : State) : Host.Outcome State Fault Refusal :=
  writeResult rd (s.x rs + s.x rt) s

/-- `sub rd, rs, rt` (40_arithmetic.md R103). -/
def execSub (rd rs rt : Reg) (s : State) : Host.Outcome State Fault Refusal :=
  writeOrTrap rd ((s.x rs).toInt - (s.x rt).toInt) s

/-- `subu rd, rs, rt` (40_arithmetic.md R104). -/
def execSubu (rd rs rt : Reg) (s : State) : Host.Outcome State Fault Refusal :=
  writeResult rd (s.x rs - s.x rt) s

/-- `addi rt, rs, imm` (40_arithmetic.md R105). -/
def execAddi (rt rs : Reg) (imm : BitVec 16) (s : State) : Host.Outcome State Fault Refusal :=
  writeOrTrap rt ((s.x rs).toInt + (sextImm imm).toInt) s

/-- `addiu rt, rs, imm` (40_arithmetic.md R106). -/
def execAddiu (rt rs : Reg) (imm : BitVec 16) (s : State) : Host.Outcome State Fault Refusal :=
  writeResult rt (s.x rs + sextImm imm) s

/-- `slt rd, rs, rt` (40_arithmetic.md R107). -/
def execSlt (rd rs rt : Reg) (s : State) : Host.Outcome State Fault Refusal :=
  writeResult rd (ofCompare (ltSigned (s.x rs) (s.x rt))) s

/-- `sltu rd, rs, rt` (40_arithmetic.md R108). -/
def execSltu (rd rs rt : Reg) (s : State) : Host.Outcome State Fault Refusal :=
  writeResult rd (ofCompare (ltUnsigned (s.x rs) (s.x rt))) s

/-- `slti rt, rs, imm` (40_arithmetic.md R109). -/
def execSlti (rt rs : Reg) (imm : BitVec 16) (s : State) : Host.Outcome State Fault Refusal :=
  writeResult rt (ofCompare (ltSigned (s.x rs) (sextImm imm))) s

/-- `sltiu rt, rs, imm` (40_arithmetic.md R110): the immediate is sign-extended, then compared as unsigned. -/
def execSltiu (rt rs : Reg) (imm : BitVec 16) (s : State) : Host.Outcome State Fault Refusal :=
  writeResult rt (ofCompare (ltUnsigned (s.x rs) (sextImm imm))) s

end Sys2Proof.Machine
end

