-- ==== Sys2Proof/Machine/Control.lean ====
section
/-!
DEFINITION. Control transfers (44_control.md): no delay slot, the new `pc` holds for the next step (R170).
-/

-- One elaboration thread: each thread's stack counts against the check's memory limit.
set_option Elab.async false

namespace Sys2Proof.Machine

/-- A conditional branch (44_control.md R170): the target when the condition holds, else `pc + 4`. -/
def branchIf (taken : Bool) (imm : BitVec 16) (s : State) : Host.Outcome State Fault Refusal :=
  if taken then .next (s.setPc (branchTarget s.pc imm)) else .next s.advance

/-- `beq rs, rt, label` (44_control.md R171). -/
def execBeq (rs rt : Reg) (imm : BitVec 16) (s : State) : Host.Outcome State Fault Refusal :=
  branchIf (decide (s.x rs = s.x rt)) imm s

/-- `bne rs, rt, label` (44_control.md R172). -/
def execBne (rs rt : Reg) (imm : BitVec 16) (s : State) : Host.Outcome State Fault Refusal :=
  branchIf (decide (s.x rs ≠ s.x rt)) imm s

/-- `blez rs, label` (44_control.md R173). -/
def execBlez (rs : Reg) (imm : BitVec 16) (s : State) : Host.Outcome State Fault Refusal :=
  branchIf (decide ((s.x rs).toInt ≤ 0)) imm s

/-- `bgtz rs, label` (44_control.md R174). -/
def execBgtz (rs : Reg) (imm : BitVec 16) (s : State) : Host.Outcome State Fault Refusal :=
  branchIf (decide (0 < (s.x rs).toInt)) imm s

/-- `j target` (44_control.md R175). -/
def execJ (address : BitVec 26) (s : State) : Host.Outcome State Fault Refusal :=
  .next (s.setPc (jumpTarget address))

/-- `jal target` (44_control.md R176): the link goes to register 31. -/
def execJal (address : BitVec 26) (s : State) : Host.Outcome State Fault Refusal :=
  .next ((s.setX 31 (linkValue s)).setPc (jumpTarget address))

/-- `jr rs` (44_control.md R177): any value, aligned or not. -/
def execJr (rs : Reg) (s : State) : Host.Outcome State Fault Refusal :=
  .next (s.setPc (s.x rs))

/-- `jalr rd, rs` (44_control.md R178): the target is read before the link is written. -/
def execJalr (rd rs : Reg) (s : State) : Host.Outcome State Fault Refusal :=
  .next ((s.setX rd (linkValue s)).setPc (s.x rs))

end Sys2Proof.Machine
end

