-- ==== Sys2Proof/Machine/LoadStore.lean ====
section
/-!
DEFINITION. Loads and stores (43_load_store.md): one addressing mode (R160), no alignment, no trap.
-/

-- One elaboration thread: each thread's stack counts against the check's memory limit.
set_option Elab.async false

namespace Sys2Proof.Machine

/-- `lb rt, imm(rs)` (43_load_store.md R161). -/
def execLb (rt : Reg) (imm : BitVec 16) (rs : Reg) (s : State) : Host.Outcome State Fault Refusal :=
  writeResult rt (sextByte (s.memRead1 (effectiveAddress s rs imm))) s

/-- `lbu rt, imm(rs)` (43_load_store.md R162). -/
def execLbu (rt : Reg) (imm : BitVec 16) (rs : Reg) (s : State) : Host.Outcome State Fault Refusal :=
  writeResult rt (zextByte (s.memRead1 (effectiveAddress s rs imm))) s

/-- `lw rt, imm(rs)` (43_load_store.md R163). -/
def execLw (rt : Reg) (imm : BitVec 16) (rs : Reg) (s : State) : Host.Outcome State Fault Refusal :=
  writeResult rt (s.memRead4 (effectiveAddress s rs imm)) s

/-- `sb rt, imm(rs)` (43_load_store.md R164): the byte `x[rt][7:0]`. -/
def execSb (rt : Reg) (imm : BitVec 16) (rs : Reg) (s : State) : Host.Outcome State Fault Refusal :=
  .next (s.memWrite1 (effectiveAddress s rs imm) (getBits 7 0 (s.x rt))).advance

/-- `sw rt, imm(rs)` (43_load_store.md R165). -/
def execSw (rt : Reg) (imm : BitVec 16) (rs : Reg) (s : State) : Host.Outcome State Fault Refusal :=
  .next (s.memWrite4 (effectiveAddress s rs imm) (s.x rt)).advance

end Sys2Proof.Machine
end

