-- ==== Sys2Proof/Machine/LogicShift.lean ====
section
/-!
DEFINITION. Logical, load-upper and shift instructions (41_logical_shift.md).
-/

-- One elaboration thread: each thread's stack counts against the check's memory limit.
set_option Elab.async false

namespace Sys2Proof.Machine

/-- `and rd, rs, rt` (41_logical_shift.md R121). -/
def execAnd (rd rs rt : Reg) (s : State) : Host.Outcome State Fault Refusal :=
  writeResult rd (s.x rs &&& s.x rt) s

/-- `or rd, rs, rt` (41_logical_shift.md R122). -/
def execOr (rd rs rt : Reg) (s : State) : Host.Outcome State Fault Refusal :=
  writeResult rd (s.x rs ||| s.x rt) s

/-- `xor rd, rs, rt` (41_logical_shift.md R123). -/
def execXor (rd rs rt : Reg) (s : State) : Host.Outcome State Fault Refusal :=
  writeResult rd (s.x rs ^^^ s.x rt) s

/-- `nor rd, rs, rt` (41_logical_shift.md R124). -/
def execNor (rd rs rt : Reg) (s : State) : Host.Outcome State Fault Refusal :=
  writeResult rd (~~~(s.x rs ||| s.x rt)) s

/-- `andi rt, rs, imm` (41_logical_shift.md R125). -/
def execAndi (rt rs : Reg) (imm : BitVec 16) (s : State) : Host.Outcome State Fault Refusal :=
  writeResult rt (s.x rs &&& zextImm imm) s

/-- `ori rt, rs, imm` (41_logical_shift.md R126). -/
def execOri (rt rs : Reg) (imm : BitVec 16) (s : State) : Host.Outcome State Fault Refusal :=
  writeResult rt (s.x rs ||| zextImm imm) s

/-- `xori rt, rs, imm` (41_logical_shift.md R127). -/
def execXori (rt rs : Reg) (imm : BitVec 16) (s : State) : Host.Outcome State Fault Refusal :=
  writeResult rt (s.x rs ^^^ zextImm imm) s

/-- `lui rt, imm` (41_logical_shift.md R128). -/
def execLui (rt : Reg) (imm : BitVec 16) (s : State) : Host.Outcome State Fault Refusal :=
  writeResult rt (upperImm imm) s

/-- `sll rd, rt, shamt` (41_logical_shift.md R129). -/
def execSll (rd rt : Reg) (shamt : BitVec 5) (s : State) : Host.Outcome State Fault Refusal :=
  writeResult rd (s.x rt <<< shamt) s

/-- `srl rd, rt, shamt` (41_logical_shift.md R130). -/
def execSrl (rd rt : Reg) (shamt : BitVec 5) (s : State) : Host.Outcome State Fault Refusal :=
  writeResult rd (s.x rt >>> shamt) s

/-- `sra rd, rt, shamt` (41_logical_shift.md R131). -/
def execSra (rd rt : Reg) (shamt : BitVec 5) (s : State) : Host.Outcome State Fault Refusal :=
  writeResult rd ((s.x rt).sshiftRight' shamt) s

/-- `sllv rd, rt, rs` (41_logical_shift.md R132). -/
def execSllv (rd rt rs : Reg) (s : State) : Host.Outcome State Fault Refusal :=
  writeResult rd (s.x rt <<< shiftAmount (s.x rs)) s

/-- `srlv rd, rt, rs` (41_logical_shift.md R133). -/
def execSrlv (rd rt rs : Reg) (s : State) : Host.Outcome State Fault Refusal :=
  writeResult rd (s.x rt >>> shiftAmount (s.x rs)) s

/-- `srav rd, rt, rs` (41_logical_shift.md R134). -/
def execSrav (rd rt rs : Reg) (s : State) : Host.Outcome State Fault Refusal :=
  writeResult rd ((s.x rt).sshiftRight' (shiftAmount (s.x rs))) s

end Sys2Proof.Machine
end

