-- ==== Sys2Proof/Machine/MulDiv.lean ====
section
/-!
DEFINITION. Multiply, divide and hi/lo moves (42_muldiv.md).
-/

-- One elaboration thread: each thread's stack counts against the check's memory limit.
set_option Elab.async false

namespace Sys2Proof.Machine

/-- A multiply's end: bits 63:32 of the product to `hi`, bits 31:0 to `lo` (42_muldiv.md R140). -/
def writeProduct (p : BitVec 64) (s : State) : Host.Outcome State Fault Refusal :=
  writeHiLo (p.extractLsb' 32 32) (p.extractLsb' 0 32) s

/-- `mult rs, rt` (42_muldiv.md R141): the signed product modulo 2^64. -/
def execMult (rs rt : Reg) (s : State) : Host.Outcome State Fault Refusal :=
  writeProduct (BitVec.ofInt 64 ((s.x rs).toInt * (s.x rt).toInt)) s

/-- `multu rs, rt` (42_muldiv.md R142): the unsigned product. -/
def execMultu (rs rt : Reg) (s : State) : Host.Outcome State Fault Refusal :=
  writeProduct (BitVec.ofNat 64 ((s.x rs).toNat * (s.x rt).toNat)) s

/-- The signed divider (42_muldiv.md R143), `(hi, lo)`: zero by zero, `DIV_OVF` for -2^31 by -1, else the remainder
and the quotient truncated toward zero. -/
def divSigned (p : Params) (n d : Int) : Word × Word :=
  if d = 0 then (0, 0)
  else if n = -2 ^ 31 ∧ d = -1 then (p.divOvfHi, p.divOvfLo)
  else
    let q := n.tdiv d
    (BitVec.ofInt 32 (n - q * d), BitVec.ofInt 32 q)

/-- `div rs, rt` (42_muldiv.md R143); no case traps. -/
def execDiv (rs rt : Reg) (s : State) : Host.Outcome State Fault Refusal :=
  let r := divSigned s.params (s.x rs).toInt (s.x rt).toInt
  writeHiLo r.1 r.2 s

/-- The unsigned divider (42_muldiv.md R144), `(hi, lo)`. -/
def divUnsigned (n d : Nat) : Word × Word :=
  if d = 0 then (0, 0) else (BitVec.ofNat 32 (n % d), BitVec.ofNat 32 (n / d))

/-- `divu rs, rt` (42_muldiv.md R144). -/
def execDivu (rs rt : Reg) (s : State) : Host.Outcome State Fault Refusal :=
  let r := divUnsigned (s.x rs).toNat (s.x rt).toNat
  writeHiLo r.1 r.2 s

/-- `mfhi rd` (42_muldiv.md R145). -/
def execMfhi (rd : Reg) (s : State) : Host.Outcome State Fault Refusal :=
  writeResult rd s.hi s

/-- `mflo rd` (42_muldiv.md R146). -/
def execMflo (rd : Reg) (s : State) : Host.Outcome State Fault Refusal :=
  writeResult rd s.lo s

/-- `mthi rs` (42_muldiv.md R147). -/
def execMthi (rs : Reg) (s : State) : Host.Outcome State Fault Refusal :=
  .next (s.setHi (s.x rs)).advance

/-- `mtlo rs` (42_muldiv.md R148). -/
def execMtlo (rs : Reg) (s : State) : Host.Outcome State Fault Refusal :=
  .next (s.setLo (s.x rs)).advance

end Sys2Proof.Machine
end

