-- ==== Sys2Proof/Machine/Text.lean ====
section
/-!
DEFINITION. Numbers as text: the decimal output of print services and the decimal and hexadecimal input of read
services and of the assembler (93_implementation_defined.md U9, 50_assembler.md R204).
-/

-- One elaboration thread: each thread's stack counts against the check's memory limit.
set_option Elab.async false

namespace Sys2Proof.Machine

/-- The value of a decimal digit. -/
def decDigit (c : Char) : Option Nat :=
  if '0' ≤ c ∧ c ≤ '9' then some (c.toNat - 48) else none

/-- The value of a hexadecimal digit, either case. -/
def hexDigit (c : Char) : Option Nat :=
  if '0' ≤ c ∧ c ≤ '9' then some (c.toNat - 48)
  else if 'a' ≤ c ∧ c ≤ 'f' then some (c.toNat - 87)
  else if 'A' ≤ c ∧ c ≤ 'F' then some (c.toNat - 55)
  else none

/-- The value of a digit string read after the digits that made `acc`. -/
def digitsFrom (digit : Char → Option Nat) (base acc : Nat) : List Char → Option Nat
  | [] => some acc
  | c :: cs =>
    match digit c with
    | some d => digitsFrom digit base (acc * base + d) cs
    | none => none

/-- A non-empty digit string. -/
def parseDigits (digit : Char → Option Nat) (base : Nat) : List Char → Option Nat
  | [] => none
  | cs => digitsFrom digit base 0 cs

/-- A decimal integer with an optional leading `-`. -/
def parseDecimal : List Char → Option Int
  | '-' :: cs => (parseDigits decDigit 10 cs).map fun n => -(n : Int)
  | cs => (parseDigits decDigit 10 cs).map fun n => (n : Int)

/-- The decimal digits of `n` as ASCII bytes, at most `fuel` of them. -/
def decimalDigits : Nat → Nat → List Byte
  | 0, _ => []
  | fuel + 1, n => (if n < 10 then [] else decimalDigits fuel (n / 10)) ++ [BitVec.ofNat 8 (48 + n % 10)]

/-- An integer in decimal (93_implementation_defined.md U9); a 32-bit value has at most ten digits. -/
def decimalText (v : Int) : List Byte :=
  (if v < 0 then [0x2D] else []) ++ decimalDigits 10 v.natAbs

end Sys2Proof.Machine
end

