-- ==== Sys2Proof/Machine/System.lean ====
section
/-!
DEFINITION. The environment call (45_system.md): the core's side, and the host's services as far as the spec gives
them. The services stand here because the host acts inside the step of `syscall` (60_exceptions.md R270).
-/

-- One elaboration thread: each thread's stack counts against the check's memory limit.
set_option Elab.async false

namespace Sys2Proof.Machine

/-! ### What a service sees and what it writes (45_system.md R191) -/

/-- What a host service may read. -/
def State.view (s : State) : ServiceView where
  regs := (List.finRange 32).map s.x
  hi := s.hi
  lo := s.lo
  pc := s.pc
  mem := s.mem

/-- A service's writes commit, in their order; a write to register 0 is suppressed as always. -/
def State.commit (s : State) (w : ServiceWrites) : State :=
  let s1 := w.regs.foldl (fun t p => t.setX p.1 p.2) s
  let s2 := match w.hi with
    | some v => s1.setHi v
    | none => s1
  let s3 := match w.lo with
    | some v => s2.setLo v
    | none => s2
  w.mem.foldl (fun t p => t.memWrite1 p.1 p.2) s3

/-- Console lines a service appends. -/
def State.appendLines (s : State) (ls : List (LineKind × List Byte)) : State :=
  ls.foldl (fun t l => t.appendLine ⟨l.1, .chars l.2⟩) s

/-- A service has answered: the next free value is a new one (log 4). -/
def State.countCall (s : State) : State :=
  { s with host := { s.host with calls := s.host.calls + 1 } }

/-! ### The services (93_implementation_defined.md U9; `other`: 45_system.md R191) -/

/-- The bytes from `addr` up to, not including, the first 0x00, at most `fuel` of them. -/
def State.bytesUpToZero (s : State) : Nat → Word → List Byte
  | 0, _ => []
  | fuel + 1, addr => if s.memRead1 addr = 0 then [] else s.memRead1 addr :: s.bytesUpToZero fuel (addr + 1)

/-- The string `print_string` prints. Memory lists finitely many bytes, so a 0x00 comes after at most that many
(log 5). -/
def State.stringAt (s : State) (addr : Word) : List Byte :=
  s.bytesUpToZero (s.mem.length + 1) addr

/-- No write at all. -/
def noWrites : ServiceWrites := ⟨[], none, none, []⟩

/-- What a service answers to an environment call (45_system.md R190, 93_implementation_defined.md U9). -/
def serviceAnswer (svc : Service) (s : State) : ServiceAnswer :=
  match svc with
  | .printInt => ⟨.proceed, noWrites, [(.success, decimalText (s.x 4).toInt)]⟩
  | .printString => ⟨.proceed, noWrites, [(.success, s.stringAt (s.x 4))]⟩
  | .readInt => ⟨.block, noWrites, []⟩
  | .exit => ⟨.exit, noWrites, []⟩
  | .printChar => ⟨.proceed, noWrites, [(.success, [getBits 7 0 (s.x 4)])]⟩
  | .other n => Config.serviceAnswer n s.view s.host.calls

/-- The writes of read_int for an input, `none` where it is no integer in the signed range
(93_implementation_defined.md U9). -/
def readIntWrites (input : List Char) : Option ServiceWrites :=
  match parseDecimal input with
  | some n => if inSignedRange n then some ⟨[(2, BitVec.ofInt 32 n)], none, none, []⟩ else none
  | none => none

/-- How a blocked service takes the input it waited for (45_system.md R191, R192). Only `readInt` and abstract
services ever block; the reply of the others is never used. -/
def serviceReply (svc : Service) (s : State) (input : List Char) : ServiceReply :=
  match svc with
  | .readInt => ⟨readIntWrites input, []⟩
  | .other n => Config.serviceResume n s.view s.host.calls input
  | .printInt => ⟨none, []⟩
  | .printString => ⟨none, []⟩
  | .exit => ⟨none, []⟩
  | .printChar => ⟨none, []⟩

/-! ### Serving a call -/

/-- `SyscallTable(code)`: the code is the full 32-bit value, compared exactly (45_system.md R190). -/
def State.serviceOf (s : State) (code : Word) : Option Service :=
  s.params.syscallTable.lookup code

/-- `Block` (45_system.md R190): `pc` and all registers unchanged; the service captures the generation
(60_exceptions.md R278) and the console waits (R272). -/
def State.suspend (s : State) (svc : Service) : State :=
  { s with
    status := .suspended
    host := { s.host with pending := some ⟨svc, s.host.generation⟩, consoleState := .waitingInput } }

/-- `ecall(code)`: the host runs the service and the step ends by the outcome it answers (45_system.md R190). -/
def State.serve (s : State) (svc : Service) : State :=
  let a := serviceAnswer svc s
  let t := s.countCall.appendLines a.lines
  match a.outcome with
  | .proceed => (t.commit a.writes).advance
  | .exit => (t.commit a.writes).advance.halt
  | .block => t.suspend svc

/-- `syscall` (45_system.md R190). -/
def execSyscall (s : State) : Host.Outcome State Fault Refusal :=
  match s.serviceOf (s.x Config.syscallCodeReg) with
  | none => .next (s.raiseSyscallNotImplemented (s.x Config.syscallCodeReg))
  | some svc => .next (s.serve svc)

end Sys2Proof.Machine
end

