-- ==== Sys2Proof/Machine/Step.lean ====
section
/-!
DEFINITION. One step of the core (10_state.md R30).
-/

-- One elaboration thread: each thread's stack counts against the check's memory limit.
set_option Elab.async false

namespace Sys2Proof.Machine

/-- `step()` of 10_state.md R30: nothing unless `Running`; fetch and decode; a word that is no instruction halts the
core (60_exceptions.md R266); else the instruction executes. -/
def step (s : State) : Host.Outcome State Fault Refusal :=
  match s.status with
  | .running =>
    match decode s.fetch with
    | .instr i => exec i s
    | .invalid _ => .next s.halt
  | .halted => .next s
  | .suspended => .next s
  | .faulted => .next s

/-- `s` with the instruction word `w` (its bits above `nbits` zero) stored where the next step fetches, in the byte
order of the run (20_memory.md R50), and `Running`, so that the next step runs it. It stands for the image load of
70_reset_and_hazards.md R291 (log 7). -/
def State.withFetchWord (s : State) (nbits w : Nat) : State :=
  { s.memWrite4 s.pc (BitVec.ofNat 32 (w % 2 ^ nbits)) with status := .running }

end Sys2Proof.Machine
end

