-- ==== Sys2Proof/Machine/AsmText.lean ====
section
/-!
DEFINITION. The text the off-line assembler reads: tokens, register names, literals, labels, operands
(50_assembler.md R201 to R205). The corners the spec leaves open are in log 9 and marked where they are settled.
-/

-- One elaboration thread: each thread's stack counts against the check's memory limit.
set_option Elab.async false

namespace Sys2Proof.Asm

open Sys2Proof.Machine

/-- Source text. -/
abbrev Text := List Char

/-! ### Names -/

/-- The mnemonics of the catalog (30_encoding.md R80). -/
def opName : Op → String
  | .sll => "sll"
  | .srl => "srl"
  | .sra => "sra"
  | .sllv => "sllv"
  | .srlv => "srlv"
  | .srav => "srav"
  | .jr => "jr"
  | .jalr => "jalr"
  | .syscall => "syscall"
  | .mfhi => "mfhi"
  | .mthi => "mthi"
  | .mflo => "mflo"
  | .mtlo => "mtlo"
  | .mult => "mult"
  | .multu => "multu"
  | .div => "div"
  | .divu => "divu"
  | .add => "add"
  | .addu => "addu"
  | .sub => "sub"
  | .subu => "subu"
  | .and => "and"
  | .or => "or"
  | .xor => "xor"
  | .nor => "nor"
  | .slt => "slt"
  | .sltu => "sltu"
  | .j => "j"
  | .jal => "jal"
  | .beq => "beq"
  | .bne => "bne"
  | .blez => "blez"
  | .bgtz => "bgtz"
  | .addi => "addi"
  | .addiu => "addiu"
  | .slti => "slti"
  | .sltiu => "sltiu"
  | .andi => "andi"
  | .ori => "ori"
  | .xori => "xori"
  | .lui => "lui"
  | .lb => "lb"
  | .lw => "lw"
  | .lbu => "lbu"
  | .sb => "sb"
  | .sw => "sw"

/-- The catalog entry a mnemonic names; matching is exact (50_assembler.md R202). -/
def opOfName (t : Text) : Option Op := Op.all.find? fun o => (opName o).toList == t

/-- The pseudo-instructions (50_assembler.md R225). -/
inductive Pseudo where
  | li | la | move | b | blt | bgt | ble | bge | nop
deriving DecidableEq, Repr

/-- The mnemonics of the pseudo-instructions (50_assembler.md R226 to R234). -/
def pseudoNames : List (String × Pseudo) :=
  [("li", .li), ("la", .la), ("move", .move), ("b", .b), ("blt", .blt), ("bgt", .bgt), ("ble", .ble), ("bge", .bge),
    ("nop", .nop)]

/-- The pseudo-instruction a mnemonic names. -/
def pseudoOfName (t : Text) : Option Pseudo := (pseudoNames.find? fun p => p.1.toList == t).map (·.2)

/-- The directives (50_assembler.md R210 to R217). -/
inductive Directive where
  | text | data | word | byte | half | ascii | asciiz | space | align | globl
deriving DecidableEq, Repr

/-- The directives' names. -/
def directiveNames : List (String × Directive) :=
  [(".text", .text), (".data", .data), (".word", .word), (".byte", .byte), (".half", .half), (".ascii", .ascii),
    (".asciiz", .asciiz), (".space", .space), (".align", .align), (".globl", .globl)]

/-- The directive a name names. -/
def directiveOfName (t : Text) : Option Directive := (directiveNames.find? fun p => p.1.toList == t).map (·.2)

/-- The registers' assembly names in number order, without the `$` (10_state.md R11). -/
def regNames : List String :=
  ["zero", "at", "v0", "v1", "a0", "a1", "a2", "a3", "t0", "t1", "t2", "t3", "t4", "t5", "t6", "t7"]
    ++ ["s0", "s1", "s2", "s3", "s4", "s5", "s6", "s7", "t8", "t9", "k0", "k1", "gp", "sp", "fp", "ra"]

/-- The register number that is a number below 32. -/
def regOfNat (n : Nat) : Option Reg := if h : n < 32 then some ⟨n, h⟩ else none

/-- A register operand, `$name` or `$number` (50_assembler.md R203). -/
def parseReg : Text → Option Reg
  | '$' :: t =>
    match regNames.findIdx? fun n => n.toList == t with
    | some k => regOfNat k
    | none => (parseDigits decDigit 10 t).bind regOfNat
  | _ => none

/-! ### Lines and tokens (50_assembler.md R201) -/

/-- The lines of a text. -/
def splitLines : Text → Text → List Text
  | cur, [] => [cur.reverse]
  | cur, c :: cs => if c = '\n' then cur.reverse :: splitLines [] cs else splitLines (c :: cur) cs

/-- Where the tokenizer stands: outside quotes, inside a string or a character literal, or after a backslash there. -/
inductive LexMode where
  | plain | string | stringEscape | char | charEscape
deriving DecidableEq, Repr

/-- A separator: comma or white space (50_assembler.md R201). Which characters are white space is the model's choice
(log 9, DESIGN CHOICE): space, tab and carriage return, so a form feed or a vertical tab is part of a token. -/
def isSeparator (c : Char) : Bool := c = ',' || c = ' ' || c = '\t' || c = '\r'

/-- The token read so far, if it is not empty, before the others. -/
def flushToken (cur : Text) (ts : List Text) : List Text := if cur = [] then ts else cur.reverse :: ts

/-- The tokens of a line; a `#` outside quotes begins a comment (50_assembler.md R201). A string or character literal
with no separator before or after it is one token with the text that adjoins it, the model's choice (log 9, DESIGN
CHOICE): `.ascii"Hi"` is one token. -/
def tokens : LexMode → Text → Text → List Text
  | _, cur, [] => flushToken cur []
  | .plain, cur, c :: cs =>
    if c = '#' then flushToken cur []
    else if isSeparator c then flushToken cur (tokens .plain [] cs)
    else if c = '"' then tokens .string (c :: cur) cs
    else if c = '\'' then tokens .char (c :: cur) cs
    else tokens .plain (c :: cur) cs
  | .string, cur, c :: cs =>
    if c = '\\' then tokens .stringEscape (c :: cur) cs
    else if c = '"' then tokens .plain (c :: cur) cs
    else tokens .string (c :: cur) cs
  | .stringEscape, cur, c :: cs => tokens .string (c :: cur) cs
  | .char, cur, c :: cs =>
    if c = '\\' then tokens .charEscape (c :: cur) cs
    else if c = '\'' then tokens .plain (c :: cur) cs
    else tokens .char (c :: cur) cs
  | .charEscape, cur, c :: cs => tokens .char (c :: cur) cs

/-- A line's label definitions and the statement after them (50_assembler.md R202). -/
structure ParsedLine where
  line : Nat
  source : Text
  labels : List Text
  body : Option (Text × List Text)
deriving DecidableEq, Repr

/-- The name a token defines as a label: it ends with `:`. -/
def labelDefOf (t : Text) : Option Text :=
  if t.getLast? = some ':' then some t.dropLast else none

/-- The label definitions at the start of a line, and the rest. -/
def splitLabels : List Text → List Text × List Text
  | [] => ([], [])
  | t :: ts =>
    match labelDefOf t with
    | some name => (name :: (splitLabels ts).1, (splitLabels ts).2)
    | none => ([], t :: ts)

/-- One line (50_assembler.md R201, R202). -/
def parseLine (line : Nat) (source : Text) : ParsedLine :=
  let p := splitLabels (tokens .plain [] source)
  ⟨line, source, p.1, match p.2 with
    | [] => none
    | head :: args => some (head, args)⟩

/-- Lines numbered from `n`. -/
def parseLines (n : Nat) : List Text → List ParsedLine
  | [] => []
  | t :: ts => parseLine n t :: parseLines (n + 1) ts

/-- A file's lines, numbered from 1 (50_assembler.md R201). -/
def parseContent (content : Text) : List ParsedLine := parseLines 1 (splitLines [] content)

/-! ### Literals (50_assembler.md R204) -/

/-- The ASCII code of a character, if it has one. -/
def asciiCode (c : Char) : Option Nat := if c.toNat < 128 then some c.toNat else none

/-- The value of an escape. -/
def escapeCode (c : Char) : Option Nat :=
  if c = 'n' then some 10
  else if c = 't' then some 9
  else if c = '0' then some 0
  else if c = '\\' then some 92
  else if c = '\'' then some 39
  else if c = '"' then some 34
  else none

/-- An unsigned decimal or hexadecimal number. -/
def parseUnsigned : Text → Option Nat
  | '0' :: 'x' :: cs => parseDigits hexDigit 16 cs
  | '0' :: 'X' :: cs => parseDigits hexDigit 16 cs
  | cs => parseDigits decDigit 10 cs

/-- A numeric literal: decimal or hexadecimal with an optional leading `-`, or a character literal (50_assembler.md
R204). Two points are the model's choice (log 9, DESIGN CHOICE). A leading `+` is refused, since R204 names only `-`,
although the examples of 44_control.md R171 and R173 write the offsets `+3` and `+1`. An unescaped quote or backslash
between quotes is no character literal, since R204 names an escape for each. -/
def parseLiteral : Text → Option Int
  | ['\'', '\\', c, '\''] => (escapeCode c).map Int.ofNat
  | ['\'', c, '\''] => if c = '\\' || c = '\'' then none else (asciiCode c).map Int.ofNat
  | '-' :: cs => (parseUnsigned cs).map fun n => -(n : Int)
  | cs => (parseUnsigned cs).map Int.ofNat

/-- The bytes of a string after its opening quote, up to its closing quote, which ends the token. -/
def stringBytes : Text → Option (List Byte)
  | [] => none
  | ['"'] => some []
  | '\\' :: c :: cs =>
    match escapeCode c, stringBytes cs with
    | some n, some bs => some (BitVec.ofNat 8 n :: bs)
    | _, _ => none
  | c :: cs =>
    if c = '"' then none
    else
      match asciiCode c, stringBytes cs with
      | some n, some bs => some (BitVec.ofNat 8 n :: bs)
      | _, _ => none

/-- A double-quoted string. -/
def parseString : Text → Option (List Byte)
  | '"' :: cs => stringBytes cs
  | _ => none

/-! ### Labels (50_assembler.md R205) -/

/-- A letter, `_` or `.` (50_assembler.md R205). Only ASCII letters, and only ASCII digits below, are letters and digits
of a label name, the model's choice (log 9, DESIGN CHOICE). -/
def isLabelStart (c : Char) : Bool := c.isAlpha || c = '_' || c = '.'

/-- A letter, a digit, `_`, `.` or `$`. -/
def isLabelChar (c : Char) : Bool := c.isAlpha || c.isDigit || c = '_' || c = '.' || c = '$'

/-- A label name: the shape, and none of the reserved names. -/
def isLabelName (t : Text) : Bool :=
  match t with
  | [] => false
  | c :: cs =>
    isLabelStart c && cs.all isLabelChar && (opOfName t).isNone && (pseudoOfName t).isNone && (directiveOfName t).isNone

/-- A label reference with its constant. -/
structure LabelRef where
  name : Text
  offset : Int
deriving DecidableEq, Repr

/-- `name`, `name+k` or `name-k`. -/
def parseLabelRef (t : Text) : Option LabelRef :=
  let name := t.takeWhile isLabelChar
  if isLabelName name then
    match t.dropWhile isLabelChar with
    | [] => some ⟨name, 0⟩
    | '+' :: k => (parseLiteral k).map fun v => ⟨name, v⟩
    | '-' :: k => (parseLiteral k).map fun v => ⟨name, -v⟩
    | _ => none
  else none

/-! ### Operands (30_encoding.md R86, 50_assembler.md R238) -/

/-- An operand of a text statement. `unreadable` is a token that is no operand: the encoder refuses it. `refHi` and `refLo` are the halves of a label's address that expansions use
(50_assembler.md R227, R238); no written operand makes one. -/
inductive Operand where
  | reg (r : Reg)
  | lit (v : Int)
  | ref (l : LabelRef)
  | refHi (l : LabelRef)
  | refLo (l : LabelRef)
  | mem (disp : Int) (base : Reg)
  | memBase (base : Reg)
  | memRef (l : LabelRef) (base : Reg)
  | unreadable (token : Text)
deriving DecidableEq, Repr

/-- The last `(`: what stands before it and after it. -/
def splitLastParen (t : Text) : Option (Text × Text) :=
  match t.reverse.span (fun c => c ≠ '(') with
  | (_, []) => none
  | (after, _ :: before) => some (before.reverse, after.reverse)

/-- `offset(base)`: the offset empty, a literal or a label reference. -/
def parseMem (t : Text) : Option Operand :=
  match splitLastParen t with
  | none => none
  | some (before, after) =>
    if after.getLast? = some ')' then
      match parseReg after.dropLast with
      | none => none
      | some base =>
        if before = [] then some (.memBase base)
        else
          match parseLiteral before with
          | some v => some (.mem v base)
          | none => (parseLabelRef before).map fun l => .memRef l base
    else none

/-- An operand token (50_assembler.md R203, R204). -/
def parseOperand (t : Text) : Operand :=
  match parseReg t with
  | some r => .reg r
  | none =>
    match parseLiteral t with
    | some v => .lit v
    | none =>
      match parseMem t with
      | some o => o
      | none =>
        match parseLabelRef t with
        | some l => .ref l
        | none => .unreadable t

end Sys2Proof.Asm
end

