-- ==== Sys2Proof/Machine/AsmExpand.lean ====
section
/-!
DEFINITION. Pseudo-instructions and operand sugar (50_assembler.md R225 to R239), and the encoding of a real statement
(30_encoding.md R86 to R88, 50_assembler.md R222, R223). An expansion takes no label address, so its size cannot
depend on one (50_assembler.md R221).
-/

-- One elaboration thread: each thread's stack counts against the check's memory limit.
set_option Elab.async false

namespace Sys2Proof.Asm

open Sys2Proof.Machine

/-- Why assembling stops (50_assembler.md R241; 30_encoding.md R88). The list is the model's own (log 9). -/
inductive ErrorKind where
  | unknownSymbol
  | malformedDirective
  | pseudoArity
  | unresolvedLabel
  | invalidOperand
  | operandCount
  | outOfRange
  | misalignedTarget
  | badLabelName
  | duplicateLabel
  | statementInData
deriving DecidableEq, Repr

/-- Which address the run starts at (50_assembler.md R245). -/
inductive EntrySelection where
  | textStart
  | mainLabel
  | fileStart (fileId : Nat)
deriving DecidableEq, Repr

/-- The settings of the off-line pass (50_assembler.md R200, 00_scope.md R3). -/
structure Settings where
  pseudoEnable : Bool
  allowLiterals : Bool
  entry : EntrySelection
  textBase : Word
  dataBase : Word
deriving DecidableEq, Repr

/-- The defaults: 93_implementation_defined.md U15 for the two switches, U3 for the bases, 50_assembler.md R245 for
the entry. -/
def Settings.default : Settings := ⟨true, true, .textStart, Config.textBase, Config.dataBase⟩

/-- A statement with a catalog mnemonic. -/
structure Stmt where
  op : Op
  args : List Operand
deriving DecidableEq, Repr

/-! ### Ranges (50_assembler.md R204) -/

/-- A signed 16-bit value. -/
def fitsSigned16 (v : Int) : Bool := decide (-32768 ≤ v ∧ v ≤ 32767)
/-- An unsigned 16-bit value. -/
def fitsUnsigned16 (v : Int) : Bool := decide (0 ≤ v ∧ v ≤ 65535)
/-- A 32-bit literal. -/
def fitsWord (v : Int) : Bool := decide (-2 ^ 31 ≤ v ∧ v ≤ 2 ^ 32 - 1)

/-- `V[31:16]` as an operand. -/
def hiHalf (v : Word) : Operand := .lit ((getBits 31 16 v).toNat : Int)
/-- `V[15:0]` as an operand. -/
def loHalf (v : Word) : Operand := .lit ((getBits 15 0 v).toNat : Int)

/-- `$zero`. -/
def zeroReg : Operand := .reg 0
/-- `$at`, the scratch register of every expansion (50_assembler.md R239). -/
def atReg : Operand := .reg 1

/-! ### Pseudo-instructions -/

/-- `li rt, L` (50_assembler.md R226). -/
def expandLi (rt : Reg) (l : Int) : List Stmt :=
  if fitsSigned16 l then [⟨.addiu, [.reg rt, zeroReg, .lit l]⟩]
  else if fitsUnsigned16 l then [⟨.ori, [.reg rt, zeroReg, .lit l]⟩]
  else [⟨.lui, [atReg, hiHalf (BitVec.ofInt 32 l)]⟩, ⟨.ori, [.reg rt, atReg, loHalf (BitVec.ofInt 32 l)]⟩]

/-- `la rt, ref` (50_assembler.md R227). -/
def expandLa (rt : Reg) (l : LabelRef) : List Stmt :=
  [⟨.lui, [atReg, .refHi l]⟩, ⟨.ori, [.reg rt, atReg, .refLo l]⟩]

/-- A comparison into `$at` and a branch on it (50_assembler.md R230 to R233). -/
def expandCompareBranch (a b : Reg) (branch : Op) (target : Operand) : List Stmt :=
  [⟨.slt, [atReg, .reg a, .reg b]⟩, ⟨branch, [atReg, zeroReg, target]⟩]

/-- How many operands a pseudo-instruction has. -/
def Pseudo.arity : Pseudo → Nat
  | .li => 2
  | .la => 2
  | .move => 2
  | .b => 1
  | .blt => 3
  | .bgt => 3
  | .ble => 3
  | .bge => 3
  | .nop => 0

/-- The expansion of a pseudo-instruction (50_assembler.md R225 to R234). The target of `b`, `blt`, `bgt`, `ble` and
`bge` goes to the branch as it is written, so a number is accepted there as the word offset of the branch word; the
spec lists numbers for the real branches only (R204), and this is the model's choice (log 9, DESIGN CHOICE). -/
def expandPseudo (p : Pseudo) (args : List Operand) : Except ErrorKind (List Stmt) :=
  if args.length ≠ p.arity then .error .pseudoArity
  else
    match p, args with
    | .li, [.reg rt, .lit l] => if fitsWord l then .ok (expandLi rt l) else .error .outOfRange
    | .la, [.reg rt, .ref l] => .ok (expandLa rt l)
    | .move, [.reg rd, .reg rs] => .ok [⟨.addu, [.reg rd, zeroReg, .reg rs]⟩]
    | .b, [target] => .ok [⟨.beq, [zeroReg, zeroReg, target]⟩]
    | .blt, [.reg rs, .reg rt, target] => .ok (expandCompareBranch rs rt .bne target)
    | .bgt, [.reg rs, .reg rt, target] => .ok (expandCompareBranch rt rs .bne target)
    | .ble, [.reg rs, .reg rt, target] => .ok (expandCompareBranch rt rs .beq target)
    | .bge, [.reg rs, .reg rt, target] => .ok (expandCompareBranch rs rt .beq target)
    | .nop, [] => .ok [⟨.sll, [zeroReg, zeroReg, .lit 1]⟩]
    | _, _ => .error .invalidOperand

/-! ### Operand sugar (50_assembler.md R235 to R238) -/

/-- The immediate counterpart of a three-register instruction, when the literal fits it (50_assembler.md R236). -/
def immediateForm (o : Op) (l : Int) : Option Op :=
  let arith := fitsSigned16 l
  let logic := decide (0 ≤ l ∧ l ≤ 32767)
  match o with
  | .add => if arith then some .addi else none
  | .addu => if arith then some .addiu else none
  | .slt => if arith then some .slti else none
  | .sltu => if arith then some .sltiu else none
  | .and => if logic then some .andi else none
  | .or => if logic then some .ori else none
  | .xor => if logic then some .xori else none
  | _ => none

/-- A literal in place of the last register (50_assembler.md R236). -/
def expandLastLiteral (o : Op) (rd rs : Reg) (l : Int) : List Stmt :=
  match immediateForm o l with
  | some o' => [⟨o', [.reg rd, .reg rs, .lit l]⟩]
  | none => expandLi 1 l ++ [⟨o, [.reg rd, .reg rs, atReg]⟩]

/-- The address of a label in `$at` (50_assembler.md R238). -/
def loadRef (l : LabelRef) : List Stmt :=
  [⟨.lui, [atReg, .refHi l]⟩, ⟨.ori, [atReg, atReg, .refLo l]⟩]

/-- A memory operand that is not canonical (50_assembler.md R238); a statement of another shape is left unchanged. -/
def expandMem (o : Op) (rt : Reg) (m : Operand) : List Stmt :=
  match m with
  | .memBase base => [⟨o, [.reg rt, .mem 0 base]⟩]
  | .lit l =>
    if fitsSigned16 l then [⟨o, [.reg rt, .mem l 0]⟩]
    else if fitsWord l then
      [⟨.lui, [atReg, hiHalf (BitVec.ofInt 32 l)]⟩, ⟨.ori, [atReg, atReg, loHalf (BitVec.ofInt 32 l)]⟩,
        ⟨o, [.reg rt, .mem 0 1]⟩]
    else [⟨o, [.reg rt, m]⟩]
  | .ref l => loadRef l ++ [⟨o, [.reg rt, .mem 0 1]⟩]
  | .memRef l base => loadRef l ++ [⟨.addu, [atReg, atReg, .reg base]⟩, ⟨o, [.reg rt, .mem 0 1]⟩]
  | m => [⟨o, [.reg rt, m]⟩]

/-- The rewritings of operand sugar (50_assembler.md R236 to R238); any other shape is left unchanged. -/
def sugar (st : Stmt) : List Stmt :=
  match st.op.row.layout, st.args with
  | .triple, [.reg rd, .reg rs, .lit l] => if fitsWord l then expandLastLiteral st.op rd rs l else [st]
  | .branch2, [.reg rs, .lit l, target] =>
    if fitsWord l then expandLi 1 l ++ [⟨st.op, [.reg rs, atReg, target]⟩] else [st]
  | .mem, [.reg rt, m] => expandMem st.op rt m
  | _, _ => [st]

/-- Operand sugar (50_assembler.md R235): with `ALLOW_LITERALS` off the statement is unchanged. A shape that is not
rewritten and not canonical fails in the encoder. -/
def desugar (allowLiterals : Bool) (st : Stmt) : List Stmt :=
  if allowLiterals then sugar st else [st]

/-- A text statement's real instructions (50_assembler.md R202, R220, R225, R235). Both passes expand, so an unknown
mnemonic and what is wrong with a pseudo-instruction's number of operands, their shapes and the literal of `li` is found
in pass 1, as R220's sizing by expansion needs; every other operand error is the encoder's (30_encoding.md R88) and is
found in pass 2. In which pass an error is found decides which of two is the first, and is the model's choice (log 9,
DESIGN CHOICE). -/
def expandStatement (cfg : Settings) (head : Text) (args : List Text) : Except ErrorKind (List Stmt) :=
  match opOfName head with
  | some o => .ok (desugar cfg.allowLiterals ⟨o, args.map parseOperand⟩)
  | none =>
    match cfg.pseudoEnable, pseudoOfName head with
    | true, some p => expandPseudo p (args.map parseOperand)
    | _, _ => .error .unknownSymbol

/-! ### The token an InvalidOperand error identifies (30_encoding.md R88, 50_assembler.md R203) -/

/-- A register. -/
def Operand.isReg : Operand → Bool
  | .reg _ => true
  | _ => false

/-- A number. -/
def Operand.isLit : Operand → Bool
  | .lit _ => true
  | _ => false

/-- A number that sugar accepts in place of a register. -/
def Operand.isWordLit : Operand → Bool
  | .lit v => fitsWord v
  | _ => false

/-- A label reference. -/
def Operand.isRef : Operand → Bool
  | .ref _ => true
  | _ => false

/-- A branch or jump target. -/
def Operand.isTarget (o : Operand) : Bool := o.isLit || o.isRef

/-- A memory operand as 50_assembler.md R238 writes it; only `imm(base)` is canonical. -/
def Operand.isMem (allowLiterals : Bool) : Operand → Bool
  | .mem _ _ => true
  | .memBase _ => allowLiterals
  | .memRef _ _ => allowLiterals
  | .ref _ => allowLiterals
  | .lit v => allowLiterals && fitsWord v
  | _ => false

/-- A token that is no operand. -/
def Operand.isUnreadable : Operand → Bool
  | .unreadable _ => true
  | _ => false

/-- What each operand of a layout may be, sugar included where it is on (30_encoding.md R86, 50_assembler.md R236 to
R238). -/
def operandShapes (allowLiterals : Bool) (l : Layout) : List (Operand → Bool) :=
  let r := Operand.isReg
  let regOrLit := fun o : Operand => o.isReg || (allowLiterals && o.isWordLit)
  match l with
  | .triple => [r, r, regOrLit]
  | .double => [r, r]
  | .single => [r]
  | .singleRs => [r]
  | .shiftTriple => [r, r, Operand.isLit]
  | .shiftVar => [r, r, r]
  | .jalrPair => [r, r]
  | .none => []
  | .immTriple => [r, r, Operand.isLit]
  | .immPair => [r, Operand.isLit]
  | .mem => [r, Operand.isMem allowLiterals]
  | .branch2 => [r, regOrLit, Operand.isTarget]
  | .branch1 => [r, Operand.isTarget]
  | .jump => [Operand.isTarget]

/-- What each operand of a pseudo-instruction may be (50_assembler.md R226 to R234). -/
def Pseudo.shapes : Pseudo → List (Operand → Bool)
  | .li => [Operand.isReg, Operand.isLit]
  | .la => [Operand.isReg, Operand.isRef]
  | .move => [Operand.isReg, Operand.isReg]
  | .b => [Operand.isTarget]
  | .blt => [Operand.isReg, Operand.isReg, Operand.isTarget]
  | .bgt => [Operand.isReg, Operand.isReg, Operand.isTarget]
  | .ble => [Operand.isReg, Operand.isReg, Operand.isTarget]
  | .bge => [Operand.isReg, Operand.isReg, Operand.isTarget]
  | .nop => []

/-- The first token that is not of its position's shape. -/
def firstMisfit : List (Operand → Bool) → List Text → Option Text
  | fits :: shapes, t :: ts => if fits (parseOperand t) then firstMisfit shapes ts else some t
  | _, _ => none

/-- The token of a statement an InvalidOperand error identifies: the first that is no operand at all, else the first
that is not of its position's shape. -/
def offendingToken (cfg : Settings) (head : Text) (args : List Text) : Option Text :=
  match args.find? fun t => (parseOperand t).isUnreadable with
  | some t => some t
  | none =>
    match opOfName head, pseudoOfName head with
    | some o, _ => firstMisfit (operandShapes cfg.allowLiterals o.row.layout) args
    | none, some p => firstMisfit p.shapes args
    | none, none => none

/-! ### Encoding a real statement (30_encoding.md R86 to R88) -/

/-- The address of a label reference, constant included, modulo 2^32 (50_assembler.md R222, R227). -/
def refAddress (resolve : Text → Option Word) (l : LabelRef) : Except ErrorKind Word :=
  match resolve l.name with
  | some a => .ok (a + BitVec.ofInt 32 l.offset)
  | none => .error .unresolvedLabel

/-- A signed immediate's field (30_encoding.md R87). -/
def signedField (v : Int) : Except ErrorKind (BitVec 16) :=
  if fitsSigned16 v then .ok (BitVec.ofInt 16 v) else .error .outOfRange

/-- An unsigned immediate's field. -/
def unsignedField (v : Int) : Except ErrorKind (BitVec 16) :=
  if fitsUnsigned16 v then .ok (BitVec.ofInt 16 v) else .error .outOfRange

/-- The branch offset that reaches `target` from the branch at `a` (50_assembler.md R222). -/
def branchField (a target : Word) : Except ErrorKind (BitVec 16) :=
  let d : Int := (target.toNat : Int) - ((a.toNat : Int) + 4)
  if d % 4 = 0 then signedField (d / 4) else .error .misalignedTarget

/-- The field of a jump to `target` (50_assembler.md R223): a multiple of 4 below 2^28. -/
def jumpField (target : Int) : Except ErrorKind (BitVec 26) :=
  if target % 4 ≠ 0 then .error .misalignedTarget
  else if 0 ≤ target ∧ target < 2 ^ 28 then .ok (BitVec.ofInt 26 (target / 4))
  else .error .outOfRange

/-- Arithmetic immediates are signed, logical ones and `lui`'s unsigned (50_assembler.md R204). -/
def immIsSigned : Op → Bool
  | .addi => true
  | .addiu => true
  | .slti => true
  | .sltiu => true
  | _ => false

/-- An immediate operand's field. -/
def immField (resolve : Text → Option Word) (o : Op) : Operand → Except ErrorKind (BitVec 16)
  | .lit v => if immIsSigned o then signedField v else unsignedField v
  | .refHi l => (refAddress resolve l).map fun a => getBits 31 16 a
  | .refLo l => (refAddress resolve l).map fun a => getBits 15 0 a
  | _ => .error .invalidOperand

/-- A branch operand's field: a label, or a number that is the word offset itself (50_assembler.md R204, R222). -/
def branchOperand (resolve : Text → Option Word) (a : Word) : Operand → Except ErrorKind (BitVec 16)
  | .lit v => signedField v
  | .ref l => (refAddress resolve l).bind fun target => branchField a target
  | _ => .error .invalidOperand

/-- A jump operand's field: a label, or a number that is the byte address (50_assembler.md R204, R223). -/
def jumpOperand (resolve : Text → Option Word) : Operand → Except ErrorKind (BitVec 26)
  | .lit v => jumpField v
  | .ref l => (refAddress resolve l).bind fun target => jumpField (target.toNat : Int)
  | _ => .error .invalidOperand

/-- No field set. -/
def noFields : Fields := ⟨0, 0, 0, 0, 0, 0⟩

/-- How many operands a layout takes (30_encoding.md R86). -/
def takesOperands (l : Layout) (n : Nat) : Bool :=
  n == (operandShapes false l).length || (l == .jalrPair && n == 1)

/-- What is wrong with operands that fill no fields: their number, unless one of them is no operand at all. -/
def operandError (l : Layout) (args : List Operand) : ErrorKind :=
  if takesOperands l args.length || args.any Operand.isUnreadable then .invalidOperand else .operandCount

/-- The fields a statement's operands fill, by the row's layout (30_encoding.md R86). -/
def operandFields (resolve : Text → Option Word) (a : Word) (st : Stmt) : Except ErrorKind Fields :=
  match st.op.row.layout, st.args with
  | .triple, [.reg rd, .reg rs, .reg rt] => .ok { noFields with rd, rs, rt }
  | .double, [.reg rs, .reg rt] => .ok { noFields with rs, rt }
  | .single, [.reg rd] => .ok { noFields with rd }
  | .singleRs, [.reg rs] => .ok { noFields with rs }
  | .shiftTriple, [.reg rd, .reg rt, .lit n] =>
    if 0 ≤ n ∧ n ≤ 31 then .ok { noFields with rd, rt, shamt := BitVec.ofInt 5 n } else .error .outOfRange
  | .shiftVar, [.reg rd, .reg rt, .reg rs] => .ok { noFields with rd, rt, rs }
  | .jalrPair, [.reg rd, .reg rs] => .ok { noFields with rd, rs }
  | .jalrPair, [.reg rs] => .ok { noFields with rd := 31, rs }
  | .none, [] => .ok noFields
  | .immTriple, [.reg rt, .reg rs, v] => (immField resolve st.op v).map fun imm => { noFields with rt, rs, imm }
  | .immPair, [.reg rt, v] => (immField resolve st.op v).map fun imm => { noFields with rt, imm }
  | .mem, [.reg rt, .mem d rs] => (signedField d).map fun imm => { noFields with rt, imm, rs }
  | .branch2, [.reg rs, .reg rt, t] => (branchOperand resolve a t).map fun imm => { noFields with rs, rt, imm }
  | .branch1, [.reg rs, t] => (branchOperand resolve a t).map fun imm => { noFields with rs, imm }
  | .jump, [t] => (jumpOperand resolve t).map fun address => { noFields with address }
  | l, args => .error (operandError l args)

/-- The word of a statement at address `a` (30_encoding.md R87). -/
def encodeStmt (resolve : Text → Option Word) (a : Word) (st : Stmt) : Except ErrorKind Word :=
  (operandFields resolve a st).map st.op.row.assemble

/-- The words of consecutive statements from address `a` on. -/
def encodeStmts (resolve : Text → Option Word) (a : Word) : List Stmt → Except ErrorKind (List Word)
  | [] => .ok []
  | st :: sts =>
    match encodeStmt resolve a st, encodeStmts resolve (a + 4) sts with
    | .ok w, .ok ws => .ok (w :: ws)
    | .error e, _ => .error e
    | .ok _, .error e => .error e

end Sys2Proof.Asm
end

