-- ==== Sys2Proof/Machine/Assembler.lean ====
section
/-!
DEFINITION. The two passes of the off-line assembler (50_assembler.md R200, R210 to R224, R240 to R245).
-/

-- One elaboration thread: each thread's stack counts against the check's memory limit.
set_option Elab.async false

namespace Sys2Proof.Asm

open Sys2Proof.Machine

/-- A source file (50_assembler.md R200). -/
structure SourceFile where
  id : Nat
  name : Text
  content : Text
deriving DecidableEq, Repr

/-- An `AssembleError` with its source line (50_assembler.md R241). -/
structure AsmError where
  fileId : Nat
  line : Nat
  kind : ErrorKind
  /-- The offending token of an InvalidOperand error (30_encoding.md R88, 50_assembler.md R203). -/
  token : Option Text
deriving DecidableEq, Repr

/-- The error at a line. -/
def errorAt (cfg : Settings) (fileId : Nat) (l : ParsedLine) (k : ErrorKind) : AsmError where
  fileId := fileId
  line := l.line
  kind := k
  token :=
    match k, l.body with
    | .invalidOperand, some (head, args) => offendingToken cfg head args
    | _, _ => none

/-! ### Segments and directives (50_assembler.md R210 to R218) -/

/-- The two segments. -/
inductive Segment where
  | text
  | data
deriving DecidableEq, Repr

/-- The active segment and the address cursor of each (50_assembler.md R210). -/
structure Cursors where
  active : Segment
  text : Word
  data : Word
deriving DecidableEq, Repr

/-- The active segment's cursor. -/
def Cursors.current (c : Cursors) : Word :=
  match c.active with
  | .text => c.text
  | .data => c.data

/-- The active segment's cursor moved. -/
def Cursors.moveTo (c : Cursors) (a : Word) : Cursors :=
  match c.active with
  | .text => { c with text := a }
  | .data => { c with data := a }

/-- The active segment's cursor advanced by a number of bytes, modulo 2^32. -/
def Cursors.advance (c : Cursors) (n : Nat) : Cursors := c.moveTo (c.current + BitVec.ofNat 32 n)

/-- What a directive does. -/
inductive DirectiveAction where
  | segment (s : Segment)
  | emit (bytes : List Byte)
  | skip (n : Nat)
  | align (n : Nat)
  | globl (name : Text)
deriving DecidableEq, Repr

/-- The two bytes of a `.half` value (50_assembler.md R213). -/
def halfBytes (e : Endian) (h : BitVec 16) : List Byte :=
  match e with
  | .big => [h.extractLsb' 8 8, h.extractLsb' 0 8]
  | .little => [h.extractLsb' 0 8, h.extractLsb' 8 8]

/-- The literals of a data directive, each in `lo .. hi`; at least one (log 9). -/
def literalsIn (lo hi : Int) : List Text → Option (List Int)
  | [] => none
  | [t] => (parseLiteral t).bind fun v => if lo ≤ v ∧ v ≤ hi then some [v] else none
  | t :: ts =>
    match parseLiteral t, literalsIn lo hi ts with
    | some v, some vs => if lo ≤ v ∧ v ≤ hi then some (v :: vs) else none
    | _, _ => none

/-- What a directive does, from its operands (50_assembler.md R210 to R217); `none` is a malformed directive. -/
def directiveAction (e : Endian) (d : Directive) (args : List Text) : Option DirectiveAction :=
  match d, args with
  | .text, [] => some (.segment .text)
  | .data, [] => some (.segment .data)
  | .word, vs =>
    (literalsIn (-2 ^ 31) (2 ^ 32 - 1) vs).map fun ns => .emit (ns.flatMap fun v => bytesOfWord e (BitVec.ofInt 32 v))
  | .byte, vs => (literalsIn (-128) 255 vs).map fun ns => .emit (ns.map fun v => BitVec.ofInt 8 v)
  | .half, vs => (literalsIn (-32768) 65535 vs).map fun ns => .emit (ns.flatMap fun v => halfBytes e (BitVec.ofInt 16 v))
  | .ascii, [t] => (parseString t).map .emit
  | .asciiz, [t] => (parseString t).map fun bs => .emit (bs ++ [0])
  | .space, [t] => (parseLiteral t).bind fun v => if 0 ≤ v then some (.skip v.toNat) else none
  | .align, [t] => (parseLiteral t).bind fun v => if 0 ≤ v ∧ v ≤ 31 then some (.align v.toNat) else none
  | .globl, [t] => if isLabelName t then some (.globl t) else none
  | _, _ => none

/-- The next multiple of `2^n` (50_assembler.md R216). -/
def alignUp (n : Nat) (a : Word) : Word := BitVec.ofNat 32 ((a.toNat + 2 ^ n - 1) / 2 ^ n * 2 ^ n)

/-- Where a directive leaves the cursors. -/
def DirectiveAction.cursors (d : DirectiveAction) (c : Cursors) : Cursors :=
  match d with
  | .segment s => { c with active := s }
  | .emit bs => c.advance bs.length
  | .skip n => c.advance n
  | .align n => c.moveTo (alignUp n c.current)
  | .globl _ => c

/-- A statement of a line: a directive's action or the real instructions (50_assembler.md R202, R210, R218). -/
inductive Body where
  | nothing
  | directive (d : DirectiveAction)
  | code (stmts : List Stmt)
deriving DecidableEq, Repr

/-- The statement of a line, in the active segment. -/
def bodyOf (cfg : Settings) (e : Endian) (active : Segment) : Option (Text × List Text) → Except ErrorKind Body
  | none => .ok .nothing
  | some (head, args) =>
    if head.head? = some '.' then
      match directiveOfName head with
      | none => .error .unknownSymbol
      | some d =>
        match directiveAction e d args with
        | some act => .ok (.directive act)
        | none => .error .malformedDirective
    else
      match active with
      | .data => .error .statementInData
      | .text => (expandStatement cfg head args).map .code

/-- Where a statement leaves the cursors (50_assembler.md R220). -/
def Body.cursors (b : Body) (c : Cursors) : Cursors :=
  match b with
  | .nothing => c
  | .directive d => d.cursors c
  | .code stmts => c.advance (4 * stmts.length)

/-! ### Label tables and pass 1 (50_assembler.md R220, R224) -/

/-- One file's labels. -/
abbrev LocalTable := List (Text × Word)

/-- The table all files share; `none` is a name declared and not yet defined. -/
abbrev GlobalTable := List (Text × Option Word)

/-- Pass 1's state inside a file. -/
structure PassOne where
  cursors : Cursors
  locals : LocalTable
  declared : List Text
  globals : GlobalTable
deriving DecidableEq, Repr

/-- A name enters the global table with its address; a second address is an error (50_assembler.md R224). -/
def GlobalTable.define (g : GlobalTable) (name : Text) (a : Word) : Except ErrorKind GlobalTable :=
  match g.lookup name with
  | some (some _) => .error .duplicateLabel
  | some none => .ok (g.map fun p => if p.1 = name then (name, some a) else p)
  | none => .ok (g ++ [(name, some a)])

/-- A label definition binds the active cursor (50_assembler.md R220, R224). -/
def PassOne.defineLabel (p : PassOne) (name : Text) : Except ErrorKind PassOne :=
  if ¬ isLabelName name then .error .badLabelName
  else
    match p.locals.lookup name with
    | some _ => .error .duplicateLabel
    | none =>
      let q := { p with locals := p.locals ++ [(name, p.cursors.current)] }
      if name ∈ p.declared then (GlobalTable.define p.globals name p.cursors.current).map fun g => { q with globals := g }
      else .ok q

/-- `.globl name` (50_assembler.md R217, R224); saying it twice in a file is once. -/
def PassOne.declareGlobal (p : PassOne) (name : Text) : Except ErrorKind PassOne :=
  if name ∈ p.declared then .ok p
  else
    let q := { p with declared := name :: p.declared }
    match p.locals.lookup name, p.globals.lookup name with
    | some a, _ => (GlobalTable.define p.globals name a).map fun g => { q with globals := g }
    | none, none => .ok { q with globals := p.globals ++ [(name, none)] }
    | none, some _ => .ok q

/-- The label definitions of a line. -/
def PassOne.defineLabels (p : PassOne) : List Text → Except ErrorKind PassOne
  | [] => .ok p
  | name :: names => (p.defineLabel name).bind fun q => q.defineLabels names

/-- Pass 1 on one line (50_assembler.md R220). -/
def PassOne.line (cfg : Settings) (e : Endian) (p : PassOne) (l : ParsedLine) : Except ErrorKind PassOne :=
  (p.defineLabels l.labels).bind fun q =>
    (bodyOf cfg e q.cursors.active l.body).bind fun b =>
      let r := { q with cursors := b.cursors q.cursors }
      match b with
      | .directive (.globl name) => r.declareGlobal name
      | _ => .ok r

/-- Pass 1 on the lines of a file. -/
def PassOne.lines (cfg : Settings) (e : Endian) (fileId : Nat) (p : PassOne) : List ParsedLine → Except AsmError PassOne
  | [] => .ok p
  | l :: ls =>
    match p.line cfg e l with
    | .ok q => q.lines cfg e fileId ls
    | .error k => .error (errorAt cfg fileId l k)

/-- What pass 1 leaves: per file its labels and its first text address, and the global table. -/
structure Tables where
  locals : List LocalTable
  starts : List (Nat × Word)
  globals : GlobalTable
deriving DecidableEq, Repr

/-- The state a file starts with: the cursors go on, the active segment is text again (50_assembler.md R240). -/
def Cursors.nextFile (c : Cursors) : Cursors := { c with active := .text }

/-- The cursors before the first file (50_assembler.md R210). -/
def Cursors.initial (cfg : Settings) : Cursors := ⟨.text, cfg.textBase, cfg.dataBase⟩

/-- Pass 1 over all files in order (50_assembler.md R220, R240). -/
def passOne (cfg : Settings) (e : Endian) (c : Cursors) (g : GlobalTable) : List SourceFile → Except AsmError Tables
  | [] => .ok ⟨[], [], g⟩
  | f :: fs =>
    match PassOne.lines cfg e f.id ⟨c.nextFile, [], [], g⟩ (parseContent f.content) with
    | .error err => .error err
    | .ok p =>
      match passOne cfg e p.cursors p.globals fs with
      | .error err => .error err
      | .ok t => .ok ⟨p.locals :: t.locals, (f.id, c.text) :: t.starts, t.globals⟩

/-- A reference is looked up in the file's own table, then in the global one (50_assembler.md R224). -/
def resolveLabel (locals : LocalTable) (globals : GlobalTable) (name : Text) : Option Word :=
  match locals.lookup name with
  | some a => some a
  | none => (globals.lookup name).join

/-! ### Pass 2 (50_assembler.md R222) -/

/-- An AssembledLine (50_assembler.md R243). -/
structure AssembledLine where
  fileId : Nat
  line : Nat
  source : Text
  word : Word
  address : Word
deriving DecidableEq, Repr

/-- Pass 2's state: what the lines before an error wrote stays written (50_assembler.md R242). -/
structure PassTwo where
  cursors : Cursors
  mem : Memory
  listing : List AssembledLine
deriving DecidableEq, Repr

/-- The listing of a statement's words (50_assembler.md R243). -/
def listingOf (fileId : Nat) (l : ParsedLine) (a : Word) : List Word → List AssembledLine
  | [] => []
  | w :: ws => ⟨fileId, l.line, l.source, w, a⟩ :: listingOf fileId l (a + 4) ws

/-- Pass 2 on one line: data bytes and instruction words are written in the byte order of the run (50_assembler.md
R213, R222).

A line that fails writes and lists nothing, also where some of its words or data values came before the error, such as
the `slt` of a `blt` whose target is out of range. R242 keeps the effects of "prior lines" and 60_exceptions.md R274
calls memory "unreliable"; neither says what the failing line itself wrote, so this is the model's choice (log 18,
DESIGN CHOICE). -/
def PassTwo.line (cfg : Settings) (e : Endian) (resolve : Text → Option Word) (fileId : Nat) (p : PassTwo)
    (l : ParsedLine) : Except ErrorKind PassTwo :=
  (bodyOf cfg e p.cursors.active l.body).bind fun b =>
    let a := p.cursors.current
    let q := { p with cursors := b.cursors p.cursors }
    match b with
    | .directive (.emit bs) => .ok { q with mem := p.mem.writeBytes a bs }
    | .code stmts =>
      (encodeStmts resolve a stmts).map fun ws =>
        { q with
          mem := p.mem.writeBytes a (ws.flatMap (bytesOfWord e))
          listing := p.listing ++ listingOf fileId l a ws }
    | _ => .ok q

/-- Pass 2 on the lines of a file, up to the first error: the lines before it keep their effects (50_assembler.md R242),
the failing line has none (log 18, DESIGN CHOICE). -/
def PassTwo.lines (cfg : Settings) (e : Endian) (resolve : Text → Option Word) (fileId : Nat) (p : PassTwo) :
    List ParsedLine → PassTwo × Option AsmError
  | [] => (p, none)
  | l :: ls =>
    match p.line cfg e resolve fileId l with
    | .ok q => q.lines cfg e resolve fileId ls
    | .error k => (p, some (errorAt cfg fileId l k))

/-- Pass 2 over all files in order, each with its own label table (50_assembler.md R222, R240). -/
def passTwo (cfg : Settings) (e : Endian) (g : GlobalTable) (p : PassTwo) :
    List (SourceFile × LocalTable) → PassTwo × Option AsmError
  | [] => (p, none)
  | (f, locals) :: fs =>
    match PassTwo.lines cfg e (resolveLabel locals g) f.id { p with cursors := p.cursors.nextFile }
      (parseContent f.content) with
    | (q, none) => passTwo cfg e g q fs
    | (q, some err) => (q, some err)

/-! ### Assembling (50_assembler.md R200, R245) -/

/-- `ENTRY_PC` (50_assembler.md R245). -/
def entryPc (cfg : Settings) (t : Tables) : Word :=
  match cfg.entry with
  | .textStart => cfg.textBase
  | .mainLabel =>
    match ((t.globals.lookup "main".toList).join).or (t.locals.findSome? fun l => l.lookup "main".toList) with
    | some a => a
    | none => cfg.textBase
  | .fileStart fileId => (t.starts.lookup fileId).getD cfg.textBase

/-- What assembling gives: the image as a memory, `ENTRY_PC`, the tables, the listing, and the error if there is one
(50_assembler.md R200, R241, R242). -/
structure AsmResult where
  mem : Memory
  entry : Word
  tables : Tables
  listing : List AssembledLine
  error : Option AsmError
deriving DecidableEq, Repr

/-- The off-line pass, from a freshly reset memory (50_assembler.md R200, R240). An error in pass 1, which writes nothing,
leaves that memory (log 18, DESIGN CHOICE). -/
def assemble (cfg : Settings) (e : Endian) (files : List SourceFile) : AsmResult :=
  match passOne cfg e (.initial cfg) [] files with
  | .error err => ⟨[], cfg.textBase, ⟨[], [], []⟩, [], some err⟩
  | .ok t =>
    let r := passTwo cfg e t.globals ⟨.initial cfg, [], []⟩ (files.zip t.locals)
    ⟨r.1.mem, entryPc cfg t, t, r.1.listing, r.2⟩

/-- The editor position of each instruction address (50_assembler.md R244), the last one assembled first. So where two
instructions are assembled at one address, the cursor having wrapped, a lookup answers the later line, whose word memory
holds: the model's choice (log 9, DESIGN CHOICE). -/
def AsmResult.lineMap (r : AsmResult) : List (Word × Nat × Nat) :=
  (r.listing.map fun l => (l.address, l.fileId, l.line)).reverse

end Sys2Proof.Asm
end

