-- ==== Sys2Proof/Machine/Disassembly.lean ====
section
/-!
DEFINITION. The text of an instruction: the source's `basicText`, "the instruction re-printed with numeric operands"
(30_encoding.md R87), which an AssembledLine carries "for diagnostics" (50_assembler.md R243). The spec gives the
operand order (R86) and not the spelling of a number; the spelling here is one the assembler reads back (log 10).
-/

-- One elaboration thread: each thread's stack counts against the check's memory limit.
set_option Elab.async false

namespace Sys2Proof.Asm

open Sys2Proof.Machine

/-- A number in decimal. -/
def numberText (v : Int) : Text := (decimalText v).map fun b => Char.ofNat b.toNat

/-- A register by its number (50_assembler.md R203). -/
def regText (r : Reg) : Text := '$' :: numberText r.val

/-- A mnemonic and its operands. -/
def statementText (name : String) (operands : List Text) : Text :=
  name.toList ++ (if operands = [] then [] else ' ' :: (", ".toList).intercalate operands)

/-- The operands of an instruction in the order of its layout (30_encoding.md R86), each as the number 50_assembler.md
R204 accepts for it: a signed or an unsigned immediate, a word offset, a byte address. -/
def operandTexts (o : Op) (f : Fields) : List Text :=
  let signed := numberText f.imm.toInt
  match o.row.layout with
  | .triple => [regText f.rd, regText f.rs, regText f.rt]
  | .double => [regText f.rs, regText f.rt]
  | .single => [regText f.rd]
  | .singleRs => [regText f.rs]
  | .shiftTriple => [regText f.rd, regText f.rt, numberText f.shamt.toNat]
  | .shiftVar => [regText f.rd, regText f.rt, regText f.rs]
  | .jalrPair => [regText f.rd, regText f.rs]
  | .none => []
  | .immTriple => [regText f.rt, regText f.rs, if immIsSigned o then signed else numberText f.imm.toNat]
  | .immPair => [regText f.rt, numberText f.imm.toNat]
  | .mem => [regText f.rt, signed ++ ['('] ++ regText f.rs ++ [')']]
  | .branch2 => [regText f.rs, regText f.rt, signed]
  | .branch1 => [regText f.rs, signed]
  | .jump => [numberText (4 * f.address.toNat)]

/-- `basicText` of an instruction. -/
def basicText (i : Instr) : Text := statementText (opName i.op) (operandTexts i.op i.fields)

/-- The text of a word; `none` where it is no instruction. -/
def disassemble (w : Word) : Option Text :=
  match decode w with
  | .instr i => some (basicText i)
  | .invalid _ => none

/-- The disassembly text of an AssembledLine (50_assembler.md R243). -/
def AssembledLine.disassembly (l : AssembledLine) : Option Text := disassemble l.word

end Sys2Proof.Asm
end

