-- ==== Sys2Proof/Machine/HostSide.lean ====
section
/-!
DEFINITION. What the host does to the core (60_exceptions.md R270 to R279, 45_system.md R192, 70_reset_and_hazards.md
R290 to R292). The host acts between steps, so each action is a function of the state.
-/

-- One elaboration thread: each thread's stack counts against the check's memory limit.
set_option Elab.async false

namespace Sys2Proof.Machine

/-! ### Reset and image load -/

/-- `stop()` and `reset()` (60_exceptions.md R279, 70_reset_and_hazards.md R290): the core, memory, console and
address tracking at their initial state, a new generation (R278), a pending call discarded, the lifecycle back to
`edit` (R292). The parameters of the run stay. -/
def hostReset (s : State) : State :=
  State.resetWith s.params (.initial (s.host.generation + 1) s.host.calls)

/-- The image is loaded over a freshly reset memory and `pc` takes `ENTRY_PC`; the lifecycle goes to `execute`
(70_reset_and_hazards.md R291, R292). -/
def loadImage (image : Memory) (entry : Word) (lineMap : List (Word × Nat × Nat)) (s : State) : State :=
  { s with
    params := { s.params with entryPc := entry }
    pc := entry
    mem := image
    host := { s.host with mode := .execute, lineMap := lineMap } }

/-- `assemble(sourceFiles)` (60_exceptions.md R274): stop, the off-line pass, and on success the image loaded. On
failure the lifecycle stays in `edit`, what earlier lines wrote to memory stays (50_assembler.md R242), and the error
becomes a console line (60_exceptions.md R281). That the failing line itself wrote nothing is the model's choice (log 18,
DESIGN CHOICE). -/
def hostAssemble (cfg : Asm.Settings) (files : List Asm.SourceFile) (s : State) : State :=
  let r := Asm.assemble cfg s.params.endian files
  match r.error with
  | none => loadImage r.mem r.entry r.lineMap (hostReset s)
  | some e => { hostReset s with mem := r.mem }.appendLine ⟨.error, .assembleError e.fileId e.line e.token⟩

/-! ### Stepping and running -/

/-- `pause()`: "clears the running flag without touching CPU state" (60_exceptions.md R277). -/
def hostPause (s : State) : State :=
  { s with host := { s.host with running := false } }

/-- The host's `step()` (60_exceptions.md R273): issued in `execute` only (R270); one step of the core, and a trap
"pauses execution" (10_state.md R24); "else is a no-op that also stops `running`". The core's step always answers a
next state, so the last two arms of the inner match are never taken. -/
def hostStep (s : State) : State :=
  match s.host.mode, s.status with
  | .edit, _ => s
  | .execute, .running =>
    match step s with
    | .next t => if t.status = .faulted then hostPause t else t
    | .fault _ => s
    | .refused _ => s
  | .execute, .halted => hostPause s
  | .execute, .suspended => hostPause s
  | .execute, .faulted => hostPause s

/-- The loop of `run()` (60_exceptions.md R275) for at most `fuel` steps: the flag and the status are looked at before
every step. A suspended core is waited for and not stepped (45_system.md R192). -/
def runLoop : Nat → State → State
  | 0, s => s
  | fuel + 1, s =>
    match s.host.running, s.status with
    | false, _ => s
    | true, .running => runLoop fuel (hostStep s)
    | true, .suspended => s
    | true, .halted => hostPause s
    | true, .faulted => hostPause s

/-- `run()` (60_exceptions.md R275): issued in `execute` only (R270). -/
def hostRun (fuel : Nat) (s : State) : State :=
  match s.host.mode with
  | .edit => s
  | .execute => runLoop fuel { s with host := { s.host with running := true } }

/-! ### Completing a blocked call -/

/-- The call is complete: no call pending and the console ready (60_exceptions.md R272). -/
def State.clearPending (s : State) : State :=
  { s with host := { s.host with pending := none, consoleState := .ready } }

/-- `resume(input, token)` (45_system.md R192): a stale token changes nothing (60_exceptions.md R278); an input the
service rejects leaves an error line and the core suspended; else the writes commit, `pc` advances and the core runs
again. The service may append console lines either way (45_system.md R191). That the console is ready again then is the
model's choice (log 6). -/
def hostResume (input : List Char) (token : Nat) (s : State) : State :=
  if token ≠ s.host.generation then s
  else
    match s.status, s.host.pending with
    | .suspended, some call =>
      let r := serviceReply call.service s input
      let t := s.countCall.appendLines r.lines
      match r.writes with
      | none => t.appendLine ⟨.error, .inputError⟩
      | some w => { ((t.commit w).advance.clearPending) with status := .running }
    | _, _ => s

/-- `setInput(text)`: "resolves a pending blocking read" (60_exceptions.md R272) with the token the call captured. -/
def hostSetInput (input : List Char) (s : State) : State :=
  match s.host.pending with
  | some call => hostResume input call.token s
  | none => s

/-! ### What the host reads -/

/-- One entry of the register snapshot: name, number if it has one, value (10_state.md R31). -/
structure RegisterEntry where
  name : String
  number : Option Nat
  value : Word
deriving DecidableEq, Repr

/-- The register snapshot: the 32 general registers in number order, then `pc`, `hi`, `lo` (10_state.md R31). -/
def registerSnapshot (s : State) : List RegisterEntry :=
  (List.finRange 32).map (fun r => ⟨"$" ++ Asm.regNames.getD r.val "", some r.val, s.x r⟩)
    ++ [⟨"pc", none, s.pc⟩, ⟨"hi", none, s.hi⟩, ⟨"lo", none, s.lo⟩]

/-- The memory snapshot, addresses ascending (20_memory.md R57). Bytes that hold 0x00 are not listed, which no rule of
the core can tell from never written (R41). -/
def memorySnapshot (s : State) : List Host.Cell := s.mem

/-- The current-line position (50_assembler.md R244): undefined when the core is not running or nothing is assembled.
Where two lines were assembled at one address it is the later one, the model's choice (log 9; `AsmResult.lineMap`). -/
def currentLine (s : State) : Option (Nat × Nat) :=
  match s.host.mode, s.status with
  | .execute, .running => s.host.lineMap.lookup s.pc
  | _, _ => none

end Sys2Proof.Machine
end

