-- ==== Sys2Proof/Safety.lean ====
section
/-!
DEFINITION. The terms claims are stated in: what a step changes and what it leaves alone, the invariant of the
machine, and how a run ends.
-/

-- One elaboration thread: each thread's stack counts against the check's memory limit.
set_option Elab.async false

namespace Sys2Proof.Machine

/-! ### What stays the same -/

/-- The status, the cause, the parameters and the host's side are as before. -/
structure SameControl (s t : State) : Prop where
  params : t.params = s.params
  status : t.status = s.status
  cause : t.cause = s.cause
  causeInfo : t.causeInfo = s.causeInfo
  host : t.host = s.host

/-- Every byte of memory reads as before. -/
def SameMemory (s t : State) : Prop := ∀ a : Word, t.memRead1 a = s.memRead1 a

/-- Every general register reads as before. -/
def SameRegs (s t : State) : Prop := ∀ r : Reg, t.x r = s.x r

/-- `hi` and `lo` are as before. -/
def SameHiLo (s t : State) : Prop := t.hi = s.hi ∧ t.lo = s.lo

/-- The register file after `x[rd] <- v`: register 0 still reads 0, every other register but `rd` reads as before
(10_state.md R12). -/
def RegsAfterWrite (s t : State) (rd : Reg) (v : Word) : Prop :=
  ∀ r : Reg, t.x r = if r = 0 then 0 else if r = rd then v else s.x r

/-! ### The effects of instructions -/

/-- `x[rd] <- v ; pc <- pc + 4` and nothing else. -/
structure WritesReg (s t : State) (rd : Reg) (v : Word) : Prop where
  regs : RegsAfterWrite s t rd v
  hiLo : SameHiLo s t
  pc : t.pc = s.pc + 4
  memory : SameMemory s t
  control : SameControl s t

/-- `hi <- hi' ; lo <- lo' ; pc <- pc + 4` and nothing else. -/
structure WritesHiLo (s t : State) (hi lo : Word) : Prop where
  regs : SameRegs s t
  hi : t.hi = hi
  lo : t.lo = lo
  pc : t.pc = s.pc + 4
  memory : SameMemory s t
  control : SameControl s t

/-- `pc <- target` and nothing else. -/
structure Jumps (s t : State) (target : Word) : Prop where
  regs : SameRegs s t
  hiLo : SameHiLo s t
  pc : t.pc = target
  memory : SameMemory s t
  control : SameControl s t

/-- `x[rd] <- v ; pc <- target` and nothing else. -/
structure JumpsAndLinks (s t : State) (rd : Reg) (v target : Word) : Prop where
  regs : RegsAfterWrite s t rd v
  hiLo : SameHiLo s t
  pc : t.pc = target
  memory : SameMemory s t
  control : SameControl s t

/-- A store's effect but for the bytes themselves: `pc <- pc + 4`, and every byte outside the `n` bytes that start at
`ea` (addresses modulo 2^32) reads as before. -/
structure StoresAt (s t : State) (ea : Word) (n : Nat) : Prop where
  regs : SameRegs s t
  hiLo : SameHiLo s t
  pc : t.pc = s.pc + 4
  memory : ∀ a : Word, (∀ k : Nat, k < n → a ≠ ea + BitVec.ofNat 32 k) → t.memRead1 a = s.memRead1 a
  control : SameControl s t

/-- A trap (60_exceptions.md R264): only `status`, `cause`, `cause_info` and the console change (R281), the console by
one error line (R272). -/
structure Traps (s t : State) (c : Cause) (info : Word) : Prop where
  regs : SameRegs s t
  hiLo : SameHiLo s t
  pc : t.pc = s.pc
  memory : SameMemory s t
  params : t.params = s.params
  status : t.status = .faulted
  cause : t.cause = c
  causeInfo : t.causeInfo = info
  host : t.host = { s.host with console := s.host.console ++ [⟨.error, .trap c info⟩] }

/-- A halt (60_exceptions.md R266): only `status` changes. -/
structure Halts (s t : State) : Prop where
  regs : SameRegs s t
  hiLo : SameHiLo s t
  pc : t.pc = s.pc
  memory : SameMemory s t
  params : t.params = s.params
  status : t.status = .halted
  cause : t.cause = s.cause
  causeInfo : t.causeInfo = s.causeInfo
  host : t.host = s.host

/-! ### What a host service's writes leave (45_system.md R191) -/

/-- The last value a list of writes gives a place, if it writes it at all. -/
def lastWrite {α β : Type} [BEq α] (l : List (α × β)) (k : α) : Option β := l.reverse.lookup k

/-- The writes of a service commit and nothing else of the registers and the memory changes: registers 1 to 31, `hi`,
`lo` and each byte hold the last value written, or what they held; register 0 reads 0. -/
structure Commits (s t : State) (w : ServiceWrites) : Prop where
  regs : ∀ r : Reg, t.x r = if r = 0 then 0 else (lastWrite w.regs r).getD (s.x r)
  hi : t.hi = w.hi.getD s.hi
  lo : t.lo = w.lo.getD s.lo
  memory : ∀ a : Word, t.memRead1 a = (lastWrite w.mem a).getD (s.memRead1 a)

/-- The lines of an answer as console lines. -/
def consoleLines (ls : List (LineKind × List Byte)) : List ConsoleLine := ls.map fun l => ⟨l.1, .chars l.2⟩

/-! ### Which register an instruction writes (10_state.md R14) -/

/-- The general register an instruction's rule writes; `syscall` writes none itself, its service may write any
(45_system.md R191). -/
def destination : Instr → Option Reg
  | .add rd _ _ => some rd
  | .addu rd _ _ => some rd
  | .sub rd _ _ => some rd
  | .subu rd _ _ => some rd
  | .addi rt _ _ => some rt
  | .addiu rt _ _ => some rt
  | .slt rd _ _ => some rd
  | .sltu rd _ _ => some rd
  | .slti rt _ _ => some rt
  | .sltiu rt _ _ => some rt
  | .and rd _ _ => some rd
  | .or rd _ _ => some rd
  | .xor rd _ _ => some rd
  | .nor rd _ _ => some rd
  | .andi rt _ _ => some rt
  | .ori rt _ _ => some rt
  | .xori rt _ _ => some rt
  | .lui rt _ => some rt
  | .sll rd _ _ => some rd
  | .srl rd _ _ => some rd
  | .sra rd _ _ => some rd
  | .sllv rd _ _ => some rd
  | .srlv rd _ _ => some rd
  | .srav rd _ _ => some rd
  | .mult _ _ => none
  | .multu _ _ => none
  | .div _ _ => none
  | .divu _ _ => none
  | .mfhi rd => some rd
  | .mflo rd => some rd
  | .mthi _ => none
  | .mtlo _ => none
  | .lb rt _ _ => some rt
  | .lbu rt _ _ => some rt
  | .lw rt _ _ => some rt
  | .sb _ _ _ => none
  | .sw _ _ _ => none
  | .beq _ _ _ => none
  | .bne _ _ _ => none
  | .blez _ _ => none
  | .bgtz _ _ => none
  | .j _ => none
  | .jal _ => some 31
  | .jr _ => none
  | .jalr rd _ => some rd
  | .syscall => none

/-- A mathematical result is outside the signed 32-bit range (40_arithmetic.md R100). -/
def outsideSignedRange (r : Int) : Prop := r < -2 ^ 31 ∨ r > 2 ^ 31 - 1

/-- The instruction traps on signed overflow and its mathematical result is out of range (40_arithmetic.md R101, R103,
R105). -/
def resultOutOfRange (i : Instr) (s : State) : Prop :=
  match i with
  | .add _ rs rt => outsideSignedRange ((s.x rs).toInt + (s.x rt).toInt)
  | .sub _ rs rt => outsideSignedRange ((s.x rs).toInt - (s.x rt).toInt)
  | .addi _ rs imm => outsideSignedRange ((s.x rs).toInt + imm.toInt)
  | _ => False

/-- The instruction may write `hi` or `lo` (10_state.md R14): `mult`, `multu`, `div`, `divu`, `mthi`, `mtlo`; the
service of a `syscall` may too (45_system.md R191). -/
def mayWriteHiLo (i : Instr) : Bool :=
  i.op ∈ [Op.mult, .multu, .div, .divu, .mthi, .mtlo, .syscall]

/-- The instruction may write memory (43_load_store.md R166): `sb` and `sw`; the service of a `syscall` may too. -/
def mayWriteMemory (i : Instr) : Bool :=
  i.op ∈ [Op.sb, .sw, .syscall]

/-! ### Consecutive instructions -/

/-- Executing instruction words one after another, the first at the state's `pc`; `none` where a word is no
instruction. -/
def execWords : List Word → State → Option State
  | [], s => some s
  | w :: ws, s =>
    match decode w with
    | .invalid _ => none
    | .instr i =>
      match exec i s with
      | .next t => execWords ws t
      | .fault _ => none
      | .refused _ => none

/-- The host's `step()` issued `k` times. -/
def hostSteps : Nat → State → State
  | 0, s => s
  | k + 1, s => hostSteps k (hostStep s)

/-! ### The invariant -/

/-- What holds of every state the machine and the host can bring about: the memory is canonical, register 0's slot
holds 0, `cause` is set exactly in `Faulted` (10_state.md R25), `cause_info` is 0 unless `cause` is
SyscallNotImplemented (R25), a call is pending exactly in `Suspended` (45_system.md R190, R192), it holds the
present generation (60_exceptions.md R278), and the console waits exactly for it: the last clause rests on the model's
choices that the console is `ready` at reset (log 3), that every service that blocks puts it in `waitingInput`, where R272
speaks of "a blocking read", and that a completed call makes it `ready` again (log 6). -/
structure State.Inv (s : State) : Prop where
  memory : Memory.wf s.mem
  zero : s.regs[0] = 0
  faulted : s.status = .faulted ↔ s.cause ≠ .none
  causeInfo : s.cause ≠ .syscallNotImplemented → s.causeInfo = 0
  suspended : s.status = .suspended ↔ s.host.pending ≠ none
  token : ∀ c, s.host.pending = some c → c.token = s.host.generation
  waiting : s.host.consoleState = .waitingInput ↔ s.host.pending ≠ none

/-! ### How a run ends (70_reset_and_hazards.md R294) -/

/-- The run has ended well. -/
def endsWell (s : State) : Prop := s.status = .halted

/-- The run has ended badly. -/
def endsBadly (s : State) : Prop := s.status = .faulted

/-- A safe run: none of its first `n` steps brings the core to a bad end. -/
def safeFor : Nat → State → Prop
  | 0, s => ¬ endsBadly s
  | n + 1, s => ¬ endsBadly s ∧ ∀ t, step s = .next t → safeFor n t

end Sys2Proof.Machine
end

