-- ==== Sys2Proof/Certificates/Slice0/Obligations.lean ====
section
/-!
DEFINITION. The statements for the provers. Each docstring names the rules of spec/ the statement formalises, or says
that it is the model's own.
-/

-- One elaboration thread: each thread's stack counts against the check's memory limit.
set_option Elab.async false

open Sys2Proof Sys2Proof.Machine Sys2Proof.Asm

/-! ### Encoding and decoding (30_encoding.md) -/

/-- 30_encoding.md R71, R72, R73: where each format puts its fields, as numbers. -/
def Obligations.FormatsPlaceTheirFields : Prop :=
  (∀ (fn : BitVec 6) (rs rt rd : Reg) (sh : BitVec 5),
    (wordR fn rs rt rd sh).toNat
      = 0 * 2 ^ 26 + rs.val * 2 ^ 21 + rt.val * 2 ^ 16 + rd.val * 2 ^ 11 + sh.toNat * 2 ^ 6 + fn.toNat) ∧
  (∀ (op : BitVec 6) (rs rt : Reg) (imm : BitVec 16),
    (wordI op rs rt imm).toNat = op.toNat * 2 ^ 26 + rs.val * 2 ^ 21 + rt.val * 2 ^ 16 + imm.toNat) ∧
  (∀ (op : BitVec 6) (address : BitVec 26), (wordJ op address).toNat = op.toNat * 2 ^ 26 + address.toNat)

/-- 30_encoding.md R74: the eight slices of a word, as numbers. -/
def Obligations.DecoderSlicesEveryField : Prop :=
  ∀ w : Word,
    (opcodeOf w).toNat = w.toNat / 2 ^ 26 ∧ (rsOf w).val = w.toNat / 2 ^ 21 % 2 ^ 5 ∧
    (rtOf w).val = w.toNat / 2 ^ 16 % 2 ^ 5 ∧ (rdOf w).val = w.toNat / 2 ^ 11 % 2 ^ 5 ∧
    (shamtOf w).toNat = w.toNat / 2 ^ 6 % 2 ^ 5 ∧ (functOf w).toNat = w.toNat % 2 ^ 6 ∧
    (immOf w).toNat = w.toNat % 2 ^ 16 ∧ (addressOf w).toNat = w.toNat % 2 ^ 26

/-- 30_encoding.md R89: decoding an instruction's word gives the instruction back, operand for operand, and the one
exception is `sll $zero, $zero, 0`, whose word is the zero word. -/
def Obligations.DecodingAnEncodedInstructionGivesItBack : Prop :=
  (∀ i : Instr, i.wf = true → decode (encode i) = .instr i) ∧
  (encode (.sll 0 0 0) = 0 ∧ decode (encode (.sll 0 0 0)) = .invalid .zeroWord) ∧
  (∀ i : Instr, i.wf = false ↔ i = .sll 0 0 0)

/-- 30_encoding.md R85: changing the fields an instruction does not use changes nothing the decoder answers, unless
the result is the zero word (R83), and the encoder writes zero into them. -/
def Obligations.UnusedFieldsAreIgnored : Prop :=
  (∀ (w w' : Word) (i : Instr), decode w = .instr i → w' ≠ 0 →
    w' &&& ~~~i.op.ignoredMask = w &&& ~~~i.op.ignoredMask → decode w' = .instr i) ∧
  (∀ i : Instr, encode i &&& i.op.ignoredMask = 0)

/-- The unused primary opcodes of 30_encoding.md R81. -/
def unusedOpcodes : List Nat :=
  [0x01] ++ List.range' 0x10 16 ++ [0x21, 0x22, 0x25, 0x26, 0x27, 0x29, 0x2A] ++ List.range' 0x2C 20

/-- The unused `funct` values of 30_encoding.md R81. -/
def unusedFuncts : List Nat :=
  [0x01, 0x05, 0x0A, 0x0B, 0x0D, 0x0E, 0x0F] ++ List.range' 0x14 4 ++ List.range' 0x1C 4 ++ [0x28, 0x29]
    ++ List.range' 0x2C 20

/-- 30_encoding.md R81, R82, R83: the words that are no instruction are the zero word, the 44 unused opcodes and the
37 unused `funct` values, and no others. -/
def Obligations.ExactlyTheUnusedWordsAreInvalid : Prop :=
  unusedOpcodes.length = 44 ∧ unusedFuncts.length = 37 ∧
  ∀ w : Word, (∃ why, decode w = .invalid why) ↔
    (w = 0 ∨ (opcodeOf w).toNat ∈ unusedOpcodes ∨ (opcodeOf w = 0 ∧ (functOf w).toNat ∈ unusedFuncts))

/-- 30_encoding.md R82: "No two rows match the same word", and the table has 46 rows. -/
def Obligations.NoTwoRowsMatchTheSameWord : Prop :=
  Op.all.length = 46 ∧
  ∀ (o o' : Op) (opcode funct : BitVec 6),
    o.row.matchesKey opcode funct = true → o'.row.matchesKey opcode funct = true → o = o'

/-- Words written out from the encodings of 30_encoding.md R71 to R73 and R80, field by field, decode to the
instructions they stand for. -/
def Obligations.SampleWordsDecode : Prop :=
  decode 0b000000_01001_01010_01000_00000_100000 = .instr (.add 8 9 10) ∧
  decode 0b000000_00000_01001_01000_00100_000011 = .instr (.sra 8 9 4) ∧
  decode 0b000000_01001_01010_00000_00000_011000 = .instr (.mult 9 10) ∧
  decode 0b101011_11101_01000_1111111111111100 = .instr (.sw 8 0xFFFC 29) ∧
  decode 0b000100_01000_01001_0000000000000011 = .instr (.beq 8 9 3) ∧
  decode 0b000011_00000100000000000001000000 = .instr (.jal 0x0100040) ∧
  decode 0b000000_00000_00000_00000_00000_001100 = .instr .syscall ∧
  decode 0 = .invalid .zeroWord

/-! ### The step (10_state.md R30) -/

/-- 10_state.md R30: when the four bytes at `pc` decode to an instruction, the step of a running core is that
instruction executed in that state, with nothing around it. -/
def Obligations.StepExecutesTheDecodedInstruction : Prop :=
  ∀ (s : State) (i : Instr), s.status = .running →
    (decodeBytes s.params.endian
      [s.memRead1 s.pc, s.memRead1 (s.pc + 1), s.memRead1 (s.pc + 2), s.memRead1 (s.pc + 3)]).1 = .instr i →
    step s = exec i s

/-- 60_exceptions.md R266: a word that does not decode halts the core and changes nothing else, no console line either;
the host's exit service halts it the same way, after `pc` advanced. -/
def Obligations.InvalidWordHaltsAndChangesNothingElse : Prop :=
  (∀ (s : State) (why : DecodeError), s.status = .running → decode s.fetch = .invalid why →
    ∃ t, step s = .next t ∧ Halts s t) ∧
  ∀ (s : State) (svc : Service), s.status = .running → decode s.fetch = .instr .syscall →
    s.params.syscallTable.lookup (s.x 2) = some svc → (serviceAnswer svc s).outcome = .exit →
    ∃ t, step s = .next t ∧ t.status = .halted ∧ t.pc = s.pc + 4 ∧ t.cause = s.cause

/-- 10_state.md R24: a core that is Halted, Suspended or Faulted does nothing on `step`. -/
def Obligations.StoppedCoreDoesNothingOnStep : Prop :=
  ∀ s : State, s.status = .halted ∨ s.status = .suspended ∨ s.status = .faulted → step s = .next s

/-- 70_reset_and_hazards.md R303: the core is never stuck; every step of every state answers a next state. -/
def Obligations.EveryStepAnswersANextState : Prop :=
  ∀ s : State, ∃ t, step s = .next t

/-- The invariant of Safety.lean is kept by every step, from every state that has it. Its clause that the console waits
exactly when a call is pending rests on the model's choice that every service that blocks puts the console in
`waitingInput` (log 6; 60_exceptions.md R272 says it of "a blocking read"). -/
def Obligations.StepKeepsTheInvariant : Prop :=
  ∀ s t : State, s.Inv → step s = .next t → t.Inv

/-- The state after reset has the invariant, whatever the parameters. That the console is `ready` then, which the
invariant's last clause needs, is the model's choice (log 3). -/
def Obligations.ResetMeetsTheInvariant : Prop :=
  State.reset.Inv ∧ ∀ (p : Params) (generation calls : Nat), (State.resetWith p (.initial generation calls)).Inv

/-- Whatever the host does keeps the invariant (60_exceptions.md R270). That the console is `ready` after a reset (log 3)
and after an accepted input (log 6), which the invariant's last clause needs, is the model's choice. -/
def Obligations.HostActionsKeepTheInvariant : Prop :=
  ∀ s : State, s.Inv →
    (hostReset s).Inv ∧ (hostPause s).Inv ∧ (hostStep s).Inv ∧ (∀ n, (hostRun n s).Inv) ∧
    (∀ (input : List Char) (token : Nat), (hostResume input token s).Inv) ∧
    (∀ input : List Char, (hostSetInput input s).Inv) ∧
    (∀ (cfg : Settings) (files : List SourceFile), (hostAssemble cfg files s).Inv)

/-! ### Reset -/

/-- 10_state.md R16, R33: the state after reset, for every value of the parameters, and the values 00_scope.md R3
gives SP_RESET and ENTRY_PC. -/
def Obligations.ResetValues : Prop :=
  (∀ (p : Params) (h : HostSide),
    let s := State.resetWith p h
    s.x 28 = 0x10008000 ∧ s.x 29 = p.spReset ∧ (∀ r : Reg, r ≠ 28 → r ≠ 29 → s.x r = 0) ∧ s.hi = 0 ∧ s.lo = 0 ∧
    s.pc = p.entryPc ∧ s.status = .running ∧ s.cause.code = 0 ∧ s.causeInfo = 0 ∧ ∀ a : Word, s.memRead1 a = 0) ∧
  State.reset.x 29 = 0x7FFFEFFC ∧ State.reset.pc = 0x00400000 ∧
  State.reset = State.resetWith .default (.initial 0 0)

/-- 60_exceptions.md R279, 70_reset_and_hazards.md R290: `stop()` and `reset()` bring the core and memory to the reset
state, whatever the state before, so that two resets give the same; the console, the line map and the rest of the host's
side go back to their initial values (log 3 says which those are), a pending call is discarded, the lifecycle goes back
to `edit` and the generation is a new one. -/
def Obligations.HostResetForgetsEverything : Prop :=
  ∀ s : State,
    let u := hostReset s
    u.params = s.params ∧ u.regs = State.resetRegs s.params.spReset ∧ u.hi = 0 ∧ u.lo = 0 ∧
    u.pc = s.params.entryPc ∧ u.status = .running ∧ u.cause = .none ∧ u.causeInfo = 0 ∧
    (∀ a : Word, u.memRead1 a = 0) ∧ u.host.pending = none ∧ u.host.mode = .edit ∧
    u.host = { State.reset.host with generation := s.host.generation + 1, calls := s.host.calls } ∧
    ∀ t : State, t.params = s.params → t.host.generation = s.host.generation → t.host.calls = s.host.calls →
      hostReset t = u

/-- 60_exceptions.md R274, 70_reset_and_hazards.md R291: assembling starts with a reset. On success memory is the image
over zeros, `pc` is `ENTRY_PC`, the core is Running and the lifecycle is `execute`; on failure the lifecycle stays in
`edit`, no step is issued, and the console holds the error. What the error line holds is the model's (log 6), and so is
that the generation rises by exactly 1 from every state, one just reset among them (log 11). -/
def Obligations.AssemblingLoadsTheImage : Prop :=
  ∀ (cfg : Settings) (files : List SourceFile) (s : State),
    let r := assemble cfg s.params.endian files
    let t := hostAssemble cfg files s
    t.host.generation = s.host.generation + 1 ∧ t.host.pending = none ∧ t.status = .running ∧ t.cause = .none ∧
    t.causeInfo = 0 ∧ t.regs = State.resetRegs s.params.spReset ∧ t.hi = 0 ∧ t.lo = 0 ∧ t.params.endian = s.params.endian ∧
    t.params.syscallTable = s.params.syscallTable ∧
    (r.error = none → t.mem = r.mem ∧ t.pc = r.entry ∧ t.params.entryPc = r.entry ∧ t.host.mode = .execute) ∧
    (∀ e, r.error = some e → t.host.mode = .edit ∧ hostStep t = t ∧ (∀ n, hostRun n t = t) ∧
      t.host.console = [⟨.error, .assembleError e.fileId e.line e.token⟩])

/-! ### Whole-machine rules -/

/-- 10_state.md R12: register 0 reads 0, and an instruction whose destination is register 0 changes no register and
still has every other effect: it traps exactly when its result is out of range (40_arithmetic.md R101, R103, R105), and
otherwise takes its target if it is `jalr` and goes on to the next word if it is not. Nothing else changes. -/
def Obligations.WritingRegisterZeroChangesNoRegister : Prop :=
  (∀ s : State, s.x 0 = 0) ∧
  ∀ (i : Instr) (s : State), destination i = some 0 →
    ∃ t, exec i s = .next t ∧
      (resultOutOfRange i s → Traps s t .overflow 0) ∧
      (¬ resultOutOfRange i s →
        Jumps s t (match i with
          | .jalr _ rs => s.x rs
          | _ => s.pc + 4))

/-- 10_state.md R14: an instruction changes no general register but the one its rule writes, and `hi` and `lo` only
where its rule writes them. -/
def Obligations.OnlyTheNamedRegistersChange : Prop :=
  ∀ (i : Instr) (s t : State), i ≠ .syscall → exec i s = .next t →
    (∀ r : Reg, destination i ≠ some r → t.x r = s.x r) ∧ (mayWriteHiLo i = false → SameHiLo s t)

/-- 43_load_store.md R166: no instruction but a store, and the service of a `syscall`, changes a byte of memory. -/
def Obligations.OnlyStoresChangeMemory : Prop :=
  ∀ (i : Instr) (s t : State), mayWriteMemory i = false → exec i s = .next t → SameMemory s t

/-- 20_memory.md R50, 70_reset_and_hazards.md R295: no step changes a parameter of the run, the byte order among
them. -/
def Obligations.NoStepChangesAParameter : Prop :=
  ∀ s t : State, step s = .next t → t.params = s.params

/-- 60_exceptions.md R264 with 10_state.md R25: an instruction that does not trap leaves `cause` and `cause_info` alone
and does not fault the core. One that traps commits nothing, records the trap, and leaves a core on which a step does
nothing; Overflow is raised by `add`, `sub` and `addi` only, when the mathematical result is out of range,
SyscallNotImplemented by `syscall` only, when the code selects no service. -/
def Obligations.OnlyTrapsSetTheCause : Prop :=
  ∀ (i : Instr) (s t : State), s.status = .running → exec i s = .next t →
    (t.status ≠ .faulted ∧ t.cause = s.cause ∧ t.causeInfo = s.causeInfo) ∨
    (Traps s t .overflow 0 ∧ step t = .next t ∧
      ∃ rd rs rt imm, ∃ r : Int, (r < -2 ^ 31 ∨ r > 2 ^ 31 - 1) ∧
        ((i = .add rd rs rt ∧ r = (s.x rs).toInt + (s.x rt).toInt) ∨
          (i = .sub rd rs rt ∧ r = (s.x rs).toInt - (s.x rt).toInt) ∨
          (i = .addi rd rs imm ∧ r = (s.x rs).toInt + imm.toInt))) ∨
    (i = .syscall ∧ Traps s t .syscallNotImplemented (s.x 2) ∧ step t = .next t ∧
      s.params.syscallTable.lookup (s.x 2) = none)

/-- 60_exceptions.md R268: of all the host and the core can do, only a reset leaves Halted or Faulted. Assembling
begins with one (R274). -/
def Obligations.OnlyResetLeavesHaltedAndFaulted : Prop :=
  ∀ s : State, s.status = .halted ∨ s.status = .faulted →
    step s = .next s ∧ (hostStep s).status = s.status ∧ (hostStep s).cause = s.cause ∧
    (∀ n, (hostRun n s).status = s.status ∧ (hostRun n s).cause = s.cause) ∧
    (∀ (input : List Char) (token : Nat), hostResume input token s = s) ∧
    (∀ input : List Char, hostSetInput input s = s) ∧ (hostPause s).status = s.status ∧
    (hostPause s).cause = s.cause ∧ (hostReset s).status = .running ∧ (hostReset s).cause = .none

/-! ### Integer add, subtract and compare (40_arithmetic.md) -/

/-- 40_arithmetic.md R101, R103, R105: `add`, `sub` and `addi` write the mathematical result when it is in the signed
32-bit range and trap otherwise, whatever the destination. -/
def Obligations.AddSubAddiWriteInRangeAndTrapOutside : Prop :=
  (∀ rs rt rd sh, decode (wordR 0x20 rs rt rd sh) = .instr (.add rd rs rt)) ∧
  (∀ rs rt rd sh, decode (wordR 0x22 rs rt rd sh) = .instr (.sub rd rs rt)) ∧
  (∀ rs rt imm, decode (wordI 0x08 rs rt imm) = .instr (.addi rt rs imm)) ∧
  ∀ (s : State) (rd rs rt : Reg) (imm : BitVec 16) (i : Instr) (r : Int),
    (i = .add rd rs rt ∧ r = (s.x rs).toInt + (s.x rt).toInt) ∨
    (i = .sub rd rs rt ∧ r = (s.x rs).toInt - (s.x rt).toInt) ∨
    (i = .addi rd rs imm ∧ r = (s.x rs).toInt + imm.toInt) →
    (-2 ^ 31 ≤ r → r ≤ 2 ^ 31 - 1 → ∃ t v, exec i s = .next t ∧ v.toInt = r ∧ WritesReg s t rd v) ∧
    (r < -2 ^ 31 ∨ r > 2 ^ 31 - 1 → ∃ t, exec i s = .next t ∧ Traps s t .overflow 0)

/-- 40_arithmetic.md R102, R104, R106: `addu`, `subu` and `addiu` compute modulo 2^32 and never trap. -/
def Obligations.AdduSubuAddiuWrapWithoutTrap : Prop :=
  (∀ rs rt rd sh, decode (wordR 0x21 rs rt rd sh) = .instr (.addu rd rs rt)) ∧
  (∀ rs rt rd sh, decode (wordR 0x23 rs rt rd sh) = .instr (.subu rd rs rt)) ∧
  (∀ rs rt imm, decode (wordI 0x09 rs rt imm) = .instr (.addiu rt rs imm)) ∧
  ∀ (s : State) (rd rs rt : Reg) (imm : BitVec 16),
    (∃ t v, exec (.addu rd rs rt) s = .next t ∧ v.toNat = ((s.x rs).toNat + (s.x rt).toNat) % 2 ^ 32 ∧
      WritesReg s t rd v) ∧
    (∃ t v, exec (.subu rd rs rt) s = .next t ∧
      (v.toNat : Int) = ((s.x rs).toNat - (s.x rt).toNat : Int) % 2 ^ 32 ∧ WritesReg s t rd v) ∧
    (∃ t v, exec (.addiu rt rs imm) s = .next t ∧ (v.toNat : Int) = ((s.x rs).toNat + imm.toInt) % 2 ^ 32 ∧
      WritesReg s t rt v)

/-- 40_arithmetic.md R107 to R110: the comparisons write 1 or 0; the immediate of `sltiu` is sign-extended first and
then compared as unsigned. -/
def Obligations.ComparisonsWriteOneOrZero : Prop :=
  (∀ rs rt rd sh, decode (wordR 0x2A rs rt rd sh) = .instr (.slt rd rs rt)) ∧
  (∀ rs rt rd sh, decode (wordR 0x2B rs rt rd sh) = .instr (.sltu rd rs rt)) ∧
  (∀ rs rt imm, decode (wordI 0x0A rs rt imm) = .instr (.slti rt rs imm)) ∧
  (∀ rs rt imm, decode (wordI 0x0B rs rt imm) = .instr (.sltiu rt rs imm)) ∧
  ∀ (s : State) (rd rs rt : Reg) (imm : BitVec 16),
    (∃ t, exec (.slt rd rs rt) s = .next t ∧
      WritesReg s t rd (if (s.x rs).toInt < (s.x rt).toInt then 0x00000001 else 0x00000000)) ∧
    (∃ t, exec (.sltu rd rs rt) s = .next t ∧
      WritesReg s t rd (if (s.x rs).toNat < (s.x rt).toNat then 0x00000001 else 0x00000000)) ∧
    (∃ t, exec (.slti rt rs imm) s = .next t ∧
      WritesReg s t rt (if (s.x rs).toInt < imm.toInt then 0x00000001 else 0x00000000)) ∧
    (∃ t, exec (.sltiu rt rs imm) s = .next t ∧
      WritesReg s t rt (if ((s.x rs).toNat : Int) < imm.toInt % 2 ^ 32 then 0x00000001 else 0x00000000))

/-- 40_arithmetic.md R100, its last sentence: when signed overflow happens, read off the sign bits of the operands and
of the modulo-2^32 result. -/
def Obligations.OverflowIsReadOffTheSignBits : Prop :=
  ∀ (s : State) (rd rs rt : Reg) (imm : BitVec 16),
    let a := s.x rs
    let b := s.x rt
    let c : Word := BitVec.ofInt 32 imm.toInt
    ((∃ t, exec (.add rd rs rt) s = .next t ∧ Traps s t .overflow 0) ↔ (a.msb = b.msb ∧ (a + b).msb ≠ a.msb)) ∧
    ((∃ t, exec (.addi rd rs imm) s = .next t ∧ Traps s t .overflow 0) ↔ (a.msb = c.msb ∧ (a + c).msb ≠ a.msb)) ∧
    ((∃ t, exec (.sub rd rs rt) s = .next t ∧ Traps s t .overflow 0) ↔ (a.msb ≠ b.msb ∧ (a - b).msb = b.msb))

/-! ### Logical, load-upper and shift instructions (41_logical_shift.md) -/

/-- 41_logical_shift.md R121 to R124: the register forms, bit by bit. -/
def Obligations.RegisterLogicIsBitwise : Prop :=
  (∀ rs rt rd sh, decode (wordR 0x24 rs rt rd sh) = .instr (.and rd rs rt)) ∧
  (∀ rs rt rd sh, decode (wordR 0x25 rs rt rd sh) = .instr (.or rd rs rt)) ∧
  (∀ rs rt rd sh, decode (wordR 0x26 rs rt rd sh) = .instr (.xor rd rs rt)) ∧
  (∀ rs rt rd sh, decode (wordR 0x27 rs rt rd sh) = .instr (.nor rd rs rt)) ∧
  ∀ (s : State) (rd rs rt : Reg),
    (∃ t v, exec (.and rd rs rt) s = .next t ∧ WritesReg s t rd v ∧
      ∀ k, k < 32 → v.getLsbD k = ((s.x rs).getLsbD k && (s.x rt).getLsbD k)) ∧
    (∃ t v, exec (.or rd rs rt) s = .next t ∧ WritesReg s t rd v ∧
      ∀ k, k < 32 → v.getLsbD k = ((s.x rs).getLsbD k || (s.x rt).getLsbD k)) ∧
    (∃ t v, exec (.xor rd rs rt) s = .next t ∧ WritesReg s t rd v ∧
      ∀ k, k < 32 → v.getLsbD k = ((s.x rs).getLsbD k != (s.x rt).getLsbD k)) ∧
    (∃ t v, exec (.nor rd rs rt) s = .next t ∧ WritesReg s t rd v ∧
      ∀ k, k < 32 → v.getLsbD k = !((s.x rs).getLsbD k || (s.x rt).getLsbD k))

/-- 41_logical_shift.md R125 to R128: the immediate is zero-extended by `andi`, `ori`, `xori`, and put in bits 31:16 by
`lui`, whose `rs` field is ignored. -/
def Obligations.ImmediateLogicZeroExtends : Prop :=
  (∀ rs rt imm, decode (wordI 0x0C rs rt imm) = .instr (.andi rt rs imm)) ∧
  (∀ rs rt imm, decode (wordI 0x0D rs rt imm) = .instr (.ori rt rs imm)) ∧
  (∀ rs rt imm, decode (wordI 0x0E rs rt imm) = .instr (.xori rt rs imm)) ∧
  (∀ rs rt imm, decode (wordI 0x0F rs rt imm) = .instr (.lui rt imm)) ∧
  ∀ (s : State) (rt rs : Reg) (imm : BitVec 16),
    (∃ t v, exec (.andi rt rs imm) s = .next t ∧ WritesReg s t rt v ∧
      ∀ k, k < 32 → v.getLsbD k = (if k < 16 then ((s.x rs).getLsbD k && imm.getLsbD k) else false)) ∧
    (∃ t v, exec (.ori rt rs imm) s = .next t ∧ WritesReg s t rt v ∧
      ∀ k, k < 32 → v.getLsbD k = (if k < 16 then ((s.x rs).getLsbD k || imm.getLsbD k) else (s.x rs).getLsbD k)) ∧
    (∃ t v, exec (.xori rt rs imm) s = .next t ∧ WritesReg s t rt v ∧
      ∀ k, k < 32 → v.getLsbD k = (if k < 16 then ((s.x rs).getLsbD k != imm.getLsbD k) else (s.x rs).getLsbD k)) ∧
    (∃ t v, exec (.lui rt imm) s = .next t ∧ WritesReg s t rt v ∧ v.toNat = imm.toNat * 2 ^ 16)

/-- 41_logical_shift.md R129 to R131: shifts by the `shamt` field; the `rs` field is ignored, but the zero word is no
`sll`. -/
def Obligations.ShiftsByShamt : Prop :=
  (∀ rs rt rd sh, wordR 0x00 rs rt rd sh ≠ 0 → decode (wordR 0x00 rs rt rd sh) = .instr (.sll rd rt sh)) ∧
  (∀ rs rt rd sh, decode (wordR 0x02 rs rt rd sh) = .instr (.srl rd rt sh)) ∧
  (∀ rs rt rd sh, decode (wordR 0x03 rs rt rd sh) = .instr (.sra rd rt sh)) ∧
  decode 0 = .invalid .zeroWord ∧
  ∀ (s : State) (rd rt : Reg) (sh : BitVec 5),
    (∃ t v, exec (.sll rd rt sh) s = .next t ∧ WritesReg s t rd v ∧
      v.toNat = (s.x rt).toNat * 2 ^ sh.toNat % 2 ^ 32) ∧
    (∃ t v, exec (.srl rd rt sh) s = .next t ∧ WritesReg s t rd v ∧ v.toNat = (s.x rt).toNat / 2 ^ sh.toNat) ∧
    (∃ t v, exec (.sra rd rt sh) s = .next t ∧ WritesReg s t rd v ∧ v.toInt = (s.x rt).toInt / 2 ^ sh.toNat)

/-- 41_logical_shift.md R132 to R134: shifts by the low five bits of `x[rs]`. -/
def Obligations.ShiftsByRegister : Prop :=
  (∀ rs rt rd sh, decode (wordR 0x04 rs rt rd sh) = .instr (.sllv rd rt rs)) ∧
  (∀ rs rt rd sh, decode (wordR 0x06 rs rt rd sh) = .instr (.srlv rd rt rs)) ∧
  (∀ rs rt rd sh, decode (wordR 0x07 rs rt rd sh) = .instr (.srav rd rt rs)) ∧
  ∀ (s : State) (rd rt rs : Reg),
    let n := (s.x rs).toNat % 32
    (∃ t v, exec (.sllv rd rt rs) s = .next t ∧ WritesReg s t rd v ∧ v.toNat = (s.x rt).toNat * 2 ^ n % 2 ^ 32) ∧
    (∃ t v, exec (.srlv rd rt rs) s = .next t ∧ WritesReg s t rd v ∧ v.toNat = (s.x rt).toNat / 2 ^ n) ∧
    (∃ t v, exec (.srav rd rt rs) s = .next t ∧ WritesReg s t rd v ∧ v.toInt = (s.x rt).toInt / 2 ^ n)

/-! ### Multiply, divide and moves (42_muldiv.md) -/

/-- 42_muldiv.md R141, R142: `hi` and `lo` together are the 64-bit product, signed for `mult`, unsigned for `multu`. -/
def Obligations.MultiplyWritesTheWholeProduct : Prop :=
  (∀ rs rt rd sh, decode (wordR 0x18 rs rt rd sh) = .instr (.mult rs rt)) ∧
  (∀ rs rt rd sh, decode (wordR 0x19 rs rt rd sh) = .instr (.multu rs rt)) ∧
  ∀ (s : State) (rs rt : Reg),
    (∃ t h l, exec (.mult rs rt) s = .next t ∧ WritesHiLo s t h l ∧
      (h ++ l).toInt = (s.x rs).toInt * (s.x rt).toInt) ∧
    (∃ t h l, exec (.multu rs rt) s = .next t ∧ WritesHiLo s t h l ∧
      (h ++ l).toNat = (s.x rs).toNat * (s.x rt).toNat)

/-- 42_muldiv.md R143: `div`. By zero both registers are 0; -2^31 by -1 gives DIV_OVF; else `lo` is the quotient
truncated toward zero and `hi` the remainder with the sign of the dividend. -/
def Obligations.SignedDivide : Prop :=
  (∀ rs rt rd sh, decode (wordR 0x1A rs rt rd sh) = .instr (.div rs rt)) ∧
  (Params.default.divOvfLo = 0x80000000 ∧ Params.default.divOvfHi = 0x00000000) ∧
  ∀ (s : State) (rs rt : Reg),
    let n := (s.x rs).toInt
    let d := (s.x rt).toInt
    ∃ t h l, exec (.div rs rt) s = .next t ∧ WritesHiLo s t h l ∧
      (d = 0 → h = 0 ∧ l = 0) ∧
      (n = -2 ^ 31 ∧ d = -1 → h = s.params.divOvfHi ∧ l = s.params.divOvfLo) ∧
      (d ≠ 0 → ¬ (n = -2 ^ 31 ∧ d = -1) →
        n = l.toInt * d + h.toInt ∧ h.toInt.natAbs < d.natAbs ∧ (0 ≤ n → 0 ≤ h.toInt) ∧ (n ≤ 0 → h.toInt ≤ 0))

/-- 42_muldiv.md R144: `divu`. By zero both registers are 0; else quotient and remainder. -/
def Obligations.UnsignedDivide : Prop :=
  (∀ rs rt rd sh, decode (wordR 0x1B rs rt rd sh) = .instr (.divu rs rt)) ∧
  ∀ (s : State) (rs rt : Reg),
    let n := (s.x rs).toNat
    let d := (s.x rt).toNat
    ∃ t h l, exec (.divu rs rt) s = .next t ∧ WritesHiLo s t h l ∧
      (d = 0 → h = 0 ∧ l = 0) ∧ (d ≠ 0 → n = l.toNat * d + h.toNat ∧ h.toNat < d)

/-- 42_muldiv.md R145 to R148: the moves. -/
def Obligations.HiLoMoves : Prop :=
  (∀ rs rt rd sh, decode (wordR 0x10 rs rt rd sh) = .instr (.mfhi rd)) ∧
  (∀ rs rt rd sh, decode (wordR 0x12 rs rt rd sh) = .instr (.mflo rd)) ∧
  (∀ rs rt rd sh, decode (wordR 0x11 rs rt rd sh) = .instr (.mthi rs)) ∧
  (∀ rs rt rd sh, decode (wordR 0x13 rs rt rd sh) = .instr (.mtlo rs)) ∧
  ∀ (s : State) (rd rs : Reg),
    (∃ t, exec (.mfhi rd) s = .next t ∧ WritesReg s t rd s.hi) ∧
    (∃ t, exec (.mflo rd) s = .next t ∧ WritesReg s t rd s.lo) ∧
    (∃ t, exec (.mthi rs) s = .next t ∧ WritesHiLo s t (s.x rs) s.lo) ∧
    (∃ t, exec (.mtlo rs) s = .next t ∧ WritesHiLo s t s.hi (s.x rs))

/-! ### Loads and stores (43_load_store.md) -/

/-- 43_load_store.md R160: the one addressing mode, modulo 2^32. -/
def Obligations.EffectiveAddressIsBasePlusDisplacement : Prop :=
  ∀ (s : State) (rs : Reg) (imm : BitVec 16),
    ((effectiveAddress s rs imm).toNat : Int) = ((s.x rs).toNat + imm.toInt) % 2 ^ 32

/-- 43_load_store.md R161, R162: `lb` sign-extends the byte at the effective address, `lbu` zero-extends it. -/
def Obligations.ByteLoadsExtend : Prop :=
  (∀ rs rt imm, decode (wordI 0x20 rs rt imm) = .instr (.lb rt imm rs)) ∧
  (∀ rs rt imm, decode (wordI 0x24 rs rt imm) = .instr (.lbu rt imm rs)) ∧
  ∀ (s : State) (rt rs : Reg) (imm : BitVec 16),
    let ea : Word := BitVec.ofInt 32 ((s.x rs).toNat + imm.toInt)
    (∃ t v, exec (.lb rt imm rs) s = .next t ∧ WritesReg s t rt v ∧ v.toInt = (s.memRead1 ea).toInt) ∧
    (∃ t v, exec (.lbu rt imm rs) s = .next t ∧ WritesReg s t rt v ∧ v.toNat = (s.memRead1 ea).toNat)

/-- 43_load_store.md R163 with 20_memory.md R45: `lw` assembles the four bytes at the effective address, each address
modulo 2^32, in the byte order of the run, at any alignment. -/
def Obligations.LoadWordAssemblesFourBytes : Prop :=
  (∀ rs rt imm, decode (wordI 0x23 rs rt imm) = .instr (.lw rt imm rs)) ∧
  ∀ (s : State) (rt rs : Reg) (imm : BitVec 16),
    let ea : Word := BitVec.ofInt 32 ((s.x rs).toNat + imm.toInt)
    let b := fun k : Nat => (s.memRead1 (ea + BitVec.ofNat 32 k)).toNat
    ∃ t v, exec (.lw rt imm rs) s = .next t ∧ WritesReg s t rt v ∧
      (s.params.endian = .big → v.toNat = b 0 * 2 ^ 24 + b 1 * 2 ^ 16 + b 2 * 2 ^ 8 + b 3) ∧
      (s.params.endian = .little → v.toNat = b 3 * 2 ^ 24 + b 2 * 2 ^ 16 + b 1 * 2 ^ 8 + b 0)

/-- 43_load_store.md R164: `sb` stores the low byte of `x[rt]` at the effective address and changes no other byte. -/
def Obligations.StoreByteChangesOneByte : Prop :=
  (∀ rs rt imm, decode (wordI 0x28 rs rt imm) = .instr (.sb rt imm rs)) ∧
  ∀ (s : State) (rt rs : Reg) (imm : BitVec 16), Memory.wf s.mem →
    let ea := effectiveAddress s rs imm
    (ea.toNat : Int) = ((s.x rs).toNat + imm.toInt) % 2 ^ 32 ∧
    ∃ t, exec (.sb rt imm rs) s = .next t ∧ StoresAt s t ea 1 ∧
      (t.memRead1 ea).toNat = (s.x rt).toNat % 2 ^ 8 ∧ Memory.wf t.mem

/-- 43_load_store.md R165 with 20_memory.md R47: `sw` stores the four bytes of `x[rt]` from the effective address on, in
the byte order of the run, at any alignment, and changes no other byte. -/
def Obligations.StoreWordChangesFourBytes : Prop :=
  (∀ rs rt imm, decode (wordI 0x2B rs rt imm) = .instr (.sw rt imm rs)) ∧
  ∀ (s : State) (rt rs : Reg) (imm : BitVec 16), Memory.wf s.mem →
    let ea := effectiveAddress s rs imm
    (ea.toNat : Int) = ((s.x rs).toNat + imm.toInt) % 2 ^ 32 ∧
    ∃ t, exec (.sw rt imm rs) s = .next t ∧ StoresAt s t ea 4 ∧ Memory.wf t.mem ∧
      (∀ k : Nat, k < 4 → s.params.endian = .big →
        (t.memRead1 (ea + BitVec.ofNat 32 k)).toNat = (s.x rt).toNat / 2 ^ (24 - 8 * k) % 2 ^ 8) ∧
      (∀ k : Nat, k < 4 → s.params.endian = .little →
        (t.memRead1 (ea + BitVec.ofNat 32 k)).toNat = (s.x rt).toNat / 2 ^ (8 * k) % 2 ^ 8)

/-- 20_memory.md R45 and R47 are inverse: a word stored by `sw` is what `lw` loads from the same address, in either byte
order, at any alignment. -/
def Obligations.LoadWordReturnsTheStoredWord : Prop :=
  ∀ (s : State) (rt rt' rs : Reg) (imm : BitVec 16), Memory.wf s.mem →
    ∃ t u, exec (.sw rt imm rs) s = .next t ∧ exec (.lw rt' imm rs) t = .next u ∧ WritesReg t u rt' (s.x rt)

/-- 20_memory.md R53: an instruction stored over the next one to be fetched is the one the next step executes. -/
def Obligations.FetchSeesTheStoreBeforeIt : Prop :=
  ∀ (s : State) (rt rs : Reg) (imm : BitVec 16) (j : Instr), Memory.wf s.mem → s.status = .running →
    decode s.fetch = .instr (.sw rt imm rs) → effectiveAddress s rs imm = s.pc + 4 → decode (s.x rt) = .instr j →
    ∃ t, step s = .next t ∧ t.pc = s.pc + 4 ∧ step t = exec j t

/-! ### Control transfers (44_control.md) -/

/-- 44_control.md R171 to R174: the conditional branches; the target counts words from the next instruction. -/
def Obligations.BranchesTakeTheirTarget : Prop :=
  (∀ rs rt imm, decode (wordI 0x04 rs rt imm) = .instr (.beq rs rt imm)) ∧
  (∀ rs rt imm, decode (wordI 0x05 rs rt imm) = .instr (.bne rs rt imm)) ∧
  (∀ rs rt imm, decode (wordI 0x06 rs rt imm) = .instr (.blez rs imm)) ∧
  (∀ rs rt imm, decode (wordI 0x07 rs rt imm) = .instr (.bgtz rs imm)) ∧
  ∀ (s : State) (rs rt : Reg) (imm : BitVec 16),
    let target : Word := BitVec.ofInt 32 (s.pc.toNat + 4 + 4 * imm.toInt)
    (∃ t, exec (.beq rs rt imm) s = .next t ∧ Jumps s t (if s.x rs = s.x rt then target else s.pc + 4)) ∧
    (∃ t, exec (.bne rs rt imm) s = .next t ∧ Jumps s t (if s.x rs ≠ s.x rt then target else s.pc + 4)) ∧
    (∃ t, exec (.blez rs imm) s = .next t ∧ Jumps s t (if (s.x rs).toInt ≤ 0 then target else s.pc + 4)) ∧
    (∃ t, exec (.bgtz rs imm) s = .next t ∧ Jumps s t (if (s.x rs).toInt > 0 then target else s.pc + 4))

/-- 44_control.md R175, R176: the target is four times the address field and does not depend on `pc`; `jal` links
`pc + 4` in register 31. -/
def Obligations.JumpsToAddressField : Prop :=
  (∀ address, decode (wordJ 0x02 address) = .instr (.j address)) ∧
  (∀ address, decode (wordJ 0x03 address) = .instr (.jal address)) ∧
  ∀ (s : State) (address : BitVec 26),
    let target : Word := BitVec.ofNat 32 (4 * address.toNat)
    (∃ t, exec (.j address) s = .next t ∧ Jumps s t target) ∧
    (∃ t, exec (.jal address) s = .next t ∧ JumpsAndLinks s t 31 (s.pc + 4) target)

/-- 44_control.md R177, R178: `jr` and `jalr` go to any register value; `jalr` reads the target before it writes the
link, so `rd = rs` jumps to the old value; written with one operand it means `rd = 31`. -/
def Obligations.JumpsToRegister : Prop :=
  (∀ (resolve : Text → Option Word) (a : Word) (rs : Reg),
    encodeStmt resolve a ⟨.jalr, [.reg rs]⟩ = .ok (encode (.jalr 31 rs))) ∧
  (∀ rs rt rd sh, decode (wordR 0x08 rs rt rd sh) = .instr (.jr rs)) ∧
  (∀ rs rt rd sh, decode (wordR 0x09 rs rt rd sh) = .instr (.jalr rd rs)) ∧
  ∀ (s : State) (rd rs : Reg),
    (∃ t, exec (.jr rs) s = .next t ∧ Jumps s t (s.x rs)) ∧
    (∃ t, exec (.jalr rd rs) s = .next t ∧ JumpsAndLinks s t rd (s.pc + 4) (s.x rs))

/-! ### The environment call (45_system.md) and the host (60_exceptions.md) -/

/-- 60_exceptions.md R262: `syscall` with a code that selects no service traps, and nothing else changes. -/
def Obligations.UndefinedSyscallCodeTraps : Prop :=
  ∀ s : State, s.params.syscallTable.lookup (s.x 2) = none →
    ∃ t, exec .syscall s = .next t ∧ Traps s t .syscallNotImplemented (s.x 2)

/-- 45_system.md R190: `syscall` with a code that selects no service traps; with a defined code, the full value of
register 2, it ends by the outcome its service answers. On Continue and Exit the service's writes commit and `pc`
advances, and Exit halts; on Block `pc`, all registers and memory are unchanged and the core is suspended, with the
call pending under the present generation. The lines the service appends are in the console (60_exceptions.md
R272). Three points are the model's: the count of answers (log 4), the form the lines are kept in, and that every service
that blocks puts the console in `waitingInput` (log 6; R272 says it of "a blocking read"). -/
def Obligations.ServedSyscallEndsByItsOutcome : Prop :=
  (∀ rs rt rd sh, decode (wordR 0x0C rs rt rd sh) = .instr .syscall) ∧ encode .syscall = 0x0000000C ∧
  (∀ s : State, s.params.syscallTable.lookup (s.x 2) = none →
    ∃ t, exec .syscall s = .next t ∧ Traps s t .syscallNotImplemented (s.x 2)) ∧
  ∀ (s : State) (svc : Service), Memory.wf s.mem → s.params.syscallTable.lookup (s.x 2) = some svc →
    let a := serviceAnswer svc s
    let host := { s.host with calls := s.host.calls + 1, console := s.host.console ++ consoleLines a.lines }
    ∃ t, exec .syscall s = .next t ∧ t.params = s.params ∧ t.cause = s.cause ∧ t.causeInfo = s.causeInfo ∧
      (a.outcome = .proceed →
        Commits s t a.writes ∧ t.pc = s.pc + 4 ∧ t.status = s.status ∧ t.host = host) ∧
      (a.outcome = .exit →
        Commits s t a.writes ∧ t.pc = s.pc + 4 ∧ t.status = .halted ∧ t.host = host) ∧
      (a.outcome = .block →
        SameRegs s t ∧ SameHiLo s t ∧ SameMemory s t ∧ t.pc = s.pc ∧ t.status = .suspended ∧
        t.host = { host with pending := some ⟨svc, s.host.generation⟩, consoleState := .waitingInput })

/-- 45_system.md R191, R192: a suspended core does nothing on a step and a reset discards the call; a resumption with a
stale token, or of a core that is not suspended, changes nothing. With the present token the lines the service appends
are in the console; a rejected input leaves an error line after them and the core as it was, suspended; an accepted one
commits the service's writes, advances `pc` and lets the core run. What the error line holds, and that the console is
`ready` again after an accepted input, are the model's (log 6). -/
def Obligations.ResumeCompletesThePendingCall : Prop :=
  (∀ s : State, s.status = .suspended → step s = .next s ∧ (hostReset s).host.pending = none) ∧
  (∀ (s : State) (input : List Char) (token : Nat), token ≠ s.host.generation ∨ s.status ≠ .suspended →
    hostResume input token s = s) ∧
  ∀ (s : State) (c : PendingCall) (input : List Char), Memory.wf s.mem → s.status = .suspended →
    s.host.pending = some c →
    let r := serviceReply c.service s input
    let t := hostResume input s.host.generation s
    (r.writes = none →
      SameRegs s t ∧ SameHiLo s t ∧ SameMemory s t ∧ t.pc = s.pc ∧ t.status = .suspended ∧ t.cause = s.cause ∧
      t.causeInfo = s.causeInfo ∧ t.params = s.params ∧ t.host.pending = s.host.pending ∧
      t.host.console = s.host.console ++ consoleLines r.lines ++ [⟨.error, .inputError⟩]) ∧
    (∀ w, r.writes = some w →
      Commits s t w ∧ t.pc = s.pc + 4 ∧ t.status = .running ∧ t.cause = s.cause ∧ t.causeInfo = s.causeInfo ∧
      t.params = s.params ∧ t.host.pending = none ∧ t.host.console = s.host.console ++ consoleLines r.lines ∧
      t.host.consoleState = .ready)

/-- 60_exceptions.md R278: a reset and an assembly make the token a pending call captured stale, and nothing the core or
the host does later makes it fresh again: the generation never falls, and in every state of the new generation or a later
one, one suspended in a new call among them, an input delivered with the old token changes nothing. -/
def Obligations.StaleInputChangesNothing : Prop :=
  (∀ (s : State) (input : List Char) (token : Nat), token ≠ s.host.generation → hostResume input token s = s) ∧
  (∀ (s : State) (c : PendingCall), s.Inv → s.host.pending = some c →
    c.token ≠ (hostReset s).host.generation ∧
    (∀ (cfg : Settings) (files : List SourceFile),
      c.token ≠ (hostAssemble cfg files s).host.generation ∧
      (hostReset s).host.generation ≤ (hostAssemble cfg files s).host.generation) ∧
    ∀ (u : State) (input : List Char), (hostReset s).host.generation ≤ u.host.generation →
      hostResume input c.token u = u) ∧
  (∀ s t : State, step s = .next t → t.host.generation = s.host.generation) ∧
  ∀ s : State,
    let g := s.host.generation
    (hostStep s).host.generation = g ∧ (∀ n, (hostRun n s).host.generation = g) ∧
    (hostPause s).host.generation = g ∧ (∀ input : List Char, (hostSetInput input s).host.generation = g) ∧
    (∀ (input : List Char) (token : Nat), (hostResume input token s).host.generation = g) ∧
    g < (hostReset s).host.generation ∧
    ∀ (cfg : Settings) (files : List SourceFile), g < (hostAssemble cfg files s).host.generation

/-- 60_exceptions.md R275: every state `run()` produces is, but for the host's flag, a state a sequence of `step()`
calls produces, and the loop goes on as long as the core is running. -/
def Obligations.RunProducesStatesOfSteps : Prop :=
  ∀ (n : Nat) (s : State), s.host.mode = .execute →
    ∃ k, k ≤ n ∧
      hostPause (hostRun n s) = hostPause (hostSteps k { s with host := { s.host with running := true } }) ∧
      ((hostRun n s).status = .running → k = n)

/-! ### The off-line pass (50_assembler.md) -/

/-- 50_assembler.md R222, R223 with 30_encoding.md R76, R77: the offset and the address the assembler computes for a
label make the core reach the label; it computes one exactly when the label is in reach. That the distance of a branch
is a difference of integers, so that no label is in reach across the ends of the address space, is the model's (log
9). -/
def Obligations.LabelTargetsAreReached : Prop :=
  (∀ (a target : Word) (imm : BitVec 16), branchField a target = .ok imm → branchTarget a imm = target) ∧
  (∀ (target : Word) (address : BitVec 26),
    jumpField (target.toNat : Int) = .ok address → jumpTarget address = target) ∧
  (∀ a target : Word, (∃ imm, branchField a target = .ok imm) ↔
    (∃ q : Int, (target.toNat : Int) = a.toNat + 4 + 4 * q ∧ -32768 ≤ q ∧ q ≤ 32767)) ∧
  (∀ target : Word, (∃ address, jumpField (target.toNat : Int) = .ok address) ↔
    (target.toNat % 4 = 0 ∧ target.toNat < 2 ^ 28))

/-- 50_assembler.md R226: the words `li rt, L` assembles to, by the range of `L`, and that they leave `V = L mod 2^32` in
`rt`; the one-word forms change nothing else, the two-word form overwrites `$at` too. -/
def Obligations.LoadImmediateLoadsItsLiteral : Prop :=
  ∀ (resolve : Text → Option Word) (a : Word) (rt : Reg) (l : Int) (s : State), -2 ^ 31 ≤ l → l ≤ 2 ^ 32 - 1 →
    let v : Nat := (l % 2 ^ 32).toNat
    let ws :=
      if -32768 ≤ l ∧ l ≤ 32767 then [encode (.addiu rt 0 (BitVec.ofInt 16 l))]
      else if 32768 ≤ l ∧ l ≤ 65535 then [encode (.ori rt 0 (BitVec.ofInt 16 l))]
      else [encode (.lui 1 (BitVec.ofNat 16 (v / 2 ^ 16))), encode (.ori rt 1 (BitVec.ofNat 16 (v % 2 ^ 16)))]
    encodeStmts resolve a (expandLi rt l) = .ok ws ∧
    ∃ t, execWords ws s = some t ∧ (t.x rt).toNat = (if rt = 0 then 0 else v) ∧
      t.pc = s.pc + BitVec.ofNat 32 (4 * ws.length) ∧
      (∀ r : Reg, r ≠ rt → (ws.length = 2 → r ≠ 1) → t.x r = s.x r) ∧
      SameHiLo s t ∧ SameMemory s t ∧ SameControl s t

/-- 50_assembler.md R227: the two words `la rt, ref` assembles to, whatever the address, and that they leave the label's
address, constant included, modulo 2^32, in `rt`. -/
def Obligations.LoadAddressLoadsTheLabel : Prop :=
  ∀ (resolve : Text → Option Word) (a addr : Word) (rt : Reg) (l : LabelRef) (s : State),
    resolve l.name = some addr →
    let v : Nat := ((addr.toNat + l.offset) % 2 ^ 32).toNat
    let ws := [encode (.lui 1 (BitVec.ofNat 16 (v / 2 ^ 16))), encode (.ori rt 1 (BitVec.ofNat 16 (v % 2 ^ 16)))]
    encodeStmts resolve a (expandLa rt l) = .ok ws ∧
    ∃ t, execWords ws s = some t ∧ (t.x rt).toNat = (if rt = 0 then 0 else v) ∧ t.pc = s.pc + 8 ∧
      (∀ r : Reg, r ≠ rt → r ≠ 1 → t.x r = s.x r) ∧ SameHiLo s t ∧ SameMemory s t ∧ SameControl s t

/-- 50_assembler.md R230 to R233: the two words of `blt`, `bgt`, `ble`, `bge` at address `a` go to the label exactly when
the signed comparison holds, and change only `$at`. -/
def Obligations.ComparePseudosBranchOnTheComparison : Prop :=
  ∀ (resolve : Text → Option Word) (a target : Word) (rs rt : Reg) (name : Text) (p : Pseudo) (s : State)
    (stmts : List Stmt) (ws : List Word),
    s.pc = a → resolve name = some target →
    expandPseudo p [.reg rs, .reg rt, .ref ⟨name, 0⟩] = .ok stmts → encodeStmts resolve a stmts = .ok ws →
    ∃ t, execWords ws s = some t ∧ ws.length = 2 ∧
      t.pc = (if (p = .blt ∧ (s.x rs).toInt < (s.x rt).toInt) ∨ (p = .bgt ∧ (s.x rs).toInt > (s.x rt).toInt) ∨
                 (p = .ble ∧ (s.x rs).toInt ≤ (s.x rt).toInt) ∨ (p = .bge ∧ (s.x rs).toInt ≥ (s.x rt).toInt)
              then target else a + 8) ∧
      (∀ r : Reg, r ≠ 1 → t.x r = s.x r) ∧ SameHiLo s t ∧ SameMemory s t ∧ SameControl s t

/-- 50_assembler.md R221: the cursors of pass 1 and of pass 2 move alike on every line, so every label has one
address. -/
def Obligations.BothPassesMoveTheCursorsAlike : Prop :=
  ∀ (cfg : Settings) (e : Endian) (resolve : Text → Option Word) (fileId : Nat) (l : ParsedLine) (p p' : PassOne)
    (q q' : PassTwo),
    p.cursors = q.cursors → p.line cfg e l = .ok p' → q.line cfg e resolve fileId l = .ok q' → p'.cursors = q'.cursors

/-- The source of the worked example of 50_assembler.md R246. -/
def forwardReferenceSource : List SourceFile :=
  [⟨0, "main".toList, "j end\naddi $t0, $zero, 1\nend: addi $t1, $zero, 2\n".toList⟩]

/-- 50_assembler.md R246: the worked example assembles to its three words, binds `end` before it is defined, and runs to
its end, in either byte order. -/
def Obligations.ForwardReferenceExample : Prop :=
  ∀ e : Endian,
    let r := assemble .default e forwardReferenceSource
    let s := hostAssemble .default forwardReferenceSource
      (State.resetWith { Params.default with endian := e } (.initial 0 0))
    r.listing.map (fun l => (l.address, l.word))
      = [(0x00400000, 0x08100002), (0x00400004, 0x20080001), (0x00400008, 0x20090002)] ∧
    r.tables.locals = [[("end".toList, 0x00400008)]] ∧
    s.pc = 0x00400000 ∧ (hostSteps 1 s).pc = 0x00400008 ∧ (hostSteps 2 s).pc = 0x0040000C ∧
    (hostRun 10 s).status = .halted ∧ (hostRun 10 s).pc = 0x0040000C ∧ (hostRun 10 s).x 8 = 0 ∧ (hostRun 10 s).x 9 = 2
end

