-- ==== Sys2Proof/Laws/Encoding.lean ====
section
/-!
SUPPORT. The laws of bit fields and what the decoder slices from an encoder's word.
-/

-- One elaboration thread: each thread's stack counts against the check's memory limit.
set_option Elab.async false

namespace Sys2Proof

/-- The bits of a word after a field is set. -/
theorem getLsbD_setBits (hi lo : Nat) (v : BitVec (hi - lo + 1)) (w : Word) (i : Nat) (hi32 : i < 32) :
    (setBits hi lo v w).getLsbD i =
      if lo ≤ i ∧ i < lo + (hi - lo + 1) then v.getLsbD (i - lo) else w.getLsbD i := by
  simp only [setBits, BitVec.getLsbD_or, BitVec.getLsbD_and, BitVec.getLsbD_not, BitVec.getLsbD_shiftLeft,
    BitVec.getLsbD_setWidth, BitVec.getLsbD_allOnes, hi32, decide_true, Bool.true_and]
  by_cases h1 : i < lo
  · simp [h1, Nat.not_le.2 h1]
  · by_cases h2 : i - lo < hi - lo + 1
    · have h3 : lo ≤ i ∧ i < lo + (hi - lo + 1) := by omega
      have h4 : i - lo < 32 := by omega
      rw [if_pos h3]
      simp [h1, h2, h4]
    · have h3 : ¬ (lo ≤ i ∧ i < lo + (hi - lo + 1)) := by omega
      have h5 : v.getLsbD (i - lo) = false := BitVec.getLsbD_of_ge v _ (by omega)
      rw [if_neg h3, h5]
      simp [h1, h2]

/-- Reading a field after setting it gives the value. -/
theorem getBits_setBits_same (hi lo : Nat) (h : lo ≤ hi) (h' : hi ≤ 31) (v : BitVec (hi - lo + 1)) (w : Word) :
    getBits hi lo (setBits hi lo v w) = v := by
  apply BitVec.eq_of_getLsbD_eq
  intro i hi'
  rw [getBits, BitVec.getLsbD_extractLsb', getLsbD_setBits _ _ _ _ _ (by omega), if_pos (by omega)]
  simp [hi']

/-- Setting a field leaves every other field alone. -/
theorem getBits_setBits_other (hi lo hi' lo' : Nat) (h : hi < lo' ∨ hi' < lo) (h1 : lo ≤ hi) (h2 : lo' ≤ hi')
    (h3 : hi ≤ 31) (v : BitVec (hi' - lo' + 1)) (w : Word) :
    getBits hi lo (setBits hi' lo' v w) = getBits hi lo w := by
  apply BitVec.eq_of_getLsbD_eq
  intro i hi''
  rw [getBits, getBits, BitVec.getLsbD_extractLsb', BitVec.getLsbD_extractLsb', getLsbD_setBits _ _ _ _ _ (by omega),
    if_neg (by omega)]

theorem toFin_regBits (r : Reg) : BitVec.toFin (regBits r) = r := rfl

/-! ### The fields of the three formats (30_encoding.md R71, R72, R73) -/

section R
variable (fn : BitVec 6) (rs rt rd : Reg) (sh : BitVec 5)

@[simp] theorem opcodeOf_wordR : opcodeOf (wordR fn rs rt rd sh) = 0x00 := by
  simp only [opcodeOf, wordR]
  rw [getBits_setBits_other 31 26 5 0, getBits_setBits_other 31 26 10 6, getBits_setBits_other 31 26 15 11,
    getBits_setBits_other 31 26 20 16, getBits_setBits_other 31 26 25 21, getBits_setBits_same] <;> decide

@[simp] theorem rsOf_wordR : rsOf (wordR fn rs rt rd sh) = rs := by
  simp only [rsOf, wordR]
  rw [getBits_setBits_other 25 21 5 0, getBits_setBits_other 25 21 10 6, getBits_setBits_other 25 21 15 11,
    getBits_setBits_other 25 21 20 16, getBits_setBits_same, toFin_regBits] <;> decide

@[simp] theorem rtOf_wordR : rtOf (wordR fn rs rt rd sh) = rt := by
  simp only [rtOf, wordR]
  rw [getBits_setBits_other 20 16 5 0, getBits_setBits_other 20 16 10 6, getBits_setBits_other 20 16 15 11,
    getBits_setBits_same, toFin_regBits] <;> decide

@[simp] theorem rdOf_wordR : rdOf (wordR fn rs rt rd sh) = rd := by
  simp only [rdOf, wordR]
  rw [getBits_setBits_other 15 11 5 0, getBits_setBits_other 15 11 10 6, getBits_setBits_same, toFin_regBits] <;> decide

@[simp] theorem shamtOf_wordR : shamtOf (wordR fn rs rt rd sh) = sh := by
  simp only [shamtOf, wordR]
  rw [getBits_setBits_other 10 6 5 0, getBits_setBits_same] <;> decide

@[simp] theorem functOf_wordR : functOf (wordR fn rs rt rd sh) = fn := by
  simp only [functOf, wordR]
  rw [getBits_setBits_same] <;> decide

end R

section I
variable (op : BitVec 6) (rs rt : Reg) (imm : BitVec 16)

@[simp] theorem opcodeOf_wordI : opcodeOf (wordI op rs rt imm) = op := by
  simp only [opcodeOf, wordI]
  rw [getBits_setBits_other 31 26 15 0, getBits_setBits_other 31 26 20 16, getBits_setBits_other 31 26 25 21,
    getBits_setBits_same] <;> decide

@[simp] theorem rsOf_wordI : rsOf (wordI op rs rt imm) = rs := by
  simp only [rsOf, wordI]
  rw [getBits_setBits_other 25 21 15 0, getBits_setBits_other 25 21 20 16, getBits_setBits_same, toFin_regBits] <;> decide

@[simp] theorem rtOf_wordI : rtOf (wordI op rs rt imm) = rt := by
  simp only [rtOf, wordI]
  rw [getBits_setBits_other 20 16 15 0, getBits_setBits_same, toFin_regBits] <;> decide

@[simp] theorem immOf_wordI : immOf (wordI op rs rt imm) = imm := by
  simp only [immOf, wordI]
  rw [getBits_setBits_same] <;> decide

end I

section J
variable (op : BitVec 6) (address : BitVec 26)

@[simp] theorem opcodeOf_wordJ : opcodeOf (wordJ op address) = op := by
  simp only [opcodeOf, wordJ]
  rw [getBits_setBits_other 31 26 25 0, getBits_setBits_same] <;> decide

@[simp] theorem addressOf_wordJ : addressOf (wordJ op address) = address := by
  simp only [addressOf, wordJ]
  rw [getBits_setBits_same] <;> decide

end J

/-! ### The decoder by key -/

/-- The decoder on a word that is not zero and whose key selects a row. -/
theorem decode_of_key {w : Word} {o : Op} (h0 : w ≠ 0) (h : Op.ofKey (opcodeOf w) (functOf w) = some o) :
    decode w = .instr (Instr.ofFields o (fieldsOf w)) := by
  simp only [decode, h0, if_false, h]

theorem ne_zero_of_opcode {w : Word} (h : opcodeOf w ≠ 0x00) : w ≠ 0 := by
  rintro rfl; exact h (by decide)

theorem ne_zero_of_funct {w : Word} (h : functOf w ≠ 0x00) : w ≠ 0 := by
  rintro rfl; exact h (by decide)

/-- The decoder on the word of an R row whose `funct` is not 0. -/
theorem decode_wordR {fn : BitVec 6} {o : Op} (h : Op.ofKey 0x00 fn = some o) (h0 : fn ≠ 0x00) (rs rt rd : Reg)
    (sh : BitVec 5) :
    decode (wordR fn rs rt rd sh) = .instr (Instr.ofFields o (fieldsOf (wordR fn rs rt rd sh))) :=
  decode_of_key (ne_zero_of_funct (by simpa using h0)) (by simpa using h)

/-- The decoder on the word of an I row. -/
theorem decode_wordI {op : BitVec 6} {o : Op} (h : ∀ f, Op.ofKey op f = some o) (h0 : op ≠ 0x00) (rs rt : Reg)
    (imm : BitVec 16) :
    decode (wordI op rs rt imm) = .instr (Instr.ofFields o (fieldsOf (wordI op rs rt imm))) :=
  decode_of_key (ne_zero_of_opcode (by simpa using h0)) (by simpa using h _)

/-- The decoder on the word of a J row. -/
theorem decode_wordJ {op : BitVec 6} {o : Op} (h : ∀ f, Op.ofKey op f = some o) (h0 : op ≠ 0x00)
    (address : BitVec 26) :
    decode (wordJ op address) = .instr (Instr.ofFields o (fieldsOf (wordJ op address))) :=
  decode_of_key (ne_zero_of_opcode (by simpa using h0)) (by simpa using h _)

/-- What a decoded word tells: it is not zero, its key selects a row, and the instruction is the row's. -/
theorem decode_instr {w : Word} {i : Instr} (h : decode w = .instr i) :
    w ≠ 0 ∧ ∃ o, Op.ofKey (opcodeOf w) (functOf w) = some o ∧ i = Instr.ofFields o (fieldsOf w) := by
  unfold decode at h
  split at h
  · cases h
  · rename_i h0
    split at h
    · rename_i o ho; cases h; exact ⟨h0, o, ho, rfl⟩
    · split at h <;> cases h

end Sys2Proof
end

