-- ==== Sys2Proof/Laws/State.lean ====
section
/-!
SUPPORT. One lemma per field per update of the state, so that no later proof unfolds a record update.
-/

-- One elaboration thread: each thread's stack counts against the check's memory limit.
set_option Elab.async false

namespace Sys2Proof.Machine

variable (s : State) (r : Reg) (v : Word) (t : Word)

/-! ### Reading registers -/

@[simp] theorem x_zero : s.x 0 = 0 := rfl

theorem x_of_ne (h : r ≠ 0) : s.x r = s.regs[r] := if_neg h

/-! ### `setX` -/

@[simp] theorem setX_zero : s.setX 0 v = s := rfl

theorem setX_of_ne (h : r ≠ 0) : s.setX r v = { s with regs := s.regs.set r v } := if_neg h

@[simp] theorem setX_params : (s.setX r v).params = s.params := by unfold State.setX; split <;> rfl
@[simp] theorem setX_hi : (s.setX r v).hi = s.hi := by unfold State.setX; split <;> rfl
@[simp] theorem setX_lo : (s.setX r v).lo = s.lo := by unfold State.setX; split <;> rfl
@[simp] theorem setX_pc : (s.setX r v).pc = s.pc := by unfold State.setX; split <;> rfl
@[simp] theorem setX_status : (s.setX r v).status = s.status := by unfold State.setX; split <;> rfl
@[simp] theorem setX_cause : (s.setX r v).cause = s.cause := by unfold State.setX; split <;> rfl
@[simp] theorem setX_causeInfo : (s.setX r v).causeInfo = s.causeInfo := by unfold State.setX; split <;> rfl
@[simp] theorem setX_mem : (s.setX r v).mem = s.mem := by unfold State.setX; split <;> rfl
@[simp] theorem setX_host : (s.setX r v).host = s.host := by unfold State.setX; split <;> rfl

/-- A write to register `r` never touches slot 0 of the register file (10_state.md R12). -/
@[simp] theorem setX_slot_zero : (s.setX r v).regs[0] = s.regs[0] := by
  by_cases h : r = 0
  · simp [h]
  · have h' : r.val ≠ 0 := fun e => h (Fin.ext e)
    simp [setX_of_ne s r v h, h']

/-- Read after write (10_state.md R12): register 0 reads 0, register `r` the value, every other as before. -/
theorem x_setX (q : Reg) : (s.setX r v).x q = if q = 0 then 0 else if q = r then v else s.x q := by
  by_cases hq : q = 0
  · simp [hq]
  · by_cases hr : r = 0
    · subst hr; simp [hq]
    · by_cases h : q = r
      · subst h; simp [hq, x_of_ne, setX_of_ne]
      · have h' : r.val ≠ q.val := fun e => h (Fin.ext e.symm)
        simp [hq, h, x_of_ne, setX_of_ne s r v hr, h']

/-! ### `setHi`, `setLo`, `setPc`, `advance` -/

@[simp] theorem setHi_params : (s.setHi v).params = s.params := rfl
@[simp] theorem setHi_regs : (s.setHi v).regs = s.regs := rfl
@[simp] theorem setHi_x : (s.setHi v).x r = s.x r := rfl
@[simp] theorem setHi_hi : (s.setHi v).hi = v := rfl
@[simp] theorem setHi_lo : (s.setHi v).lo = s.lo := rfl
@[simp] theorem setHi_pc : (s.setHi v).pc = s.pc := rfl
@[simp] theorem setHi_status : (s.setHi v).status = s.status := rfl
@[simp] theorem setHi_cause : (s.setHi v).cause = s.cause := rfl
@[simp] theorem setHi_causeInfo : (s.setHi v).causeInfo = s.causeInfo := rfl
@[simp] theorem setHi_mem : (s.setHi v).mem = s.mem := rfl
@[simp] theorem setHi_host : (s.setHi v).host = s.host := rfl

@[simp] theorem setLo_params : (s.setLo v).params = s.params := rfl
@[simp] theorem setLo_regs : (s.setLo v).regs = s.regs := rfl
@[simp] theorem setLo_x : (s.setLo v).x r = s.x r := rfl
@[simp] theorem setLo_hi : (s.setLo v).hi = s.hi := rfl
@[simp] theorem setLo_lo : (s.setLo v).lo = v := rfl
@[simp] theorem setLo_pc : (s.setLo v).pc = s.pc := rfl
@[simp] theorem setLo_status : (s.setLo v).status = s.status := rfl
@[simp] theorem setLo_cause : (s.setLo v).cause = s.cause := rfl
@[simp] theorem setLo_causeInfo : (s.setLo v).causeInfo = s.causeInfo := rfl
@[simp] theorem setLo_mem : (s.setLo v).mem = s.mem := rfl
@[simp] theorem setLo_host : (s.setLo v).host = s.host := rfl

@[simp] theorem setPc_params : (s.setPc t).params = s.params := rfl
@[simp] theorem setPc_regs : (s.setPc t).regs = s.regs := rfl
@[simp] theorem setPc_x : (s.setPc t).x r = s.x r := rfl
@[simp] theorem setPc_hi : (s.setPc t).hi = s.hi := rfl
@[simp] theorem setPc_lo : (s.setPc t).lo = s.lo := rfl
@[simp] theorem setPc_pc : (s.setPc t).pc = t := rfl
@[simp] theorem setPc_status : (s.setPc t).status = s.status := rfl
@[simp] theorem setPc_cause : (s.setPc t).cause = s.cause := rfl
@[simp] theorem setPc_causeInfo : (s.setPc t).causeInfo = s.causeInfo := rfl
@[simp] theorem setPc_mem : (s.setPc t).mem = s.mem := rfl
@[simp] theorem setPc_host : (s.setPc t).host = s.host := rfl

@[simp] theorem advance_params : s.advance.params = s.params := rfl
@[simp] theorem advance_regs : s.advance.regs = s.regs := rfl
@[simp] theorem advance_x : s.advance.x r = s.x r := rfl
@[simp] theorem advance_hi : s.advance.hi = s.hi := rfl
@[simp] theorem advance_lo : s.advance.lo = s.lo := rfl
@[simp] theorem advance_pc : s.advance.pc = s.pc + 4 := rfl
@[simp] theorem advance_status : s.advance.status = s.status := rfl
@[simp] theorem advance_cause : s.advance.cause = s.cause := rfl
@[simp] theorem advance_causeInfo : s.advance.causeInfo = s.causeInfo := rfl
@[simp] theorem advance_mem : s.advance.mem = s.mem := rfl
@[simp] theorem advance_host : s.advance.host = s.host := rfl

/-! ### Memory writes -/

variable (a : Word) (b : Byte)

@[simp] theorem memWrite1_params : (s.memWrite1 a b).params = s.params := rfl
@[simp] theorem memWrite1_regs : (s.memWrite1 a b).regs = s.regs := rfl
@[simp] theorem memWrite1_x : (s.memWrite1 a b).x r = s.x r := rfl
@[simp] theorem memWrite1_hi : (s.memWrite1 a b).hi = s.hi := rfl
@[simp] theorem memWrite1_lo : (s.memWrite1 a b).lo = s.lo := rfl
@[simp] theorem memWrite1_pc : (s.memWrite1 a b).pc = s.pc := rfl
@[simp] theorem memWrite1_status : (s.memWrite1 a b).status = s.status := rfl
@[simp] theorem memWrite1_cause : (s.memWrite1 a b).cause = s.cause := rfl
@[simp] theorem memWrite1_causeInfo : (s.memWrite1 a b).causeInfo = s.causeInfo := rfl
@[simp] theorem memWrite1_mem : (s.memWrite1 a b).mem = s.mem.write a.toNat b := rfl
@[simp] theorem memWrite1_host : (s.memWrite1 a b).host = s.host := rfl

@[simp] theorem memWrite4_params : (s.memWrite4 a v).params = s.params := rfl
@[simp] theorem memWrite4_regs : (s.memWrite4 a v).regs = s.regs := rfl
@[simp] theorem memWrite4_x : (s.memWrite4 a v).x r = s.x r := rfl
@[simp] theorem memWrite4_hi : (s.memWrite4 a v).hi = s.hi := rfl
@[simp] theorem memWrite4_lo : (s.memWrite4 a v).lo = s.lo := rfl
@[simp] theorem memWrite4_pc : (s.memWrite4 a v).pc = s.pc := rfl
@[simp] theorem memWrite4_status : (s.memWrite4 a v).status = s.status := rfl
@[simp] theorem memWrite4_cause : (s.memWrite4 a v).cause = s.cause := rfl
@[simp] theorem memWrite4_causeInfo : (s.memWrite4 a v).causeInfo = s.causeInfo := rfl
@[simp] theorem memWrite4_mem : (s.memWrite4 a v).mem = s.mem.writeBytes a (bytesOfWord s.params.endian v) := rfl
@[simp] theorem memWrite4_host : (s.memWrite4 a v).host = s.host := rfl

/-! ### Traps, halts and the host's side -/

variable (c : Cause) (l : ConsoleLine) (svc : Service)

@[simp] theorem raise_params : (s.raise c v).params = s.params := rfl
@[simp] theorem raise_regs : (s.raise c v).regs = s.regs := rfl
@[simp] theorem raise_x : (s.raise c v).x r = s.x r := rfl
@[simp] theorem raise_hi : (s.raise c v).hi = s.hi := rfl
@[simp] theorem raise_lo : (s.raise c v).lo = s.lo := rfl
@[simp] theorem raise_pc : (s.raise c v).pc = s.pc := rfl
@[simp] theorem raise_status : (s.raise c v).status = .faulted := rfl
@[simp] theorem raise_cause : (s.raise c v).cause = c := rfl
@[simp] theorem raise_causeInfo : (s.raise c v).causeInfo = v := rfl
@[simp] theorem raise_mem : (s.raise c v).mem = s.mem := rfl
@[simp] theorem raise_host :
    (s.raise c v).host = { s.host with console := s.host.console ++ [⟨.error, .trap c v⟩] } := rfl

@[simp] theorem halt_params : s.halt.params = s.params := rfl
@[simp] theorem halt_regs : s.halt.regs = s.regs := rfl
@[simp] theorem halt_x : s.halt.x r = s.x r := rfl
@[simp] theorem halt_hi : s.halt.hi = s.hi := rfl
@[simp] theorem halt_lo : s.halt.lo = s.lo := rfl
@[simp] theorem halt_pc : s.halt.pc = s.pc := rfl
@[simp] theorem halt_status : s.halt.status = .halted := rfl
@[simp] theorem halt_cause : s.halt.cause = s.cause := rfl
@[simp] theorem halt_causeInfo : s.halt.causeInfo = s.causeInfo := rfl
@[simp] theorem halt_mem : s.halt.mem = s.mem := rfl
@[simp] theorem halt_host : s.halt.host = s.host := rfl

@[simp] theorem appendLine_params : (s.appendLine l).params = s.params := rfl
@[simp] theorem appendLine_regs : (s.appendLine l).regs = s.regs := rfl
@[simp] theorem appendLine_x : (s.appendLine l).x r = s.x r := rfl
@[simp] theorem appendLine_hi : (s.appendLine l).hi = s.hi := rfl
@[simp] theorem appendLine_lo : (s.appendLine l).lo = s.lo := rfl
@[simp] theorem appendLine_pc : (s.appendLine l).pc = s.pc := rfl
@[simp] theorem appendLine_status : (s.appendLine l).status = s.status := rfl
@[simp] theorem appendLine_cause : (s.appendLine l).cause = s.cause := rfl
@[simp] theorem appendLine_causeInfo : (s.appendLine l).causeInfo = s.causeInfo := rfl
@[simp] theorem appendLine_mem : (s.appendLine l).mem = s.mem := rfl
@[simp] theorem appendLine_host :
    (s.appendLine l).host = { s.host with console := s.host.console ++ [l] } := rfl

@[simp] theorem countCall_params : s.countCall.params = s.params := rfl
@[simp] theorem countCall_regs : s.countCall.regs = s.regs := rfl
@[simp] theorem countCall_x : s.countCall.x r = s.x r := rfl
@[simp] theorem countCall_hi : s.countCall.hi = s.hi := rfl
@[simp] theorem countCall_lo : s.countCall.lo = s.lo := rfl
@[simp] theorem countCall_pc : s.countCall.pc = s.pc := rfl
@[simp] theorem countCall_status : s.countCall.status = s.status := rfl
@[simp] theorem countCall_cause : s.countCall.cause = s.cause := rfl
@[simp] theorem countCall_causeInfo : s.countCall.causeInfo = s.causeInfo := rfl
@[simp] theorem countCall_mem : s.countCall.mem = s.mem := rfl
@[simp] theorem countCall_host : s.countCall.host = { s.host with calls := s.host.calls + 1 } := rfl

@[simp] theorem suspend_params : (s.suspend svc).params = s.params := rfl
@[simp] theorem suspend_regs : (s.suspend svc).regs = s.regs := rfl
@[simp] theorem suspend_x : (s.suspend svc).x r = s.x r := rfl
@[simp] theorem suspend_hi : (s.suspend svc).hi = s.hi := rfl
@[simp] theorem suspend_lo : (s.suspend svc).lo = s.lo := rfl
@[simp] theorem suspend_pc : (s.suspend svc).pc = s.pc := rfl
@[simp] theorem suspend_status : (s.suspend svc).status = .suspended := rfl
@[simp] theorem suspend_cause : (s.suspend svc).cause = s.cause := rfl
@[simp] theorem suspend_causeInfo : (s.suspend svc).causeInfo = s.causeInfo := rfl
@[simp] theorem suspend_mem : (s.suspend svc).mem = s.mem := rfl
@[simp] theorem suspend_host :
    (s.suspend svc).host =
      { s.host with pending := some ⟨svc, s.host.generation⟩, consoleState := .waitingInput } := rfl

end Sys2Proof.Machine
end

