-- ==== Sys2Proof/Laws/Memory.lean ====
section
/-!
SUPPORT. The laws of memory: a write is read back, leaves every other address alone, and keeps the canonical form.
-/

-- One elaboration thread: each thread's stack counts against the check's memory limit.
set_option Elab.async false

namespace Sys2Proof.Machine

/-! ### The canonical form, one cell at a time -/

theorem wf_nil : Memory.wf [] := ⟨.nil, by simp⟩

theorem wf_cons {k : Nat} {v : Byte} {m : Memory} :
    Memory.wf ((k, v) :: m) ↔ (∀ c ∈ m, k < c.1) ∧ k < 2 ^ 32 ∧ v ≠ 0#8 ∧ Memory.wf m := by
  simp only [Memory.wf, List.pairwise_cons, List.mem_cons, forall_eq_or_imp]
  constructor
  · rintro ⟨⟨h1, h2⟩, ⟨h3, h4⟩, h5⟩; exact ⟨h1, h3, h4, h2, h5⟩
  · rintro ⟨h1, h3, h4, h2, h5⟩; exact ⟨⟨h1, h2⟩, ⟨h3, h4⟩, h5⟩

/-- An address below every listed one reads 0x00. -/
theorem read_below {m : Memory} {a : Nat} (h : ∀ c ∈ m, a < c.1) : m.read a = 0#8 := by
  cases m with
  | nil => rfl
  | cons c m =>
    obtain ⟨k, v⟩ := c
    have : a < k := h (k, v) (by simp)
    simp [Memory.read, this]

/-! ### One byte -/

theorem read_write_same {m : Memory} (h : m.wf) (a : Nat) (b : Byte) : (m.write a b).read a = b := by
  induction m with
  | nil => by_cases hb : b = 0#8 <;> simp [Memory.write, Memory.read, hb]
  | cons c m ih =>
    obtain ⟨k, v⟩ := c
    obtain ⟨h1, -, -, h4⟩ := wf_cons.1 h
    simp only [Memory.write]
    by_cases hlt : a < k
    · by_cases hb : b = 0#8 <;> simp [hlt, hb, Memory.read]
    · by_cases he : a = k
      · subst he
        by_cases hb : b = 0#8
        · simpa [hb] using read_below h1
        · simp [hb, Memory.read]
      · simp [hlt, he, Memory.read, ih h4]

theorem read_write_other {m : Memory} (h : m.wf) {a a' : Nat} (b : Byte) (ha : a' ≠ a) :
    (m.write a b).read a' = m.read a' := by
  induction m with
  | nil =>
    by_cases hb : b = 0#8
    · simp [Memory.write, hb]
    · simp [Memory.write, Memory.read, hb, ha]
  | cons c m ih =>
    obtain ⟨k, v⟩ := c
    obtain ⟨h1, -, -, h4⟩ := wf_cons.1 h
    simp only [Memory.write]
    by_cases hlt : a < k
    · by_cases hb : b = 0#8
      · simp [hlt, hb]
      · simp only [hlt, hb, if_true, if_false, Memory.read, ha]
        by_cases h' : a' < a
        · simp [h', show a' < k by omega]
        · simp [h']
    · by_cases he : a = k
      · subst he
        by_cases hb : b = 0#8
        · simp only [hlt, hb, if_true, if_false, Memory.read, ha]
          by_cases h' : a' < a
          · simp only [h', if_true]
            exact read_below fun c hc => Nat.lt_trans h' (h1 c hc)
          · simp [h']
        · simp [hb, Memory.read, ha]
      · simp only [hlt, he, if_false, Memory.read]
        rw [ih h4]

theorem mem_write {m : Memory} {a : Nat} {b : Byte} {c : Host.Cell} (h : c ∈ m.write a b) :
    c ∈ m ∨ (c = (a, b) ∧ b ≠ 0#8) := by
  induction m with
  | nil => by_cases hb : b = 0#8 <;> simp_all [Memory.write]
  | cons d m ih =>
    obtain ⟨k, v⟩ := d
    simp only [Memory.write] at h
    split at h
    · split at h
      · exact .inl h
      · rename_i hb
        rcases List.mem_cons.1 h with rfl | h
        · exact .inr ⟨rfl, hb⟩
        · exact .inl h
    · split at h
      · split at h
        · exact .inl (by simp [h])
        · rename_i hb
          rcases List.mem_cons.1 h with rfl | h
          · exact .inr ⟨rfl, hb⟩
          · exact .inl (by simp [h])
      · rcases List.mem_cons.1 h with rfl | h
        · exact .inl (by simp)
        · rcases ih h with h | h
          · exact .inl (by simp [h])
          · exact .inr h

/-- A write keeps the canonical form. -/
theorem wf_write {m : Memory} (h : m.wf) {a : Nat} (ha : a < 2 ^ 32) (b : Byte) : (m.write a b).wf := by
  induction m with
  | nil =>
    by_cases hb : b = 0#8
    · simpa [Memory.write, hb] using wf_nil
    · simp only [Memory.write, hb, if_false]
      exact wf_cons.2 ⟨by simp, ha, hb, wf_nil⟩
  | cons c m ih =>
    obtain ⟨k, v⟩ := c
    obtain ⟨h1, h2, h3, h4⟩ := wf_cons.1 h
    simp only [Memory.write]
    split
    · rename_i hlt
      split
      · exact h
      · rename_i hb
        refine wf_cons.2 ⟨fun c hc => ?_, ha, hb, h⟩
        rcases List.mem_cons.1 hc with rfl | hc
        · exact hlt
        · exact Nat.lt_trans hlt (h1 c hc)
    · rename_i hlt
      split
      · rename_i he
        split
        · exact h4
        · rename_i hb
          exact wf_cons.2 ⟨fun c hc => he ▸ h1 c hc, ha, hb, h4⟩
      · rename_i he
        refine wf_cons.2 ⟨fun c hc => ?_, h2, h3, ih h4⟩
        rcases mem_write hc with hc | ⟨rfl, -⟩
        · exact h1 c hc
        · show k < a
          omega

/-! ### Consecutive bytes -/

theorem wf_writeBytes {m : Memory} (h : m.wf) (a : Word) (bs : List Byte) : (m.writeBytes a bs).wf := by
  induction bs generalizing m a with
  | nil => exact h
  | cons b bs ih => exact ih (wf_write h a.isLt b) (a + 1)

/-- A byte the list does not reach reads as before. -/
theorem read_writeBytes_other {m : Memory} (h : m.wf) (a : Word) (bs : List Byte) (a' : Word)
    (ha : ∀ k, k < bs.length → a' ≠ a + BitVec.ofNat 32 k) : (m.writeBytes a bs).read a'.toNat = m.read a'.toNat := by
  induction bs generalizing m a with
  | nil => rfl
  | cons b bs ih =>
    have h0 : a' ≠ a := by simpa using ha 0 (by simp)
    rw [Memory.writeBytes, ih (wf_write h a.isLt b) (a + 1), read_write_other h b fun e => h0 (BitVec.eq_of_toNat_eq e)]
    intro k hk e
    refine ha (k + 1) (by simpa using hk) ?_
    rw [e, BitVec.add_assoc, BitVec.ofNat_add, BitVec.add_comm (BitVec.ofNat 32 k)]
    rfl

/-- The first byte of the list is read back where the list does not come round to it again. -/
theorem read_writeBytes_head {m : Memory} (h : m.wf) (a : Word) (b : Byte) (bs : List Byte) (hl : bs.length < 2 ^ 32 - 1) :
    (m.writeBytes a (b :: bs)).read a.toNat = b := by
  rw [Memory.writeBytes, read_writeBytes_other (wf_write h a.isLt b), read_write_same h]
  intro k hk e
  have : (a + 1 + BitVec.ofNat 32 k - a).toNat = 0 := by rw [← e]; simp
  rw [show a + 1 + BitVec.ofNat 32 k - a = BitVec.ofNat 32 (k + 1) by
    rw [BitVec.ofNat_add, BitVec.add_comm a, BitVec.add_assoc, BitVec.add_comm a, ← BitVec.add_assoc,
      BitVec.add_sub_cancel, BitVec.add_comm]; rfl] at this
  rw [BitVec.toNat_ofNat, Nat.mod_eq_of_lt (by omega)] at this
  omega

/-! ### The machine's accesses -/

theorem memRead1_memWrite1 {s : State} (h : s.mem.wf) (a a' : Word) (b : Byte) :
    (s.memWrite1 a b).memRead1 a' = if a' = a then b else s.memRead1 a' := by
  by_cases e : a' = a
  · subst e; simpa [State.memRead1] using read_write_same h _ b
  · simpa [State.memRead1, e] using read_write_other h b fun h' => e (BitVec.eq_of_toNat_eq h')

theorem memRead1_congr {s t : State} (h : t.mem = s.mem) (a : Word) : t.memRead1 a = s.memRead1 a := by
  simp [State.memRead1, h]

end Sys2Proof.Machine
end

