-- ==== Sys2Proof/Laws/Ops.lean ====
section
/-!
SUPPORT. What each shared operation of the meanings can do, said once; later proofs cite these and do not unfold the
operations.
-/

-- One elaboration thread: each thread's stack counts against the check's memory limit.
set_option Elab.async false

namespace Sys2Proof.Machine

/-! ### Frames compose from equal fields -/

theorem SameMemory.of_mem {s t : State} (h : t.mem = s.mem) : SameMemory s t := memRead1_congr h

theorem SameRegs.of_regs {s t : State} (h : t.regs = s.regs) : SameRegs s t := fun r => by
  simp [State.x, h]

/-! ### Ends of instructions -/

theorem writesReg_setX_advance (s : State) (rd : Reg) (v : Word) : WritesReg s (s.setX rd v).advance rd v where
  regs := fun q => by simp [x_setX]
  hiLo := by simp [SameHiLo]
  pc := by simp
  memory := .of_mem (by simp)
  control := ⟨by simp, by simp, by simp, by simp, by simp⟩

theorem writeResult_eq (rd : Reg) (v : Word) (s : State) : writeResult rd v s = .next (s.setX rd v).advance := rfl

/-- `writeResult` completes, writes the one register and advances. -/
theorem writeResult_completes (rd : Reg) (v : Word) (s : State) :
    ∃ t, writeResult rd v s = .next t ∧ WritesReg s t rd v :=
  ⟨_, rfl, writesReg_setX_advance s rd v⟩

theorem writeHiLo_eq (h l : Word) (s : State) : writeHiLo h l s = .next ((s.setHi h).setLo l).advance := rfl

/-- `writeHiLo` completes, writes `hi` and `lo` and advances. -/
theorem writeHiLo_completes (h l : Word) (s : State) :
    ∃ t, writeHiLo h l s = .next t ∧ WritesHiLo s t h l :=
  ⟨_, rfl, ⟨.of_regs rfl, rfl, rfl, rfl, .of_mem rfl, ⟨rfl, rfl, rfl, rfl, rfl⟩⟩⟩

theorem jumps_setPc (s : State) (target : Word) : Jumps s (s.setPc target) target :=
  ⟨.of_regs rfl, ⟨rfl, rfl⟩, rfl, .of_mem rfl, ⟨rfl, rfl, rfl, rfl, rfl⟩⟩

theorem jumpsAndLinks_setX_setPc (s : State) (rd : Reg) (v target : Word) :
    JumpsAndLinks s ((s.setX rd v).setPc target) rd v target where
  regs := fun q => by simp [x_setX]
  hiLo := by simp [SameHiLo]
  pc := by simp
  memory := .of_mem (by simp)
  control := ⟨by simp, by simp, by simp, by simp, by simp⟩

/-- `branchIf` completes at the target or at the next word. -/
theorem branchIf_completes (taken : Bool) (imm : BitVec 16) (s : State) :
    ∃ t, branchIf taken imm s = .next t ∧ Jumps s t (if taken then branchTarget s.pc imm else s.pc + 4) := by
  cases taken
  · exact ⟨_, rfl, jumps_setPc s _⟩
  · exact ⟨_, rfl, jumps_setPc s _⟩

/-! ### Traps and halts -/

theorem traps_raise (s : State) (c : Cause) (info : Word) : Traps s (s.raise c info) c info :=
  ⟨.of_regs rfl, ⟨rfl, rfl⟩, rfl, .of_mem rfl, rfl, rfl, rfl, rfl, rfl⟩

theorem halts_halt (s : State) : Halts s s.halt :=
  ⟨.of_regs rfl, ⟨rfl, rfl⟩, rfl, .of_mem rfl, rfl, rfl, rfl, rfl, rfl⟩

/-- `writeOrTrap` in range. -/
theorem writeOrTrap_in_range {r : Int} (h : -2 ^ 31 ≤ r ∧ r ≤ 2 ^ 31 - 1) (rd : Reg) (s : State) :
    writeOrTrap rd r s = writeResult rd (BitVec.ofInt 32 r) s := by
  simp only [writeOrTrap, inSignedRange, h, and_self, decide_true, if_true]

/-- `writeOrTrap` out of range. -/
theorem writeOrTrap_out_of_range {r : Int} (h : r < -2 ^ 31 ∨ 2 ^ 31 - 1 < r) (rd : Reg) (s : State) :
    writeOrTrap rd r s = .next (s.raise .overflow 0) := by
  have h' : ¬ (-2 ^ 31 ≤ r ∧ r ≤ 2 ^ 31 - 1) := by omega
  simp only [writeOrTrap, inSignedRange, h', decide_false, Bool.false_eq_true, if_false, State.raiseOverflow]

/-! ### Stores -/

theorem storesAt_memWrite1 {s : State} (h : s.mem.wf) (ea : Word) (b : Byte) :
    StoresAt s (s.memWrite1 ea b).advance ea 1 where
  regs := .of_regs rfl
  hiLo := ⟨rfl, rfl⟩
  pc := rfl
  memory := fun a ha => by
    have h0 : a ≠ ea := by simpa using ha 0 (by omega)
    exact (memRead1_memWrite1 h ea a b).trans (if_neg h0)
  control := ⟨rfl, rfl, rfl, rfl, rfl⟩

theorem storesAt_memWrite4 {s : State} (h : s.mem.wf) (ea v : Word) :
    StoresAt s (s.memWrite4 ea v).advance ea 4 where
  regs := .of_regs rfl
  hiLo := ⟨rfl, rfl⟩
  pc := rfl
  memory := fun a ha => read_writeBytes_other h ea _ a ha
  control := ⟨rfl, rfl, rfl, rfl, rfl⟩

/-- The byte a word's write puts at `addr + k` is read back there (20_memory.md R47). -/
theorem memRead1_memWrite4 {s : State} (h : s.mem.wf) (addr v : Word) (k : Fin 4) :
    (s.memWrite4 addr v).memRead1 (addr + BitVec.ofNat 32 k.val) = byteOfWord s.params.endian v k := by
  let e := s.params.endian
  let m1 := s.mem.write addr.toNat (byteOfWord e v 0)
  let m2 := m1.write (addr + 1).toNat (byteOfWord e v 1)
  let m3 := m2.write (addr + 1 + 1).toNat (byteOfWord e v 2)
  have w1 : m1.wf := wf_write h addr.isLt _
  have w2 : m2.wf := wf_write w1 (addr + 1).isLt _
  have w3 : m3.wf := wf_write w2 (addr + 1 + 1).isLt _
  show Memory.read (m3.write (addr + 1 + 1 + 1).toNat (byteOfWord e v 3)) _ = _
  have ne : ∀ i j : Nat, i < 4 → j < 4 → i ≠ j →
      (addr + BitVec.ofNat 32 i).toNat ≠ (addr + BitVec.ofNat 32 j).toNat := by
    intro i j hi hj hij e'
    simp only [BitVec.toNat_add, BitVec.toNat_ofNat] at e'
    omega
  have a0 : addr = addr + BitVec.ofNat 32 0 := by simp
  have a1 : addr + 1 = addr + BitVec.ofNat 32 1 := rfl
  have a2 : addr + 1 + 1 = addr + BitVec.ofNat 32 2 := by rw [BitVec.add_assoc]; rfl
  have a3 : addr + 1 + 1 + 1 = addr + BitVec.ofNat 32 3 := by rw [BitVec.add_assoc, BitVec.add_assoc]; rfl
  match k with
  | 0 =>
    rw [read_write_other w3 _ (by rw [a3]; exact ne 0 3 (by omega) (by omega) (by omega)),
      read_write_other w2 _ (by rw [a2]; exact ne 0 2 (by omega) (by omega) (by omega)),
      read_write_other w1 _ (by rw [a1]; exact ne 0 1 (by omega) (by omega) (by omega))]
    show Memory.read m1 (addr + BitVec.ofNat 32 0).toNat = _
    rw [← a0, read_write_same h]
  | 1 =>
    rw [read_write_other w3 _ (by rw [a3]; exact ne 1 3 (by omega) (by omega) (by omega)),
      read_write_other w2 _ (by rw [a2]; exact ne 1 2 (by omega) (by omega) (by omega))]
    exact read_write_same w1 _ _
  | 2 =>
    rw [read_write_other w3 _ (by rw [a3]; exact ne 2 3 (by omega) (by omega) (by omega))]
    show Memory.read m3 (addr + BitVec.ofNat 32 2).toNat = _
    rw [← a2, read_write_same w2]
  | 3 =>
    show Memory.read _ (addr + BitVec.ofNat 32 3).toNat = _
    rw [← a3, read_write_same w3]

theorem and_getLsbD_of (v : Word) {p : Prop} [Decidable p] {i j : Nat} (hp : p) (h : i = j) :
    (decide p && v.getLsbD i) = v.getLsbD j := by
  simp [hp, h]

/-- A word read back from its four bytes is the word, in either byte order (20_memory.md R45, R47). -/
theorem wordOfBytes_byteOfWord (e : Endian) (v : Word) :
    wordOfBytes e (byteOfWord e v 0) (byteOfWord e v 1) (byteOfWord e v 2) (byteOfWord e v 3) = v := by
  apply BitVec.eq_of_getLsbD_eq
  intro i hi
  have h2 : ((2 : Fin 4) : Nat) = 2 := rfl
  have h3 : ((3 : Fin 4) : Nat) = 3 := rfl
  cases e <;> simp only [wordOfBytes, byteOfWord, BitVec.getLsbD_append, BitVec.getLsbD_extractLsb', Fin.val_zero,
    Fin.val_one, h2, h3] <;> (repeat' split) <;> exact and_getLsbD_of v (by omega) (by omega)

/-- A word written is read back, in either byte order, at any alignment (20_memory.md R47). -/
theorem memRead4_memWrite4 {s : State} (h : s.mem.wf) (a v : Word) : (s.memWrite4 a v).memRead4 a = v := by
  have h0 := memRead1_memWrite4 h a v 0
  have h1 := memRead1_memWrite4 h a v 1
  have h2 := memRead1_memWrite4 h a v 2
  have h3 := memRead1_memWrite4 h a v 3
  rw [show a + BitVec.ofNat 32 (0 : Fin 4).val = a by simp] at h0
  change (s.memWrite4 a v).memRead1 (a + 1) = _ at h1
  change (s.memWrite4 a v).memRead1 (a + 2) = _ at h2
  change (s.memWrite4 a v).memRead1 (a + 3) = _ at h3
  unfold State.memRead4
  rw [h0, h1, h2, h3]
  exact wordOfBytes_byteOfWord _ _

/-! ### Immediates and targets (30_encoding.md R75, R76) -/

theorem sextImm_toInt (imm : BitVec 16) : (sextImm imm).toInt = imm.toInt := by
  have h1 := BitVec.toInt_lt (x := imm)
  have h2 := BitVec.le_toInt (x := imm)
  rw [sextImm, BitVec.toInt_signExtend, show min 32 16 = 16 from rfl, show 2 ^ 16 = 65536 from rfl]
  exact Int.bmod_eq_of_le (by omega) (by omega)

theorem sextImm_toNat (imm : BitVec 16) : ((sextImm imm).toNat : Int) = imm.toInt % 2 ^ 32 := by
  have h := (sextImm imm).isLt
  rw [← sextImm_toInt, BitVec.toInt_eq_toNat_cond]
  split <;> omega

theorem branchTarget_eq (pc : Word) (imm : BitVec 16) :
    branchTarget pc imm = BitVec.ofInt 32 (pc.toNat + 4 + 4 * imm.toInt) := by
  apply BitVec.eq_of_toNat_eq
  have h := sextImm_toNat imm
  rw [BitVec.toNat_ofInt, show branchTarget pc imm = pc + 4#32 + (sextImm imm <<< 2) from rfl, BitVec.toNat_add,
    BitVec.toNat_add, BitVec.toNat_shiftLeft, Nat.shiftLeft_eq, show (4#32).toNat = 4 from rfl]
  omega

/-! ### The environment call -/

theorem lastWrite_cons {α β : Type} [BEq α] (p : α × β) (l : List (α × β)) (k : α) :
    lastWrite (p :: l) k = (lastWrite l k).or (if k == p.1 then some p.2 else none) := by
  obtain ⟨a, b⟩ := p
  simp [lastWrite, List.lookup_append, List.lookup_cons]
  cases h : k == a <;> simp

/-- A service's register writes touch nothing but registers 1 to 31. -/
theorem foldl_setX_frame (l : List (Reg × Word)) (s : State) :
    ∃ regs : Vector Word 32, l.foldl (fun t p => t.setX p.1 p.2) s = { s with regs := regs } ∧ regs[0] = s.regs[0] := by
  induction l generalizing s with
  | nil => exact ⟨s.regs, rfl, rfl⟩
  | cons p l ih =>
    obtain ⟨regs, h, h0⟩ := ih (s.setX p.1 p.2)
    refine ⟨regs, ?_, by simpa using h0⟩
    rw [List.foldl_cons, h]
    unfold State.setX
    split <;> rfl

theorem foldl_setX_x (l : List (Reg × Word)) (s : State) (q : Reg) :
    (l.foldl (fun t p => t.setX p.1 p.2) s).x q = if q = 0 then 0 else (lastWrite l q).getD (s.x q) := by
  induction l generalizing s with
  | nil => by_cases hq : q = 0 <;> simp [hq, lastWrite]
  | cons p l ih =>
    rw [List.foldl_cons, ih, lastWrite_cons, x_setX]
    by_cases hq : q = 0
    · simp [hq]
    · by_cases hp : q = p.1 <;> cases h : lastWrite l q <;> simp_all

/-- A service's memory writes touch nothing but memory. -/
theorem foldl_memWrite1_frame (l : List (Word × Byte)) (s : State) :
    ∃ m : Memory, l.foldl (fun t p => t.memWrite1 p.1 p.2) s = { s with mem := m } ∧ (s.mem.wf → m.wf) := by
  induction l generalizing s with
  | nil => exact ⟨s.mem, rfl, id⟩
  | cons p l ih =>
    obtain ⟨m, h, hw⟩ := ih (s.memWrite1 p.1 p.2)
    exact ⟨m, h, fun w => hw (wf_write w p.1.isLt p.2)⟩

theorem foldl_memWrite1_read (l : List (Word × Byte)) {s : State} (h : s.mem.wf) (a : Word) :
    (l.foldl (fun t p => t.memWrite1 p.1 p.2) s).memRead1 a = (lastWrite l a).getD (s.memRead1 a) := by
  induction l generalizing s with
  | nil => simp [lastWrite]
  | cons p l ih =>
    rw [List.foldl_cons, ih (wf_write h p.1.isLt p.2), lastWrite_cons, memRead1_memWrite1 h]
    by_cases hp : a = p.1 <;> cases h : lastWrite l a <;> simp [hp]

/-- Committing a service's writes changes registers, `hi`, `lo` and memory and nothing else, keeps slot 0 and keeps
memory canonical. -/
theorem commit_frame (s : State) (w : ServiceWrites) :
    ∃ (regs : Vector Word 32) (h l : Word) (m : Memory),
      s.commit w = { s with regs := regs, hi := h, lo := l, mem := m } ∧ regs[0] = s.regs[0] ∧ (s.mem.wf → m.wf) := by
  obtain ⟨regs, hr, h0⟩ := foldl_setX_frame w.regs s
  unfold State.commit
  simp only [hr]
  cases w.hi <;> cases w.lo <;>
    obtain ⟨m, hm, hw⟩ := foldl_memWrite1_frame w.mem _ <;>
    exact ⟨regs, _, _, m, hm, h0, hw⟩

/-- What the writes leave. -/
theorem commit_commits {s : State} (h : s.mem.wf) (w : ServiceWrites) : Commits s (s.commit w) w := by
  obtain ⟨regs, hr, h0⟩ := foldl_setX_frame w.regs s
  have hx := foldl_setX_x w.regs s
  rw [hr] at hx
  unfold State.commit
  simp only [hr]
  cases hh : w.hi <;> cases hl : w.lo <;>
    refine ⟨fun r => ?_, ?_, ?_, fun a => foldl_memWrite1_read w.mem (by exact h) a⟩ <;>
    obtain ⟨m, hm, -⟩ := foldl_memWrite1_frame w.mem _ <;> rw [hm] <;>
    first
    | exact hx r
    | simp [hh, hl]

theorem appendLines_eq (ls : List (LineKind × List Byte)) (s : State) :
    s.appendLines ls = { s with host := { s.host with console := s.host.console ++ consoleLines ls } } := by
  unfold State.appendLines
  induction ls generalizing s with
  | nil => simp [consoleLines]
  | cons l ls ih => rw [List.foldl_cons, ih]; simp [State.appendLine, consoleLines, List.append_assoc]

end Sys2Proof.Machine
end

