-- ==== Sys2Proof/Laws/Exec.lean ====
section
/-!
SUPPORT. What one instruction can do, said once for all instructions.
-/

-- One elaboration thread: each thread's stack counts against the check's memory limit.
set_option Elab.async false

namespace Sys2Proof.Machine

/-- What every instruction but a trapping one and `syscall` leaves: the control part is as before, slot 0 of the
register file is untouched, and memory stays canonical. -/
structure Ordinary (s t : State) : Prop where
  control : SameControl s t
  zero : t.regs[0] = s.regs[0]
  memory : s.mem.wf → t.mem.wf

theorem ordinary_writeResult (rd : Reg) (v : Word) (s : State) :
    ∃ t, writeResult rd v s = .next t ∧ Ordinary s t :=
  ⟨_, rfl, ⟨by simp, by simp, by simp, by simp, by simp⟩, by simp, fun h => by simpa using h⟩

theorem ordinary_writeHiLo (h l : Word) (s : State) : ∃ t, writeHiLo h l s = .next t ∧ Ordinary s t :=
  ⟨_, rfl, ⟨rfl, rfl, rfl, rfl, rfl⟩, rfl, id⟩

theorem ordinary_branchIf (taken : Bool) (imm : BitVec 16) (s : State) :
    ∃ t, branchIf taken imm s = .next t ∧ Ordinary s t := by
  cases taken <;> exact ⟨_, rfl, ⟨rfl, rfl, rfl, rfl, rfl⟩, rfl, id⟩

theorem writeOrTrap_cases (rd : Reg) (r : Int) (s : State) :
    (∃ t, writeOrTrap rd r s = .next t ∧ Ordinary s t) ∨ writeOrTrap rd r s = .next (s.raise .overflow 0) := by
  unfold writeOrTrap
  split
  · exact .inl (ordinary_writeResult rd _ s)
  · exact .inr rfl

/-- Every instruction completes ordinarily, or is `add`, `sub` or `addi` and traps, or is the environment call. -/
theorem exec_cases (i : Instr) (s : State) :
    (∃ t, exec i s = .next t ∧ Ordinary s t) ∨
      (exec i s = .next (s.raise .overflow 0) ∧
        ∃ rd rs rt imm, i = .add rd rs rt ∨ i = .sub rd rs rt ∨ i = .addi rd rs imm) ∨
      i = .syscall := by
  cases i with
  | add rd rs rt => exact (writeOrTrap_cases rd _ s).imp_right fun h => .inl ⟨h, rd, rs, rt, 0, .inl rfl⟩
  | sub rd rs rt => exact (writeOrTrap_cases rd _ s).imp_right fun h => .inl ⟨h, rd, rs, rt, 0, .inr (.inl rfl)⟩
  | addi rt rs imm => exact (writeOrTrap_cases rt _ s).imp_right fun h => .inl ⟨h, rt, rs, 0, imm, .inr (.inr rfl)⟩
  | syscall => exact .inr (.inr rfl)
  | mult rs rt => exact .inl (ordinary_writeHiLo _ _ s)
  | multu rs rt => exact .inl (ordinary_writeHiLo _ _ s)
  | div rs rt => exact .inl (ordinary_writeHiLo _ _ s)
  | divu rs rt => exact .inl (ordinary_writeHiLo _ _ s)
  | mthi rs => exact .inl ⟨_, rfl, ⟨rfl, rfl, rfl, rfl, rfl⟩, rfl, id⟩
  | mtlo rs => exact .inl ⟨_, rfl, ⟨rfl, rfl, rfl, rfl, rfl⟩, rfl, id⟩
  | sb rt imm rs => exact .inl ⟨_, rfl, ⟨rfl, rfl, rfl, rfl, rfl⟩, rfl, fun h => wf_write h (BitVec.isLt _) _⟩
  | sw rt imm rs => exact .inl ⟨_, rfl, ⟨rfl, rfl, rfl, rfl, rfl⟩, rfl, fun h => wf_writeBytes h _ _⟩
  | beq rs rt imm => exact .inl (ordinary_branchIf _ _ s)
  | bne rs rt imm => exact .inl (ordinary_branchIf _ _ s)
  | blez rs imm => exact .inl (ordinary_branchIf _ _ s)
  | bgtz rs imm => exact .inl (ordinary_branchIf _ _ s)
  | j address => exact .inl ⟨_, rfl, ⟨rfl, rfl, rfl, rfl, rfl⟩, rfl, id⟩
  | jr rs => exact .inl ⟨_, rfl, ⟨rfl, rfl, rfl, rfl, rfl⟩, rfl, id⟩
  | jal address =>
    exact .inl ⟨_, rfl, ⟨by simp, by simp, by simp, by simp, by simp⟩, by simp, fun h => by simpa using h⟩
  | jalr rd rs =>
    exact .inl ⟨_, rfl, ⟨by simp, by simp, by simp, by simp, by simp⟩, by simp, fun h => by simpa using h⟩
  | _ => exact .inl (ordinary_writeResult _ _ s)

/-- The environment call answers the trap or the served state (45_system.md R190). -/
theorem execSyscall_cases (s : State) :
    (s.serviceOf (s.x 2) = none ∧ execSyscall s = .next (s.raise .syscallNotImplemented (s.x 2))) ∨
      ∃ svc, s.serviceOf (s.x 2) = some svc ∧ execSyscall s = .next (s.serve svc) := by
  simp only [execSyscall, Config.syscallCodeReg]
  cases h : s.serviceOf (s.x 2) with
  | none => exact .inl ⟨rfl, rfl⟩
  | some svc => exact .inr ⟨svc, rfl, rfl⟩

/-- What serving a call leaves, by the outcome the service answers (45_system.md R190). -/
theorem serve_cases (s : State) (svc : Service) :
    let a := serviceAnswer svc s
    let host := { s.host with calls := s.host.calls + 1, console := s.host.console ++ consoleLines a.lines }
    let u : State := ({ s with host := host } : State).commit a.writes
    (a.outcome = .proceed ∧ s.serve svc = { u with pc := u.pc + 4 }) ∨
      (a.outcome = .exit ∧ s.serve svc = { u with pc := u.pc + 4, status := .halted }) ∨
      (a.outcome = .block ∧
        s.serve svc =
          { s with
            status := .suspended
            host := { host with pending := some ⟨svc, s.host.generation⟩, consoleState := .waitingInput } }) := by
  simp only [State.serve, appendLines_eq]
  cases (serviceAnswer svc s).outcome
  · exact .inl ⟨rfl, rfl⟩
  · exact .inr (.inl ⟨rfl, rfl⟩)
  · exact .inr (.inr ⟨rfl, rfl⟩)

/-- A step of a stopped core changes nothing; a step of a running core halts or executes (10_state.md R30). -/
theorem step_cases (s : State) :
    (s.status ≠ .running ∧ step s = .next s) ∨
      (s.status = .running ∧ (∃ why, decode s.fetch = .invalid why) ∧ step s = .next s.halt) ∨
      (s.status = .running ∧ ∃ i, decode s.fetch = .instr i ∧ step s = exec i s) := by
  unfold step
  cases hs : s.status with
  | running =>
    cases hd : decode s.fetch with
    | instr i => exact .inr (.inr ⟨rfl, i, rfl, rfl⟩)
    | invalid why => exact .inr (.inl ⟨rfl, ⟨why, rfl⟩, rfl⟩)
  | halted => exact .inl ⟨by simp, rfl⟩
  | suspended => exact .inl ⟨by simp, rfl⟩
  | faulted => exact .inl ⟨by simp, rfl⟩

end Sys2Proof.Machine
end

