-- ==== Sys2Proof/Laws/Host.lean ====
section
/-!
SUPPORT. What the host's resumption can do, said once, and the small lemmas of operand sugar.
-/

-- One elaboration thread: each thread's stack counts against the check's memory limit.
set_option Elab.async false

namespace Sys2Proof.Machine

/-- A resumption does nothing, or, with the present token and a pending call of a suspended core, it appends the lines
of the service's reply and either an error line or the service's writes (45_system.md R191, R192). -/
theorem hostResume_cases (input : List Char) (token : Nat) (s : State) :
    ((token ≠ s.host.generation ∨ s.status ≠ .suspended ∨ s.host.pending = none) ∧ hostResume input token s = s) ∨
      (token = s.host.generation ∧ s.status = .suspended ∧ ∃ c, s.host.pending = some c ∧
        let r := serviceReply c.service s input
        let host :=
          { s.host with calls := s.host.calls + 1, console := s.host.console ++ consoleLines r.lines }
        (r.writes = none ∧
          hostResume input token s =
            { s with host := { host with console := host.console ++ [⟨.error, .inputError⟩] } }) ∨
        ∃ w, r.writes = some w ∧
          hostResume input token s =
            { ((({ s with host := host } : State).commit w).advance.clearPending) with status := .running }) := by
  by_cases ht : token = s.host.generation
  · by_cases hs : s.status = .suspended
    · cases hp : s.host.pending with
      | none => exact .inl ⟨.inr (.inr rfl), by simp [hostResume, ht, hs, hp]⟩
      | some c =>
        refine .inr ⟨ht, hs, c, rfl, ?_⟩
        cases hw : (serviceReply c.service s input).writes with
        | none =>
          exact .inl ⟨hw, by simp [hostResume, ht, hs, hp, hw, appendLines_eq, State.countCall, State.appendLine]⟩
        | some w =>
          exact .inr ⟨w, hw, by simp [hostResume, ht, hs, hp, hw, appendLines_eq, State.countCall]⟩
    · refine .inl ⟨.inr (.inl hs), ?_⟩
      unfold hostResume
      split
      · rfl
      · split
        · exact absurd ‹_› hs
        · rfl
  · exact .inl ⟨.inl ht, by simp [hostResume, ht]⟩

end Sys2Proof.Machine

namespace Sys2Proof.Asm

/-- With `ALLOW_LITERALS` off sugar leaves every statement as it is (50_assembler.md R235). -/
@[simp] theorem desugar_off (st : Stmt) : desugar false st = [st] := rfl

/-- With it on, the rewritings are those of `sugar` (50_assembler.md R235). -/
@[simp] theorem desugar_on (st : Stmt) : desugar true st = sugar st := rfl

/-- A statement with a catalog mnemonic always expands; what is wrong with its operands is the encoder's to find
(50_assembler.md R220, 30_encoding.md R88). -/
theorem expandStatement_catalog {cfg : Settings} {head : Text} {o : Op} (h : opOfName head = some o)
    (args : List Text) :
    expandStatement cfg head args = .ok (desugar cfg.allowLiterals ⟨o, args.map parseOperand⟩) := by
  simp [expandStatement, h]

end Sys2Proof.Asm
end

