-- ==== Sys2Proof/Laws/PerInstr.lean ====
section
/-!
SUPPORT. Facts about every instruction as syntax, one lemma per constructor.

`FieldsRoundTrip`: the fields an instruction's operands fill give the instruction back (30_encoding.md R86).
`KeySelectsRow`: the opcode and funct of an instruction's word select its own row (30_encoding.md R82).
-/

-- One elaboration thread: each thread's stack counts against the check's memory limit.
set_option Elab.async false

namespace Sys2Proof.Laws

/-- The row makes the instruction again from the fields its operands fill. -/
def FieldsRoundTrip.Statement (i : Instr) : Prop := Instr.ofFields i.op i.fields = i

/-- The key of the instruction's word selects the instruction's row. -/
def KeySelectsRow.Statement (i : Instr) : Prop := Op.ofKey (opcodeOf (encode i)) (functOf (encode i)) = some i.op

theorem FieldsRoundTrip.add (rd rs rt) : FieldsRoundTrip.Statement (.add rd rs rt) := rfl
theorem FieldsRoundTrip.addu (rd rs rt) : FieldsRoundTrip.Statement (.addu rd rs rt) := rfl
theorem FieldsRoundTrip.sub (rd rs rt) : FieldsRoundTrip.Statement (.sub rd rs rt) := rfl
theorem FieldsRoundTrip.subu (rd rs rt) : FieldsRoundTrip.Statement (.subu rd rs rt) := rfl
theorem FieldsRoundTrip.addi (rt rs imm) : FieldsRoundTrip.Statement (.addi rt rs imm) := rfl
theorem FieldsRoundTrip.addiu (rt rs imm) : FieldsRoundTrip.Statement (.addiu rt rs imm) := rfl
theorem FieldsRoundTrip.slt (rd rs rt) : FieldsRoundTrip.Statement (.slt rd rs rt) := rfl
theorem FieldsRoundTrip.sltu (rd rs rt) : FieldsRoundTrip.Statement (.sltu rd rs rt) := rfl
theorem FieldsRoundTrip.slti (rt rs imm) : FieldsRoundTrip.Statement (.slti rt rs imm) := rfl
theorem FieldsRoundTrip.sltiu (rt rs imm) : FieldsRoundTrip.Statement (.sltiu rt rs imm) := rfl
theorem FieldsRoundTrip.and (rd rs rt) : FieldsRoundTrip.Statement (.and rd rs rt) := rfl
theorem FieldsRoundTrip.or (rd rs rt) : FieldsRoundTrip.Statement (.or rd rs rt) := rfl
theorem FieldsRoundTrip.xor (rd rs rt) : FieldsRoundTrip.Statement (.xor rd rs rt) := rfl
theorem FieldsRoundTrip.nor (rd rs rt) : FieldsRoundTrip.Statement (.nor rd rs rt) := rfl
theorem FieldsRoundTrip.andi (rt rs imm) : FieldsRoundTrip.Statement (.andi rt rs imm) := rfl
theorem FieldsRoundTrip.ori (rt rs imm) : FieldsRoundTrip.Statement (.ori rt rs imm) := rfl
theorem FieldsRoundTrip.xori (rt rs imm) : FieldsRoundTrip.Statement (.xori rt rs imm) := rfl
theorem FieldsRoundTrip.lui (rt imm) : FieldsRoundTrip.Statement (.lui rt imm) := rfl
theorem FieldsRoundTrip.sll (rd rt shamt) : FieldsRoundTrip.Statement (.sll rd rt shamt) := rfl
theorem FieldsRoundTrip.srl (rd rt shamt) : FieldsRoundTrip.Statement (.srl rd rt shamt) := rfl
theorem FieldsRoundTrip.sra (rd rt shamt) : FieldsRoundTrip.Statement (.sra rd rt shamt) := rfl
theorem FieldsRoundTrip.sllv (rd rt rs) : FieldsRoundTrip.Statement (.sllv rd rt rs) := rfl
theorem FieldsRoundTrip.srlv (rd rt rs) : FieldsRoundTrip.Statement (.srlv rd rt rs) := rfl
theorem FieldsRoundTrip.srav (rd rt rs) : FieldsRoundTrip.Statement (.srav rd rt rs) := rfl
theorem FieldsRoundTrip.mult (rs rt) : FieldsRoundTrip.Statement (.mult rs rt) := rfl
theorem FieldsRoundTrip.multu (rs rt) : FieldsRoundTrip.Statement (.multu rs rt) := rfl
theorem FieldsRoundTrip.div (rs rt) : FieldsRoundTrip.Statement (.div rs rt) := rfl
theorem FieldsRoundTrip.divu (rs rt) : FieldsRoundTrip.Statement (.divu rs rt) := rfl
theorem FieldsRoundTrip.mfhi (rd) : FieldsRoundTrip.Statement (.mfhi rd) := rfl
theorem FieldsRoundTrip.mflo (rd) : FieldsRoundTrip.Statement (.mflo rd) := rfl
theorem FieldsRoundTrip.mthi (rs) : FieldsRoundTrip.Statement (.mthi rs) := rfl
theorem FieldsRoundTrip.mtlo (rs) : FieldsRoundTrip.Statement (.mtlo rs) := rfl
theorem FieldsRoundTrip.lb (rt imm rs) : FieldsRoundTrip.Statement (.lb rt imm rs) := rfl
theorem FieldsRoundTrip.lbu (rt imm rs) : FieldsRoundTrip.Statement (.lbu rt imm rs) := rfl
theorem FieldsRoundTrip.lw (rt imm rs) : FieldsRoundTrip.Statement (.lw rt imm rs) := rfl
theorem FieldsRoundTrip.sb (rt imm rs) : FieldsRoundTrip.Statement (.sb rt imm rs) := rfl
theorem FieldsRoundTrip.sw (rt imm rs) : FieldsRoundTrip.Statement (.sw rt imm rs) := rfl
theorem FieldsRoundTrip.beq (rs rt imm) : FieldsRoundTrip.Statement (.beq rs rt imm) := rfl
theorem FieldsRoundTrip.bne (rs rt imm) : FieldsRoundTrip.Statement (.bne rs rt imm) := rfl
theorem FieldsRoundTrip.blez (rs imm) : FieldsRoundTrip.Statement (.blez rs imm) := rfl
theorem FieldsRoundTrip.bgtz (rs imm) : FieldsRoundTrip.Statement (.bgtz rs imm) := rfl
theorem FieldsRoundTrip.j (address) : FieldsRoundTrip.Statement (.j address) := rfl
theorem FieldsRoundTrip.jal (address) : FieldsRoundTrip.Statement (.jal address) := rfl
theorem FieldsRoundTrip.jr (rs) : FieldsRoundTrip.Statement (.jr rs) := rfl
theorem FieldsRoundTrip.jalr (rd rs) : FieldsRoundTrip.Statement (.jalr rd rs) := rfl
theorem FieldsRoundTrip.syscall : FieldsRoundTrip.Statement (.syscall) := rfl

theorem KeySelectsRow.add (rd rs rt) : KeySelectsRow.Statement (.add rd rs rt) := by
  simp only [KeySelectsRow.Statement, encode, Instr.op, Op.row, Row.ofR, Row.assemble, opcodeOf_wordR, functOf_wordR]; rfl
theorem KeySelectsRow.addu (rd rs rt) : KeySelectsRow.Statement (.addu rd rs rt) := by
  simp only [KeySelectsRow.Statement, encode, Instr.op, Op.row, Row.ofR, Row.assemble, opcodeOf_wordR, functOf_wordR]; rfl
theorem KeySelectsRow.sub (rd rs rt) : KeySelectsRow.Statement (.sub rd rs rt) := by
  simp only [KeySelectsRow.Statement, encode, Instr.op, Op.row, Row.ofR, Row.assemble, opcodeOf_wordR, functOf_wordR]; rfl
theorem KeySelectsRow.subu (rd rs rt) : KeySelectsRow.Statement (.subu rd rs rt) := by
  simp only [KeySelectsRow.Statement, encode, Instr.op, Op.row, Row.ofR, Row.assemble, opcodeOf_wordR, functOf_wordR]; rfl
theorem KeySelectsRow.addi (rt rs imm) : KeySelectsRow.Statement (.addi rt rs imm) := by
  simp only [KeySelectsRow.Statement, encode, Instr.op, Op.row, Row.ofI, Row.assemble, opcodeOf_wordI]; rfl
theorem KeySelectsRow.addiu (rt rs imm) : KeySelectsRow.Statement (.addiu rt rs imm) := by
  simp only [KeySelectsRow.Statement, encode, Instr.op, Op.row, Row.ofI, Row.assemble, opcodeOf_wordI]; rfl
theorem KeySelectsRow.slt (rd rs rt) : KeySelectsRow.Statement (.slt rd rs rt) := by
  simp only [KeySelectsRow.Statement, encode, Instr.op, Op.row, Row.ofR, Row.assemble, opcodeOf_wordR, functOf_wordR]; rfl
theorem KeySelectsRow.sltu (rd rs rt) : KeySelectsRow.Statement (.sltu rd rs rt) := by
  simp only [KeySelectsRow.Statement, encode, Instr.op, Op.row, Row.ofR, Row.assemble, opcodeOf_wordR, functOf_wordR]; rfl
theorem KeySelectsRow.slti (rt rs imm) : KeySelectsRow.Statement (.slti rt rs imm) := by
  simp only [KeySelectsRow.Statement, encode, Instr.op, Op.row, Row.ofI, Row.assemble, opcodeOf_wordI]; rfl
theorem KeySelectsRow.sltiu (rt rs imm) : KeySelectsRow.Statement (.sltiu rt rs imm) := by
  simp only [KeySelectsRow.Statement, encode, Instr.op, Op.row, Row.ofI, Row.assemble, opcodeOf_wordI]; rfl
theorem KeySelectsRow.and (rd rs rt) : KeySelectsRow.Statement (.and rd rs rt) := by
  simp only [KeySelectsRow.Statement, encode, Instr.op, Op.row, Row.ofR, Row.assemble, opcodeOf_wordR, functOf_wordR]; rfl
theorem KeySelectsRow.or (rd rs rt) : KeySelectsRow.Statement (.or rd rs rt) := by
  simp only [KeySelectsRow.Statement, encode, Instr.op, Op.row, Row.ofR, Row.assemble, opcodeOf_wordR, functOf_wordR]; rfl
theorem KeySelectsRow.xor (rd rs rt) : KeySelectsRow.Statement (.xor rd rs rt) := by
  simp only [KeySelectsRow.Statement, encode, Instr.op, Op.row, Row.ofR, Row.assemble, opcodeOf_wordR, functOf_wordR]; rfl
theorem KeySelectsRow.nor (rd rs rt) : KeySelectsRow.Statement (.nor rd rs rt) := by
  simp only [KeySelectsRow.Statement, encode, Instr.op, Op.row, Row.ofR, Row.assemble, opcodeOf_wordR, functOf_wordR]; rfl
theorem KeySelectsRow.andi (rt rs imm) : KeySelectsRow.Statement (.andi rt rs imm) := by
  simp only [KeySelectsRow.Statement, encode, Instr.op, Op.row, Row.ofI, Row.assemble, opcodeOf_wordI]; rfl
theorem KeySelectsRow.ori (rt rs imm) : KeySelectsRow.Statement (.ori rt rs imm) := by
  simp only [KeySelectsRow.Statement, encode, Instr.op, Op.row, Row.ofI, Row.assemble, opcodeOf_wordI]; rfl
theorem KeySelectsRow.xori (rt rs imm) : KeySelectsRow.Statement (.xori rt rs imm) := by
  simp only [KeySelectsRow.Statement, encode, Instr.op, Op.row, Row.ofI, Row.assemble, opcodeOf_wordI]; rfl
theorem KeySelectsRow.lui (rt imm) : KeySelectsRow.Statement (.lui rt imm) := by
  simp only [KeySelectsRow.Statement, encode, Instr.op, Op.row, Row.ofI, Row.assemble, opcodeOf_wordI]; rfl
theorem KeySelectsRow.sll (rd rt shamt) : KeySelectsRow.Statement (.sll rd rt shamt) := by
  simp only [KeySelectsRow.Statement, encode, Instr.op, Op.row, Row.ofR, Row.assemble, opcodeOf_wordR, functOf_wordR]; rfl
theorem KeySelectsRow.srl (rd rt shamt) : KeySelectsRow.Statement (.srl rd rt shamt) := by
  simp only [KeySelectsRow.Statement, encode, Instr.op, Op.row, Row.ofR, Row.assemble, opcodeOf_wordR, functOf_wordR]; rfl
theorem KeySelectsRow.sra (rd rt shamt) : KeySelectsRow.Statement (.sra rd rt shamt) := by
  simp only [KeySelectsRow.Statement, encode, Instr.op, Op.row, Row.ofR, Row.assemble, opcodeOf_wordR, functOf_wordR]; rfl
theorem KeySelectsRow.sllv (rd rt rs) : KeySelectsRow.Statement (.sllv rd rt rs) := by
  simp only [KeySelectsRow.Statement, encode, Instr.op, Op.row, Row.ofR, Row.assemble, opcodeOf_wordR, functOf_wordR]; rfl
theorem KeySelectsRow.srlv (rd rt rs) : KeySelectsRow.Statement (.srlv rd rt rs) := by
  simp only [KeySelectsRow.Statement, encode, Instr.op, Op.row, Row.ofR, Row.assemble, opcodeOf_wordR, functOf_wordR]; rfl
theorem KeySelectsRow.srav (rd rt rs) : KeySelectsRow.Statement (.srav rd rt rs) := by
  simp only [KeySelectsRow.Statement, encode, Instr.op, Op.row, Row.ofR, Row.assemble, opcodeOf_wordR, functOf_wordR]; rfl
theorem KeySelectsRow.mult (rs rt) : KeySelectsRow.Statement (.mult rs rt) := by
  simp only [KeySelectsRow.Statement, encode, Instr.op, Op.row, Row.ofR, Row.assemble, opcodeOf_wordR, functOf_wordR]; rfl
theorem KeySelectsRow.multu (rs rt) : KeySelectsRow.Statement (.multu rs rt) := by
  simp only [KeySelectsRow.Statement, encode, Instr.op, Op.row, Row.ofR, Row.assemble, opcodeOf_wordR, functOf_wordR]; rfl
theorem KeySelectsRow.div (rs rt) : KeySelectsRow.Statement (.div rs rt) := by
  simp only [KeySelectsRow.Statement, encode, Instr.op, Op.row, Row.ofR, Row.assemble, opcodeOf_wordR, functOf_wordR]; rfl
theorem KeySelectsRow.divu (rs rt) : KeySelectsRow.Statement (.divu rs rt) := by
  simp only [KeySelectsRow.Statement, encode, Instr.op, Op.row, Row.ofR, Row.assemble, opcodeOf_wordR, functOf_wordR]; rfl
theorem KeySelectsRow.mfhi (rd) : KeySelectsRow.Statement (.mfhi rd) := by
  simp only [KeySelectsRow.Statement, encode, Instr.op, Op.row, Row.ofR, Row.assemble, opcodeOf_wordR, functOf_wordR]; rfl
theorem KeySelectsRow.mflo (rd) : KeySelectsRow.Statement (.mflo rd) := by
  simp only [KeySelectsRow.Statement, encode, Instr.op, Op.row, Row.ofR, Row.assemble, opcodeOf_wordR, functOf_wordR]; rfl
theorem KeySelectsRow.mthi (rs) : KeySelectsRow.Statement (.mthi rs) := by
  simp only [KeySelectsRow.Statement, encode, Instr.op, Op.row, Row.ofR, Row.assemble, opcodeOf_wordR, functOf_wordR]; rfl
theorem KeySelectsRow.mtlo (rs) : KeySelectsRow.Statement (.mtlo rs) := by
  simp only [KeySelectsRow.Statement, encode, Instr.op, Op.row, Row.ofR, Row.assemble, opcodeOf_wordR, functOf_wordR]; rfl
theorem KeySelectsRow.lb (rt imm rs) : KeySelectsRow.Statement (.lb rt imm rs) := by
  simp only [KeySelectsRow.Statement, encode, Instr.op, Op.row, Row.ofI, Row.assemble, opcodeOf_wordI]; rfl
theorem KeySelectsRow.lbu (rt imm rs) : KeySelectsRow.Statement (.lbu rt imm rs) := by
  simp only [KeySelectsRow.Statement, encode, Instr.op, Op.row, Row.ofI, Row.assemble, opcodeOf_wordI]; rfl
theorem KeySelectsRow.lw (rt imm rs) : KeySelectsRow.Statement (.lw rt imm rs) := by
  simp only [KeySelectsRow.Statement, encode, Instr.op, Op.row, Row.ofI, Row.assemble, opcodeOf_wordI]; rfl
theorem KeySelectsRow.sb (rt imm rs) : KeySelectsRow.Statement (.sb rt imm rs) := by
  simp only [KeySelectsRow.Statement, encode, Instr.op, Op.row, Row.ofI, Row.assemble, opcodeOf_wordI]; rfl
theorem KeySelectsRow.sw (rt imm rs) : KeySelectsRow.Statement (.sw rt imm rs) := by
  simp only [KeySelectsRow.Statement, encode, Instr.op, Op.row, Row.ofI, Row.assemble, opcodeOf_wordI]; rfl
theorem KeySelectsRow.beq (rs rt imm) : KeySelectsRow.Statement (.beq rs rt imm) := by
  simp only [KeySelectsRow.Statement, encode, Instr.op, Op.row, Row.ofI, Row.assemble, opcodeOf_wordI]; rfl
theorem KeySelectsRow.bne (rs rt imm) : KeySelectsRow.Statement (.bne rs rt imm) := by
  simp only [KeySelectsRow.Statement, encode, Instr.op, Op.row, Row.ofI, Row.assemble, opcodeOf_wordI]; rfl
theorem KeySelectsRow.blez (rs imm) : KeySelectsRow.Statement (.blez rs imm) := by
  simp only [KeySelectsRow.Statement, encode, Instr.op, Op.row, Row.ofI, Row.assemble, opcodeOf_wordI]; rfl
theorem KeySelectsRow.bgtz (rs imm) : KeySelectsRow.Statement (.bgtz rs imm) := by
  simp only [KeySelectsRow.Statement, encode, Instr.op, Op.row, Row.ofI, Row.assemble, opcodeOf_wordI]; rfl
theorem KeySelectsRow.j (address) : KeySelectsRow.Statement (.j address) := by
  simp only [KeySelectsRow.Statement, encode, Instr.op, Op.row, Row.ofJ, Row.assemble, opcodeOf_wordJ]; rfl
theorem KeySelectsRow.jal (address) : KeySelectsRow.Statement (.jal address) := by
  simp only [KeySelectsRow.Statement, encode, Instr.op, Op.row, Row.ofJ, Row.assemble, opcodeOf_wordJ]; rfl
theorem KeySelectsRow.jr (rs) : KeySelectsRow.Statement (.jr rs) := by
  simp only [KeySelectsRow.Statement, encode, Instr.op, Op.row, Row.ofR, Row.assemble, opcodeOf_wordR, functOf_wordR]; rfl
theorem KeySelectsRow.jalr (rd rs) : KeySelectsRow.Statement (.jalr rd rs) := by
  simp only [KeySelectsRow.Statement, encode, Instr.op, Op.row, Row.ofR, Row.assemble, opcodeOf_wordR, functOf_wordR]; rfl
theorem KeySelectsRow.syscall : KeySelectsRow.Statement (.syscall) := by
  simp only [KeySelectsRow.Statement, encode, Instr.op, Op.row, Row.ofR, Row.assemble, opcodeOf_wordR, functOf_wordR]; rfl

end Sys2Proof.Laws
end

