-- ==== Sys2Proof/Tests/Slice0.lean ====
section
/-!
SUPPORT. Tests: expected values come from 95_test_vectors.md or are worked out by hand from the rules cited. After
them, for every obligation that has hypotheses, a witness theorem whose state and operands meet all of them.
-/

-- One elaboration thread: each thread's stack counts against the check's memory limit.
set_option Elab.async false

namespace Sys2Proof.Tests

open Sys2Proof.Machine Sys2Proof.Asm

/-! ### Helpers -/

/-- The reset state in a byte order, with some registers set. -/
def start (e : Endian) (regs : List (Reg × Word)) : State :=
  regs.foldl (fun t p => t.setX p.1 p.2) (State.resetWith { Params.default with endian := e } (.initial 0 0))

/-- The state with some bytes of memory written. -/
def withBytes (l : List (Word × Byte)) (s : State) : State := l.foldl (fun t p => t.memWrite1 p.1 p.2) s

/-- The part `f` of the next state after the instruction `w` at the state's `pc`. -/
def after {α : Type} (s : State) (w : Nat) (f : State → α) : Option α :=
  match step (s.withFetchWord 32 w) with
  | .next t => some (f t)
  | .fault _ => none
  | .refused _ => none

/-- The customary services 1, 4, 5, 10, 11 of 93_implementation_defined.md U9. -/
def servedParams : Params :=
  { Params.default with
    syscallTable := [(1, .printInt), (4, .printString), (5, .readInt), (10, .exit), (11, .printChar)] }
/-! ### Decoding: one word per instruction, written out field by field from 30_encoding.md R71 to R73 and R80

The operands are rs = 9, rt = 10, rd = 24, shamt = 4, imm = 0x8003, address = 0x2000003. -/

/-- The words of 40_arithmetic.md. -/
theorem test_decode_arithmetic :
    decode 0b000000_01001_01010_11000_00000_100000 = .instr (.add 24 9 10) ∧
    decode 0b000000_01001_01010_11000_00000_100001 = .instr (.addu 24 9 10) ∧
    decode 0b000000_01001_01010_11000_00000_100010 = .instr (.sub 24 9 10) ∧
    decode 0b000000_01001_01010_11000_00000_100011 = .instr (.subu 24 9 10) ∧
    decode 0b001000_01001_01010_1000000000000011 = .instr (.addi 10 9 0x8003) ∧
    decode 0b001001_01001_01010_1000000000000011 = .instr (.addiu 10 9 0x8003) ∧
    decode 0b000000_01001_01010_11000_00000_101010 = .instr (.slt 24 9 10) ∧
    decode 0b000000_01001_01010_11000_00000_101011 = .instr (.sltu 24 9 10) ∧
    decode 0b001010_01001_01010_1000000000000011 = .instr (.slti 10 9 0x8003) ∧
    decode 0b001011_01001_01010_1000000000000011 = .instr (.sltiu 10 9 0x8003) := by decide

/-- The words of 41_logical_shift.md. -/
theorem test_decode_logical_and_shift :
    decode 0b000000_01001_01010_11000_00000_100100 = .instr (.and 24 9 10) ∧
    decode 0b000000_01001_01010_11000_00000_100101 = .instr (.or 24 9 10) ∧
    decode 0b000000_01001_01010_11000_00000_100110 = .instr (.xor 24 9 10) ∧
    decode 0b000000_01001_01010_11000_00000_100111 = .instr (.nor 24 9 10) ∧
    decode 0b001100_01001_01010_1000000000000011 = .instr (.andi 10 9 0x8003) ∧
    decode 0b001101_01001_01010_1000000000000011 = .instr (.ori 10 9 0x8003) ∧
    decode 0b001110_01001_01010_1000000000000011 = .instr (.xori 10 9 0x8003) ∧
    decode 0b001111_00000_01010_1000000000000011 = .instr (.lui 10 0x8003) ∧
    decode 0b000000_00000_01010_11000_00100_000000 = .instr (.sll 24 10 4) ∧
    decode 0b000000_00000_01010_11000_00100_000010 = .instr (.srl 24 10 4) ∧
    decode 0b000000_00000_01010_11000_00100_000011 = .instr (.sra 24 10 4) ∧
    decode 0b000000_01001_01010_11000_00000_000100 = .instr (.sllv 24 10 9) ∧
    decode 0b000000_01001_01010_11000_00000_000110 = .instr (.srlv 24 10 9) ∧
    decode 0b000000_01001_01010_11000_00000_000111 = .instr (.srav 24 10 9) := by decide

/-- The words of 42_muldiv.md. -/
theorem test_decode_multiply_divide :
    decode 0b000000_01001_01010_00000_00000_011000 = .instr (.mult 9 10) ∧
    decode 0b000000_01001_01010_00000_00000_011001 = .instr (.multu 9 10) ∧
    decode 0b000000_01001_01010_00000_00000_011010 = .instr (.div 9 10) ∧
    decode 0b000000_01001_01010_00000_00000_011011 = .instr (.divu 9 10) ∧
    decode 0b000000_00000_00000_11000_00000_010000 = .instr (.mfhi 24) ∧
    decode 0b000000_00000_00000_11000_00000_010010 = .instr (.mflo 24) ∧
    decode 0b000000_01001_00000_00000_00000_010001 = .instr (.mthi 9) ∧
    decode 0b000000_01001_00000_00000_00000_010011 = .instr (.mtlo 9) := by decide

/-- The words of 43_load_store.md. -/
theorem test_decode_load_store :
    decode 0b100000_01001_01010_1000000000000011 = .instr (.lb 10 0x8003 9) ∧
    decode 0b100100_01001_01010_1000000000000011 = .instr (.lbu 10 0x8003 9) ∧
    decode 0b100011_01001_01010_1000000000000011 = .instr (.lw 10 0x8003 9) ∧
    decode 0b101000_01001_01010_1000000000000011 = .instr (.sb 10 0x8003 9) ∧
    decode 0b101011_01001_01010_1000000000000011 = .instr (.sw 10 0x8003 9) := by decide

/-- The words of 44_control.md. -/
theorem test_decode_control :
    decode 0b000100_01001_01010_1000000000000011 = .instr (.beq 9 10 0x8003) ∧
    decode 0b000101_01001_01010_1000000000000011 = .instr (.bne 9 10 0x8003) ∧
    decode 0b000110_01001_00000_1000000000000011 = .instr (.blez 9 0x8003) ∧
    decode 0b000111_01001_00000_1000000000000011 = .instr (.bgtz 9 0x8003) ∧
    decode 0b000010_10000000000000000000000011 = .instr (.j 0x2000003) ∧
    decode 0b000011_10000000000000000000000011 = .instr (.jal 0x2000003) ∧
    decode 0b000000_01001_00000_00000_00000_001000 = .instr (.jr 9) ∧
    decode 0b000000_01001_00000_11000_00000_001001 = .instr (.jalr 24 9) := by decide

/-- The words of 45_system.md. -/
theorem test_decode_system :
    decode 0b000000_00000_00000_00000_00000_001100 = .instr .syscall := by decide

/-- The first bytes are the instruction in either byte order, the rest is left over (20_memory.md R50). -/
theorem test_decode_bytes :
    decodeBytes .big [0x21, 0xF0, 0x00, 0x07, 0xAA] = (.instr (.addi 16 15 7), [0xAA]) ∧
    decodeBytes .little [0x07, 0x00, 0xF0, 0x21, 0xAA] = (.instr (.addi 16 15 7), [0xAA]) ∧
    decodeBytes .big [0x21, 0xF0, 0x00] = (.invalid .truncated, [0x21, 0xF0, 0x00]) := by decide

/-- Words that are no instruction are rejected by name (30_encoding.md R81, R83; vectors X1 to X9). -/
theorem test_decode_rejects :
    decode 0x00000000 = .invalid .zeroWord ∧ decode 0x04000000 = .invalid (.unusedOpcode 0x01) ∧
    decode 0x71095002 = .invalid (.unusedOpcode 0x1C) ∧ decode 0x0000000D = .invalid (.unusedFunct 0x0D) ∧
    decode 0x00000001 = .invalid (.unusedFunct 0x01) ∧ decode 0x85280000 = .invalid (.unusedOpcode 0x21) ∧
    decode 0xA5280000 = .invalid (.unusedOpcode 0x29) ∧ decode 0x40806000 = .invalid (.unusedOpcode 0x10) ∧
    decode 0xFFFFFFFF = .invalid (.unusedOpcode 0x3F) := by decide

/-- 95_test_vectors.md L1.1: words the encoder gives. -/
theorem test_encode_extremes :
    encode (.add 31 31 31) = 0x03FFF820 ∧ encode (.sll 31 31 31) = 0x001FFFC0 ∧
    encode (.addi 31 31 0x8000) = 0x23FF8000 ∧ encode (.ori 31 31 0xFFFF) = 0x37FFFFFF ∧
    encode (.j 0x3FFFFFF) = 0x0BFFFFFF ∧ encode (.sw 31 0x8000 31) = 0xAFFF8000 := by decide

/-- The host's numbering of a row's bits is the word's own. -/
theorem test_decodeTableWord :
    decodeTableWord 32 0x21F00007 = some (.addi 16 15 7) ∧ decodeTableWord 32 0 = none := by decide

/-! ### WellFormed smoke -/

/-- The one check, on the one instruction it refuses and on its neighbours (30_encoding.md R83, R89). -/
theorem test_wf_refuses_the_zero_word :
    Instr.wf (.sll 0 0 0) = false ∧ Instr.wf (.sll 0 0 1) = true ∧ Instr.wf (.sll 1 0 0) = true ∧
    Instr.wf (.sll 0 1 0) = true ∧ Instr.wf (.srl 0 0 0) = true ∧ Instr.wf .syscall = true := by decide

/-! ### Single steps: 40_arithmetic.md -/

/-- 95_test_vectors.md, vector A1: add $t0, $t1, $t2. -/
theorem test_add_A1 :
    after (start .big [(9, 0x00000005), (10, 0xFFFFFFFD)]) 0x012A4020 (fun t => (t.x 8, t.pc))
      = some (0x00000002, 0x00400004) := by decide

/-- 95_test_vectors.md, vector A2: add $t0, $t0, $t0. -/
theorem test_add_A2 :
    after (start .big [(8, 0x7FFFFFFF)]) 0x01084020 (fun t => (t.x 8, t.status, t.cause.code, t.pc))
      = some (0x7FFFFFFF, Status.faulted, 1, 0x00400000) := by decide

/-- 95_test_vectors.md, vector A9: addu $t0, $t0, $t0. -/
theorem test_addu_A9 :
    after (start .big [(8, 0x7FFFFFFF)]) 0x01084021 (fun t => (t.x 8, t.pc))
      = some (0xFFFFFFFE, 0x00400004) := by decide

/-- 95_test_vectors.md, vector A10: addu $t0, $t1, $t2. -/
theorem test_addu_A10 :
    after (start .big [(9, 0xFFFFFFFF), (10, 0x00000001)]) 0x012A4021 (fun t => (t.x 8, t.pc))
      = some (0x00000000, 0x00400004) := by decide

/-- 95_test_vectors.md, vector A12: sub $t0, $t1, $t2. -/
theorem test_sub_A12 :
    after (start .big [(9, 0x80000000), (10, 0x00000001)]) 0x012A4022 (fun t => (t.x 8, t.status, t.cause.code, t.pc))
      = some (0x00000000, Status.faulted, 1, 0x00400000) := by decide

/-- 95_test_vectors.md, vector A15: sub $t0, $t1, $t2. -/
theorem test_sub_A15 :
    after (start .big [(9, 0x80000000), (10, 0x80000000)]) 0x012A4022 (fun t => (t.x 8, t.pc))
      = some (0x00000000, 0x00400004) := by decide

/-- 95_test_vectors.md, vector A16: subu $t0, $t1, $t2. -/
theorem test_subu_A16 :
    after (start .big [(9, 0x00000000), (10, 0x00000001)]) 0x012A4023 (fun t => (t.x 8, t.pc))
      = some (0xFFFFFFFF, 0x00400004) := by decide

/-- 95_test_vectors.md, vector A17: subu $t0, $t1, $t2. -/
theorem test_subu_A17 :
    after (start .big [(9, 0x80000000), (10, 0x00000001)]) 0x012A4023 (fun t => (t.x 8, t.pc))
      = some (0x7FFFFFFF, 0x00400004) := by decide

/-- 95_test_vectors.md, vector A21: addi $t0, $t1, -1. -/
theorem test_addi_A21 :
    after (start .big [(9, 0x00000000)]) 0x2128FFFF (fun t => (t.x 8, t.pc))
      = some (0xFFFFFFFF, 0x00400004) := by decide

/-- 95_test_vectors.md, vector A23: addi $t0, $t1, 32767. -/
theorem test_addi_A23 :
    after (start .big [(9, 0x7FFF8001)]) 0x21287FFF (fun t => (t.x 8, t.status, t.cause.code, t.pc))
      = some (0x00000000, Status.faulted, 1, 0x00400000) := by decide

/-- 95_test_vectors.md, vector A25: addiu $t0, $t1, 1. -/
theorem test_addiu_A25 :
    after (start .big [(9, 0x7FFFFFFF)]) 0x25280001 (fun t => (t.x 8, t.pc))
      = some (0x80000000, 0x00400004) := by decide

/-- 95_test_vectors.md, vector A26: addiu $t0, $t1, -32768. -/
theorem test_addiu_A26 :
    after (start .big [(9, 0x00000000)]) 0x25288000 (fun t => (t.x 8, t.pc))
      = some (0xFFFF8000, 0x00400004) := by decide

/-- 95_test_vectors.md, vector A27: slt $t0, $t1, $t2. -/
theorem test_slt_A27 :
    after (start .big [(9, 0xFFFFFFFF), (10, 0x00000000)]) 0x012A402A (fun t => (t.x 8, t.pc))
      = some (0x00000001, 0x00400004) := by decide

/-- 95_test_vectors.md, vector A28: slt $t0, $t1, $t2. -/
theorem test_slt_A28 :
    after (start .big [(9, 0x80000000), (10, 0x7FFFFFFF)]) 0x012A402A (fun t => (t.x 8, t.pc))
      = some (0x00000001, 0x00400004) := by decide

/-- 95_test_vectors.md, vector A30: sltu $t0, $t1, $t2. -/
theorem test_sltu_A30 :
    after (start .big [(9, 0xFFFFFFFF), (10, 0x00000000)]) 0x012A402B (fun t => (t.x 8, t.pc))
      = some (0x00000000, 0x00400004) := by decide

/-- 95_test_vectors.md, vector A31: sltu $t0, $zero, $t2. -/
theorem test_sltu_A31 :
    after (start .big [(10, 0x80000000)]) 0x000A402B (fun t => (t.x 8, t.pc))
      = some (0x00000001, 0x00400004) := by decide

/-- 95_test_vectors.md, vector A32: slti $t0, $t1, -5. -/
theorem test_slti_A32 :
    after (start .big [(9, 0xFFFFFFF6)]) 0x2928FFFB (fun t => (t.x 8, t.pc))
      = some (0x00000001, 0x00400004) := by decide

/-- 95_test_vectors.md, vector A34: slti $t0, $t1, -32768. -/
theorem test_slti_A34 :
    after (start .big [(9, 0xFFFF7FFF)]) 0x29288000 (fun t => (t.x 8, t.pc))
      = some (0x00000001, 0x00400004) := by decide

/-- 95_test_vectors.md, vector A35: sltiu $t0, $t1, -1. -/
theorem test_sltiu_A35 :
    after (start .big [(9, 0x00000005)]) 0x2D28FFFF (fun t => (t.x 8, t.pc))
      = some (0x00000001, 0x00400004) := by decide

/-- 95_test_vectors.md, vector A36: sltiu $t0, $t1, -1. -/
theorem test_sltiu_A36 :
    after (start .big [(9, 0xFFFFFFFF), (8, 0x00000009)]) 0x2D28FFFF (fun t => (t.x 8, t.pc))
      = some (0x00000000, 0x00400004) := by decide

/-! ### Single steps: 41_logical_shift.md -/

/-- 95_test_vectors.md, vector B1: and $t0, $t1, $t2. -/
theorem test_and_B1 :
    after (start .big [(9, 0xFF00FF00), (10, 0x0FF00FF0)]) 0x012A4024 (fun t => (t.x 8, t.pc))
      = some (0x0F000F00, 0x00400004) := by decide

/-- 95_test_vectors.md, vector B2: or $t0, $t1, $t2. -/
theorem test_or_B2 :
    after (start .big [(9, 0xFF00FF00), (10, 0x0FF00FF0)]) 0x012A4025 (fun t => (t.x 8, t.pc))
      = some (0xFFF0FFF0, 0x00400004) := by decide

/-- 95_test_vectors.md, vector B3: xor $t0, $t1, $t2. -/
theorem test_xor_B3 :
    after (start .big [(9, 0xFF00FF00), (10, 0x0FF00FF0)]) 0x012A4026 (fun t => (t.x 8, t.pc))
      = some (0xF0F0F0F0, 0x00400004) := by decide

/-- 95_test_vectors.md, vector B4: nor $t0, $t1, $t2. -/
theorem test_nor_B4 :
    after (start .big [(9, 0xFF00FF00), (10, 0x0FF00FF0)]) 0x012A4027 (fun t => (t.x 8, t.pc))
      = some (0x000F000F, 0x00400004) := by decide

/-- 95_test_vectors.md, vector B5: nor $t0, $t1, $zero. -/
theorem test_nor_B5 :
    after (start .big [(9, 0x12345678)]) 0x01204027 (fun t => (t.x 8, t.pc))
      = some (0xEDCBA987, 0x00400004) := by decide

/-- 95_test_vectors.md, vector B6: andi $t0, $t1, 0xFF00. -/
theorem test_andi_B6 :
    after (start .big [(9, 0x12345678)]) 0x3128FF00 (fun t => (t.x 8, t.pc))
      = some (0x00005600, 0x00400004) := by decide

/-- 95_test_vectors.md, vector B8: ori $t0, $t1, 0x8000. -/
theorem test_ori_B8 :
    after (start .big [(9, 0x12340000)]) 0x35288000 (fun t => (t.x 8, t.pc))
      = some (0x12348000, 0x00400004) := by decide

/-- 95_test_vectors.md, vector B9: ori $t0, $zero, 0xFFFF. -/
theorem test_ori_B9 :
    after (start .big []) 0x3408FFFF (fun t => (t.x 8, t.pc))
      = some (0x0000FFFF, 0x00400004) := by decide

/-- 95_test_vectors.md, vector B10: xori $t0, $t1, 0xFFFF. -/
theorem test_xori_B10 :
    after (start .big [(9, 0x12345678)]) 0x3928FFFF (fun t => (t.x 8, t.pc))
      = some (0x1234A987, 0x00400004) := by decide

/-- 95_test_vectors.md, vector B11: lui $t0, 0x1234. -/
theorem test_lui_B11 :
    after (start .big [(8, 0xFFFFFFFF)]) 0x3C081234 (fun t => (t.x 8, t.pc))
      = some (0x12340000, 0x00400004) := by decide

/-- 95_test_vectors.md, vector B12: lui $t0, 0xFFFF. -/
theorem test_lui_B12 :
    after (start .big []) 0x3C08FFFF (fun t => (t.x 8, t.pc))
      = some (0xFFFF0000, 0x00400004) := by decide

/-- 95_test_vectors.md, vector B13: sll $t0, $t1, 4. -/
theorem test_sll_B13 :
    after (start .big [(9, 0xF0000001)]) 0x00094100 (fun t => (t.x 8, t.pc))
      = some (0x00000010, 0x00400004) := by decide

/-- 95_test_vectors.md, vector B14: sll $t0, $t1, 31. -/
theorem test_sll_B14 :
    after (start .big [(9, 0x00000003)]) 0x000947C0 (fun t => (t.x 8, t.pc))
      = some (0x80000000, 0x00400004) := by decide

/-- 95_test_vectors.md, vector B18: srl $t0, $t1, 4. -/
theorem test_srl_B18 :
    after (start .big [(9, 0x80000010)]) 0x00094102 (fun t => (t.x 8, t.pc))
      = some (0x08000001, 0x00400004) := by decide

/-- 95_test_vectors.md, vector B20: sra $t0, $t1, 4. -/
theorem test_sra_B20 :
    after (start .big [(9, 0x80000010)]) 0x00094103 (fun t => (t.x 8, t.pc))
      = some (0xF8000001, 0x00400004) := by decide

/-- 95_test_vectors.md, vector B22: sra $t0, $t1, 31. -/
theorem test_sra_B22 :
    after (start .big [(9, 0x7FFFFFFF)]) 0x000947C3 (fun t => (t.x 8, t.pc))
      = some (0x00000000, 0x00400004) := by decide

/-- 95_test_vectors.md, vector B23: sllv $t0, $t1, $t2. -/
theorem test_sllv_B23 :
    after (start .big [(9, 0x00000001), (10, 0x00000024)]) 0x01494004 (fun t => (t.x 8, t.pc))
      = some (0x00000010, 0x00400004) := by decide

/-- 95_test_vectors.md, vector B24: sllv $t0, $t1, $t2. -/
theorem test_sllv_B24 :
    after (start .big [(9, 0x00000001), (10, 0x00000020)]) 0x01494004 (fun t => (t.x 8, t.pc))
      = some (0x00000001, 0x00400004) := by decide

/-- 95_test_vectors.md, vector B25: srlv $t0, $t1, $t2. -/
theorem test_srlv_B25 :
    after (start .big [(9, 0x80000000), (10, 0x0000001F)]) 0x01494006 (fun t => (t.x 8, t.pc))
      = some (0x00000001, 0x00400004) := by decide

/-- 95_test_vectors.md, vector B26: srlv $t0, $t1, $t2. -/
theorem test_srlv_B26 :
    after (start .big [(9, 0x80000000), (10, 0xFFFFFFFF)]) 0x01494006 (fun t => (t.x 8, t.pc))
      = some (0x00000001, 0x00400004) := by decide

/-- 95_test_vectors.md, vector B27: srav $t0, $t1, $t2. -/
theorem test_srav_B27 :
    after (start .big [(9, 0x80000000), (10, 0x0000001F)]) 0x01494007 (fun t => (t.x 8, t.pc))
      = some (0xFFFFFFFF, 0x00400004) := by decide

/-- 95_test_vectors.md, vector B28: srav $t0, $t1, $t2. -/
theorem test_srav_B28 :
    after (start .big [(9, 0xFFFFFF00), (10, 0x00000004)]) 0x01494007 (fun t => (t.x 8, t.pc))
      = some (0xFFFFFFF0, 0x00400004) := by decide

/-! ### Single steps: 42_muldiv.md -/

/-- 95_test_vectors.md, vector M4: mult $t1, $t2. -/
theorem test_mult_M4 :
    after
      ({ start .big [(9, 0xFFFFFFFF), (10, 0x00000001)] with hi := 0xAAAAAAAA, lo := 0x55555555 })
      0x012A0018 (fun t => (t.hi, t.lo, t.pc))
      = some (0xFFFFFFFF, 0xFFFFFFFF, 0x00400004) := by decide

/-- 95_test_vectors.md, vector M5: mult $t1, $t2. -/
theorem test_mult_M5 :
    after
      ({ start .big [(9, 0x80000000), (10, 0x00000002)] with hi := 0xAAAAAAAA, lo := 0x55555555 })
      0x012A0018 (fun t => (t.hi, t.lo, t.pc))
      = some (0xFFFFFFFF, 0x00000000, 0x00400004) := by decide

/-- 95_test_vectors.md, vector M8: multu $t1, $t2. -/
theorem test_multu_M8 :
    after
      ({ start .big [(9, 0xFFFFFFFF), (10, 0xFFFFFFFF)] with hi := 0xAAAAAAAA, lo := 0x55555555 })
      0x012A0019 (fun t => (t.hi, t.lo, t.pc))
      = some (0xFFFFFFFE, 0x00000001, 0x00400004) := by decide

/-- 95_test_vectors.md, vector M9: multu $t1, $t2. -/
theorem test_multu_M9 :
    after
      ({ start .big [(9, 0x80000000), (10, 0x00000002)] with hi := 0xAAAAAAAA, lo := 0x55555555 })
      0x012A0019 (fun t => (t.hi, t.lo, t.pc))
      = some (0x00000001, 0x00000000, 0x00400004) := by decide

/-- 95_test_vectors.md, vector M12: div $t1, $t2. -/
theorem test_div_M12 :
    after
      ({ start .big [(9, 0xFFFFFFF9), (10, 0x00000002)] with hi := 0xAAAAAAAA, lo := 0x55555555 })
      0x012A001A (fun t => (t.hi, t.lo, t.pc))
      = some (0xFFFFFFFF, 0xFFFFFFFD, 0x00400004) := by decide

/-- 95_test_vectors.md, vector M18: div $t1, $t2. -/
theorem test_div_M18 :
    after
      ({ start .big [(9, 0x80000000), (10, 0xFFFFFFFF)] with hi := 0xAAAAAAAA, lo := 0x55555555 })
      0x012A001A (fun t => (t.hi, t.lo, t.pc))
      = some (0x00000000, 0x80000000, 0x00400004) := by decide

/-- 95_test_vectors.md, vector M23: divu $t1, $t2. -/
theorem test_divu_M23 :
    after
      ({ start .big [(9, 0xFFFFFFF9), (10, 0x00000002)] with hi := 0xAAAAAAAA, lo := 0x55555555 })
      0x012A001B (fun t => (t.hi, t.lo, t.pc))
      = some (0x00000001, 0x7FFFFFFC, 0x00400004) := by decide

/-- 95_test_vectors.md, vector M25: divu $t1, $t2. -/
theorem test_divu_M25 :
    after
      ({ start .big [(9, 0x00000007), (10, 0x00000000)] with hi := 0xAAAAAAAA, lo := 0x55555555 })
      0x012A001B (fun t => (t.hi, t.lo, t.pc))
      = some (0x00000000, 0x00000000, 0x00400004) := by decide

/-- 95_test_vectors.md, vector M27: mfhi $t0. -/
theorem test_mfhi_M27 :
    after ({ start .big [] with hi := 0x00000001, lo := 0x00000002 }) 0x00004010 (fun t => (t.x 8, t.hi, t.lo, t.pc))
      = some (0x00000001, 0x00000001, 0x00000002, 0x00400004) := by decide

/-- 95_test_vectors.md, vector M28: mflo $t0. -/
theorem test_mflo_M28 :
    after ({ start .big [] with hi := 0x00000001, lo := 0xFFFFFFFD }) 0x00004012 (fun t => (t.x 8, t.hi, t.lo, t.pc))
      = some (0xFFFFFFFD, 0x00000001, 0xFFFFFFFD, 0x00400004) := by decide

/-- 95_test_vectors.md, vector M29: mfhi $t0. -/
theorem test_mfhi_M29 :
    after (start .big [(8, 0x00000005)]) 0x00004010 (fun t => (t.x 8, t.pc))
      = some (0x00000000, 0x00400004) := by decide

/-- 95_test_vectors.md, vector M30: mthi $t0. -/
theorem test_mthi_M30 :
    after
      ({ start .big [(8, 0xABCD0123)] with hi := 0x00000001, lo := 0x00000002 })
      0x01000011 (fun t => (t.hi, t.lo, t.pc))
      = some (0xABCD0123, 0x00000002, 0x00400004) := by decide

/-- 95_test_vectors.md, vector M31: mtlo $t0. -/
theorem test_mtlo_M31 :
    after
      ({ start .big [(8, 0x00000007)] with hi := 0x00000001, lo := 0x00000002 })
      0x01000013 (fun t => (t.hi, t.lo, t.pc))
      = some (0x00000001, 0x00000007, 0x00400004) := by decide

/-! ### Single steps: 43_load_store.md -/

/-- 95_test_vectors.md, vector S1: lb $t0, -1($t1). -/
theorem test_lb_S1 :
    after (withBytes [(0x10010003, 0xF0)] (start .big [(9, 0x10010004)])) 0x8128FFFF (fun t => (t.x 8, t.pc))
      = some (0xFFFFFFF0, 0x00400004) := by decide

/-- 95_test_vectors.md, vector S3: lb $t0, 0($t1). -/
theorem test_lb_S3 :
    after (withBytes [(0x10010000, 0x80)] (start .big [(9, 0x10010000)])) 0x81280000 (fun t => (t.x 8, t.pc))
      = some (0xFFFFFF80, 0x00400004) := by decide

/-- 95_test_vectors.md, vector S5: lbu $t0, 3($t1). -/
theorem test_lbu_S5 :
    after (withBytes [(0x10010003, 0xF0)] (start .big [(9, 0x10010000)])) 0x91280003 (fun t => (t.x 8, t.pc))
      = some (0x000000F0, 0x00400004) := by decide

/-- 95_test_vectors.md, vector S6: lbu $t0, -1($zero). -/
theorem test_lbu_S6 :
    after (withBytes [(0xFFFFFFFF, 0xAB)] (start .big [])) 0x9008FFFF (fun t => (t.x 8, t.pc))
      = some (0x000000AB, 0x00400004) := by decide

/-- 95_test_vectors.md, vector S8b: lw $t0, 1($t1). -/
theorem test_lw_S8b :
    after
      (withBytes [(0x10010000, 0xAA), (0x10010001, 0x11), (0x10010002, 0x22), (0x10010003, 0x33), (0x10010004,
        0x44)] (start .big [(9, 0x10010000)]))
      0x8D280001 (fun t => (t.x 8, t.pc))
      = some (0x11223344, 0x00400004) := by decide

/-- 95_test_vectors.md, vector S9l: lw $t0, -2($zero). -/
theorem test_lw_S9l :
    after
      (withBytes [(0xFFFFFFFE, 0x01), (0xFFFFFFFF, 0x02), (0x00000000, 0x03), (0x00000001, 0x04)] (start .little []))
      0x8C08FFFE (fun t => (t.x 8, t.pc))
      = some (0x04030201, 0x00400004) := by decide

/-- 95_test_vectors.md, vector S10: sb $t0, 0($t1). -/
theorem test_sb_S10 :
    after
      (start .big [(8, 0x12345678), (9, 0x10010001)])
      0xA1280000 (fun t => (t.memRead1 0x10010000, t.memRead1 0x10010001, t.memRead1 0x10010002, t.pc))
      = some (0x00, 0x78, 0x00, 0x00400004) := by decide

/-- 95_test_vectors.md, vector S12b: sw $t0, 3($t1). -/
theorem test_sw_S12b :
    after
      (start .big [(8, 0xA1B2C3D4), (9, 0x10010000)])
      0xAD280003 (fun t => (t.memRead1 0x10010002, t.memRead1 0x10010003, t.memRead1 0x10010006, t.memRead1 0x10010007, t.pc))
      = some (0x00, 0xA1, 0xD4, 0x00, 0x00400004) := by decide

/-- 95_test_vectors.md, vector S12l: sw $t0, 3($t1). -/
theorem test_sw_S12l :
    after
      (start .little [(8, 0xA1B2C3D4), (9, 0x10010000)])
      0xAD280003 (fun t => (t.memRead1 0x10010002, t.memRead1 0x10010003, t.memRead1 0x10010006, t.memRead1 0x10010007, t.pc))
      = some (0x00, 0xD4, 0xA1, 0x00, 0x00400004) := by decide

/-! ### Single steps: 44_control.md -/

/-- 95_test_vectors.md, vector C2: beq $t0, $t1, +3. -/
theorem test_beq_C2 :
    after ({ start .big [(8, 0x00000009), (9, 0x00000008)] with pc := 0x00400010 }) 0x11090003 (fun t => (t.pc))
      = some (0x00400014) := by decide

/-- 95_test_vectors.md, vector C4: beq $zero, $zero, -32768. -/
theorem test_beq_C4 :
    after ({ start .big [] with pc := 0x00400010 }) 0x10008000 (fun t => (t.pc))
      = some (0x003E0014) := by decide

/-- 95_test_vectors.md, vector C6: bne $t0, $zero, -2. -/
theorem test_bne_C6 :
    after ({ start .big [(8, 0x00000005)] with pc := 0x00400018 }) 0x1500FFFE (fun t => (t.pc))
      = some (0x00400014) := by decide

/-- 95_test_vectors.md, vector C7: bne $t0, $zero, -2. -/
theorem test_bne_C7 :
    after ({ start .big [(8, 0x00000000)] with pc := 0x00400018 }) 0x1500FFFE (fun t => (t.pc))
      = some (0x0040001C) := by decide

/-- 95_test_vectors.md, vector C8: blez $t0, +1. -/
theorem test_blez_C8 :
    after (start .big [(8, 0x00000000)]) 0x19000001 (fun t => (t.pc))
      = some (0x00400008) := by decide

/-- 95_test_vectors.md, vector C10: blez $t0, +1. -/
theorem test_blez_C10 :
    after (start .big [(8, 0x80000000)]) 0x19000001 (fun t => (t.pc))
      = some (0x00400008) := by decide

/-- 95_test_vectors.md, vector C11: bgtz $t0, -1. -/
theorem test_bgtz_C11 :
    after ({ start .big [(8, 0x00000001)] with pc := 0x00400008 }) 0x1D00FFFF (fun t => (t.pc))
      = some (0x00400008) := by decide

/-- 95_test_vectors.md, vector C13: bgtz $t0, -1. -/
theorem test_bgtz_C13 :
    after ({ start .big [(8, 0x80000000)] with pc := 0x00400008 }) 0x1D00FFFF (fun t => (t.pc))
      = some (0x0040000C) := by decide

/-- 95_test_vectors.md, vector C14: j 0x00400020. -/
theorem test_j_C14 :
    after (start .big []) 0x08100008 (fun t => (t.pc))
      = some (0x00400020) := by decide

/-- 95_test_vectors.md, vector C15: j 0x0FFFFFFC. -/
theorem test_j_C15 :
    after ({ start .big [] with pc := 0xF0000000 }) 0x0BFFFFFF (fun t => (t.pc))
      = some (0x0FFFFFFC) := by decide

/-- 95_test_vectors.md, vector C16: jal 0x00400100. -/
theorem test_jal_C16 :
    after ({ start .big [] with pc := 0x00400008 }) 0x0C100040 (fun t => (t.x 31, t.pc))
      = some (0x0040000C, 0x00400100) := by decide

/-- 95_test_vectors.md, vector C17: jr $ra. -/
theorem test_jr_C17 :
    after (start .big [(31, 0x0040000C)]) 0x03E00008 (fun t => (t.pc))
      = some (0x0040000C) := by decide

/-- 95_test_vectors.md, vector C18: jr $t0. -/
theorem test_jr_C18 :
    after (start .big [(8, 0x00400002)]) 0x01000008 (fun t => (t.pc))
      = some (0x00400002) := by decide

/-- 95_test_vectors.md, vector C20: jalr $t0, $t0. -/
theorem test_jalr_C20 :
    after ({ start .big [(8, 0x00400200)] with pc := 0x00400010 }) 0x01004009 (fun t => (t.x 8, t.pc))
      = some (0x00400014, 0x00400200) := by decide

/-- 95_test_vectors.md, vector C21: jalr $zero, $t0. -/
theorem test_jalr_C21 :
    after ({ start .big [(8, 0x00400200)] with pc := 0x00400010 }) 0x01000009 (fun t => (t.x 0, t.pc))
      = some (0x00000000, 0x00400200) := by decide

/-! ### Single steps: 45_system.md -/

/-- 95_test_vectors.md, vector Y1: syscall. -/
theorem test_syscall_Y1 :
    after
      ({ start .big [(2, 0x0000000A)] with pc := 0x00400010, params := servedParams })
      0x0000000C (fun t => (t.x 2, t.status, t.pc))
      = some (0x0000000A, Status.halted, 0x00400014) := by decide

/-- 95_test_vectors.md, vector Y2: syscall. -/
theorem test_syscall_Y2 :
    after
      ({ start .big [(2, 0x0000000A)] with pc := 0x00400010 })
      0x0000000C (fun t => (t.x 2, t.status, t.cause.code, t.causeInfo, t.pc))
      = some (0x0000000A, Status.faulted, 2, 10, 0x00400010) := by decide

/-- 95_test_vectors.md, vector Y3: syscall. -/
theorem test_syscall_Y3 :
    after
      ({ start .big [(2, 0x00000001), (4, 0x0000002A)] with pc := 0x00400010, params := servedParams })
      0x0000000C (fun t => (t.x 2, t.x 4, t.pc))
      = some (0x00000001, 0x0000002A, 0x00400014) := by decide

/-- 95_test_vectors.md, vector Y4: syscall. -/
theorem test_syscall_Y4 :
    after
      ({ start .big [(2, 0x00000005)] with pc := 0x00400010, params := servedParams })
      0x0000000C (fun t => (t.x 2, t.status, t.pc))
      = some (0x00000005, Status.suspended, 0x00400010) := by decide

/-! ### Single steps: the decoder -/

/-- 95_test_vectors.md, vector X1: zero word. -/
theorem test_zero_word_halts_X1 :
    after (start .big []) 0x00000000 (fun t => (t.status, t.pc))
      = some (Status.halted, 0x00400000) := by decide

/-- 95_test_vectors.md, vector X2: opcode 0x01 (REGIMM in standard MIPS). -/
theorem test_unused_opcode_halts_X2 :
    after (start .big []) 0x04000000 (fun t => (t.status, t.pc))
      = some (Status.halted, 0x00400000) := by decide

/-- 95_test_vectors.md, vector X4: funct `0x0D` (`break`). -/
theorem test_unused_funct_halts_X4 :
    after (start .big []) 0x0000000D (fun t => (t.status, t.pc))
      = some (Status.halted, 0x00400000) := by decide

/-- 95_test_vectors.md, vector X10: add $t0, $t1, $t2 with shamt = 31. -/
theorem test_add_ignores_shamt_X10 :
    after (start .big [(9, 0x00000001), (10, 0x00000002)]) 0x012A47E0 (fun t => (t.x 8, t.pc))
      = some (0x00000003, 0x00400004) := by decide

/-- 95_test_vectors.md, vector X11: lui $t0, 1 with rs = 31. -/
theorem test_lui_ignores_rs_X11 :
    after (start .big []) 0x3FE80001 (fun t => (t.x 8, t.pc))
      = some (0x00010000, 0x00400004) := by decide

/-- 95_test_vectors.md, vector X12: jr $ra with rt, rd, shamt all ones. -/
theorem test_jr_ignores_rt_rd_shamt_X12 :
    after (start .big [(31, 0x00400040)]) 0x03FFFFC8 (fun t => (t.pc))
      = some (0x00400040) := by decide

/-! ### The host and the off-line pass -/

/-- 93_implementation_defined.md U9: print_int of -5 appends "-5" and print_string stops before the zero byte. -/
theorem test_print_services :
    after { start .big [(2, 1), (4, 0xFFFFFFFB)] with params := servedParams } 0x0000000C
      (fun t => t.host.console) = some [⟨.success, .chars [0x2D, 0x35]⟩] ∧
    after { withBytes [(0x10010000, 0x48), (0x10010001, 0x69)] (start .big [(2, 4), (4, 0x10010000)]) with
        params := servedParams } 0x0000000C
      (fun t => t.host.console) = some [⟨.success, .chars [0x48, 0x69]⟩] := by decide

/-- 95_test_vectors.md L1.8, its last paragraph: the input "123" completes the read. -/
theorem test_resume_read_int :
    let s : State := { start .big [(2, 5)] with
      params := servedParams, status := .suspended
      host := { HostSide.initial 3 0 with pending := some ⟨.readInt, 3⟩, consoleState := .waitingInput } }
    (hostResume "123".toList 3 s).x 2 = 123 ∧ (hostResume "123".toList 3 s).pc = 0x00400004 ∧
    (hostResume "123".toList 3 s).status = .running ∧ hostResume "123".toList 2 s = s ∧
    (hostResume "12x".toList 3 s).status = .suspended := by decide

/-- A program of one source file. -/
def oneFile (text : String) : List SourceFile := [⟨0, "main".toList, text.toList⟩]

/-- The words a source assembles to with the default settings, and the kind of its error. -/
def assembled (text : String) : List Word × Option ErrorKind :=
  let r := assemble .default .big (oneFile text)
  (r.listing.map (·.word), r.error.map (·.kind))

set_option maxRecDepth 20000 in
/-- 95_test_vectors.md AS5, AS8, AS17, AS18, AS21. -/
theorem test_assemble_expansions :
    assembled "li $t0, 32768\nli $t0, 0x12345678\nnop\nadd $t0, $t1, 100\nand $t0, $t1, -1"
      = ([0x34088000, 0x3C011234, 0x34285678, 0x00000040, 0x21280064, 0x2401FFFF, 0x01214024], none) := by decide

set_option maxRecDepth 20000 in
/-- 95_test_vectors.md AS26, AS28: a memory operand that names a label. -/
theorem test_assemble_memory_operands :
    assembled ".data\nval: .word 1\n.text\nlw $t0, val\nlw $t0, val+4($t1)"
      = ([0x3C011001, 0x34210000, 0x8C280000, 0x3C011001, 0x34210004, 0x00290821, 0x8C280000], none) := by decide

set_option maxRecDepth 20000 in
/-- 95_test_vectors.md AS31, AS33, AS36, AS38, AS41: the statement is refused. -/
theorem test_assemble_errors :
    (assembled "addi $t0, $t1, 32768").2.isSome = true ∧ (assembled "sll $t0, $t1, 32").2.isSome = true ∧
    (assembled "j 0x00400002").2.isSome = true ∧ (assembled "mul $t0, $t1, $t2").2.isSome = true ∧
    (assembled ".data\nadd $t0, $t1, $t2").2.isSome = true := by decide

/-- The token and the kind of a source's error. -/
def errorOf (cfg : Settings) (text : String) : Option (ErrorKind × Option Text) :=
  (assemble cfg .big (oneFile text)).error.map fun e => (e.kind, e.token)

set_option maxRecDepth 20000 in
/-- 95_test_vectors.md AS34, 50_assembler.md R203, R204, R235: an InvalidOperand error names its token. -/
theorem test_assemble_invalid_operand_token :
    errorOf .default "add $t0, $t1, $t9x" = some (.invalidOperand, some "$t9x".toList) ∧
    errorOf .default "addi $t0, $t1, foo" = some (.invalidOperand, some "foo".toList) ∧
    errorOf .default "beq $9, 5, $t1\n" = some (.invalidOperand, some "$t1".toList) ∧
    errorOf { Settings.default with allowLiterals := false } "nop\nadd $t0, $t1, 5"
      = some (.invalidOperand, some "5".toList) ∧
    errorOf .default "add $t0, $t1" = some (.operandCount, none) := by decide

set_option maxRecDepth 20000 in
/-- 95_test_vectors.md AS29, the part before `.align` and the string after it, big-endian. -/
theorem test_assemble_data :
    (assemble .default .big (oneFile
      ".data\na: .byte 1, 2, 3\nb2: .half 0x1234\n.align 2\ns: .asciiz \"Hi\\n\"\nf: .byte 'A'")).mem
      = [(0x10010000, 1), (0x10010001, 2), (0x10010002, 3), (0x10010003, 0x12), (0x10010004, 0x34),
          (0x10010008, 0x48), (0x10010009, 0x69), (0x1001000A, 0x0A), (0x1001000C, 0x41)] := by decide

set_option maxRecDepth 20000 in
/-- 95_test_vectors.md AS30: a `.globl` label of one file is reached from the other. -/
theorem test_assemble_two_files :
    let r := assemble { Settings.default with entry := .mainLabel } .big
      [⟨0, "A".toList, ".globl helper\nhelper: jr $ra\nlocal: nop".toList⟩,
        ⟨1, "B".toList, "main: jal helper\naddi $s0, $zero, 1".toList⟩]
    r.entry = 0x00400008 ∧ r.error = none ∧
    r.listing.map (·.word) = [0x03E00008, 0x00000040, 0x0C100000, 0x20100001] := by decide

set_option maxRecDepth 20000 in
/-- 30_encoding.md R87, L1.1: the text of a word assembles to the word again. -/
theorem test_disassemble :
    disassemble 0xAFA8FFFC = some "sw $8, -4($29)".toList ∧ disassemble 0x08100008 = some "j 4194336".toList ∧
    disassemble 0 = none ∧
    assembled "sw $8, -4($29)\nj 4194336\nori $31, $31, 65535\nbeq $9, $10, -32768\nsll $31, $31, 31\nsyscall"
      = ([0xAFA8FFFC, 0x08100008, 0x37FFFFFF, 0x112A8000, 0x001FFFC0, 0x0000000C], none) := by decide

/-! ### Witnesses: the hypotheses of each obligation can be met together -/

/-- The invariant at reset; the same proof serves other small states. -/
theorem witness_inv_reset : State.reset.Inv where
  memory := by decide
  zero := by decide
  faulted := by decide
  causeInfo := by decide
  suspended := by decide
  token := by intro c h; exact nomatch h
  waiting := by decide

/-- A core suspended in a read of an integer, the invariant with it. -/
def blocked : State :=
  { start .big [(2, 5)] with
    params := servedParams, status := .suspended
    host := { HostSide.initial 3 0 with
      mode := .execute, pending := some ⟨.readInt, 3⟩, consoleState := .waitingInput } }

/-- The state with the given word to fetch. -/
def fetching (w : Nat) (s : State) : State := s.withFetchWord 32 w

theorem witness_DecodingAnEncodedInstructionGivesItBack :
    Instr.wf (.sw 31 0x8000 31) = true ∧ Instr.wf (.sll 0 0 0) = false := by decide

/-- All ignored bits of `syscall` set. -/
theorem witness_UnusedFieldsAreIgnored :
    decode 0x0000000C = .instr .syscall ∧ (0x03FFFFCC : Word) ≠ 0 ∧
    (0x03FFFFCC : Word) &&& ~~~Instr.syscall.op.ignoredMask = 0x0000000C &&& ~~~Instr.syscall.op.ignoredMask := by
  decide

theorem witness_NoTwoRowsMatchTheSameWord :
    Op.sll.row.matchesKey 0 0 = true ∧ Op.sw.row.matchesKey 0x2B 0x3F = true ∧ Op.sltu.row.matchesKey 0 0x2B = true := by
  decide

theorem witness_StepExecutesTheDecodedInstruction :
    let s := fetching 0x21F00007 (start .little [])
    s.status = .running ∧
    (decodeBytes s.params.endian
      [s.memRead1 s.pc, s.memRead1 (s.pc + 1), s.memRead1 (s.pc + 2), s.memRead1 (s.pc + 3)]).1
        = .instr (.addi 16 15 7) := by decide

theorem witness_InvalidWordHalts :
    State.reset.status = .running ∧ decode State.reset.fetch = .invalid .zeroWord := by decide

theorem witness_ExitServiceHalts :
    let s := fetching 0x0000000C { start .big [(2, 10)] with params := servedParams }
    s.status = .running ∧ decode s.fetch = .instr .syscall ∧
    s.params.syscallTable.lookup (s.x 2) = some .exit ∧ (serviceAnswer .exit s).outcome = .exit := by decide

/-- Of StoppedCoreDoesNothingOnStep, and of OnlyResetLeavesHaltedAndFaulted by its first and third clause. -/
theorem witness_StoppedCore :
    (State.reset.halt).status = .halted ∧ blocked.status = .suspended ∧ State.reset.raiseOverflow.status = .faulted := by
  decide

/-- Of StaleInputChangesNothing: a later state of the new generation, suspended in a new call. -/
theorem witness_StaleInput :
    let u := { blocked with host := { blocked.host with generation := 4, pending := some ⟨.readInt, 4⟩ } }
    (hostReset blocked).host.generation ≤ u.host.generation ∧ u.status = .suspended ∧
    (hostResume "123".toList 4 u).status = .running ∧ (3 : Nat) ≠ u.host.generation := by decide

/-- Of StepKeepsTheInvariant and of NoStepChangesAParameter: a step from a state that has the invariant. -/
theorem witness_StepKeepsTheInvariant : State.reset.Inv ∧ ∃ t, step State.reset = .next t :=
  ⟨witness_inv_reset, _, rfl⟩

/-- Of HostActionsKeepTheInvariant and StaleInputChangesNothing: a call is pending. -/
theorem witness_HostActionsKeepTheInvariant : blocked.Inv ∧ blocked.host.pending = some ⟨.readInt, 3⟩ ∧
    (2 : Nat) ≠ blocked.host.generation :=
  ⟨{ memory := by decide
     zero := by decide
     faulted := by decide
     causeInfo := by decide
     suspended := by decide
     token := by intro c h; exact (Option.some.inj h) ▸ rfl
     waiting := by decide }, by decide, by decide⟩

/-- Of HostResetForgetsEverything: two different states with the same parameters, generation and count. -/
theorem witness_HostResetForgetsEverything :
    let t := start .big [(8, 1)]
    t.params = State.reset.params ∧ t.host.generation = State.reset.host.generation ∧
    t.host.calls = State.reset.host.calls ∧ t ≠ State.reset := by decide

set_option maxRecDepth 20000 in
/-- Of AssemblingLoadsTheImage, by both clauses. -/
theorem witness_AssemblingLoadsTheImage :
    (assemble .default .big (oneFile "nop")).error = none ∧
    (assemble .default .big (oneFile "mul")).error ≠ none := by decide

/-- Of WritingRegisterZeroChangesNoRegister: a result just in range and one just outside it, for each instruction that
traps, and two forms that cannot. -/
theorem witness_WritingRegisterZero :
    let s := start .big [(9, 0x7FFFFFFE), (10, 1), (11, 2), (12, 0x80000001)]
    (destination (.add 0 9 10) = some 0 ∧ ¬ resultOutOfRange (.add 0 9 10) s ∧ resultOutOfRange (.add 0 9 11) s) ∧
    (destination (.sub 0 12 10) = some 0 ∧ ¬ resultOutOfRange (.sub 0 12 10) s ∧ resultOutOfRange (.sub 0 12 11) s) ∧
    (destination (.addi 0 9 1) = some 0 ∧ ¬ resultOutOfRange (.addi 0 9 1) s ∧ resultOutOfRange (.addi 0 9 2) s) ∧
    (destination (.lw 0 0 9) = some 0 ∧ ¬ resultOutOfRange (.lw 0 0 9) s) ∧
    (destination (.jalr 0 8) = some 0 ∧ ¬ resultOutOfRange (.jalr 0 8) s) := by
  simp only [resultOutOfRange, outsideSignedRange]
  decide

/-- Of OnlyTheNamedRegistersChange and OnlyStoresChangeMemory. -/
theorem witness_OnlyTheNamedRegistersChange :
    Instr.mult 9 10 ≠ .syscall ∧ mayWriteHiLo (.addu 8 9 10) = false ∧ mayWriteMemory (.mult 9 10) = false ∧
    (∃ t, exec (.mult 9 10) State.reset = .next t) ∧ ∃ t, exec (.addu 8 9 10) State.reset = .next t :=
  ⟨by decide, by decide, by decide, ⟨_, rfl⟩, _, rfl⟩

/-- Of OnlyTrapsSetTheCause, by its three clauses: no trap, an overflow, an undefined code. -/
theorem witness_OnlyTrapsSetTheCause :
    (start .big [(9, 0x7FFFFFFF)]).status = .running ∧
    (∃ t, exec (.addu 8 9 9) (start .big [(9, 0x7FFFFFFF)]) = .next t ∧ t.status = .running) ∧
    (∃ t, exec (.addi 8 9 1) (start .big [(9, 0x7FFFFFFF)]) = .next t ∧ t.status = .faulted) ∧
    ∃ t, exec .syscall (start .big [(2, 10)]) = .next t ∧ t.status = .faulted :=
  ⟨by decide, ⟨_, rfl, rfl⟩, ⟨_, rfl, rfl⟩, _, rfl, rfl⟩

/-- Of AddSubAddiWriteInRangeAndTrapOutside: both ends of the range and the first values outside, for each form. -/
theorem witness_AddSubAddi :
    let s := start .big [(9, 0x7FFFFFFE), (10, 1), (11, 0x80000001), (12, 2)]
    (s.x 9).toInt + (s.x 10).toInt = 2 ^ 31 - 1 ∧ (s.x 9).toInt + (s.x 12).toInt = 2 ^ 31 ∧
    (s.x 11).toInt - (s.x 10).toInt = -2 ^ 31 ∧ (s.x 11).toInt - (s.x 12).toInt = -2 ^ 31 - 1 ∧
    (s.x 9).toInt + (1 : BitVec 16).toInt = 2 ^ 31 - 1 ∧ (s.x 11).toInt + (0xFFFE : BitVec 16).toInt = -2 ^ 31 - 1 := by
  decide

theorem witness_ShiftsByShamt : wordR 0x00 31 0 0 0 ≠ 0 ∧ wordR 0x00 0 0 0 1 ≠ 0 := by decide

/-- Of SignedDivide and UnsignedDivide, by each clause: by zero, -2^31 by -1, and -2^31 by 1. -/
theorem witness_Divide :
    let s := start .big [(9, 0x80000000), (10, 0xFFFFFFFF), (11, 1)]
    (s.x 0).toInt = 0 ∧ (s.x 0).toNat = 0 ∧ ((s.x 9).toInt = -2 ^ 31 ∧ (s.x 10).toInt = -1) ∧
    ((s.x 11).toInt ≠ 0 ∧ ¬ ((s.x 9).toInt = -2 ^ 31 ∧ (s.x 11).toInt = -1)) ∧ (s.x 10).toNat ≠ 0 := by decide

/-- Of the loads and stores: a canonical memory in either byte order; a word at the end of the address space, which the
effective address -2 reaches. -/
theorem witness_LoadsAndStores :
    let s := withBytes [(0xFFFFFFFE, 1), (0xFFFFFFFF, 2), (0, 3), (1, 4)] (start .big [])
    Memory.wf s.mem ∧ s.params.endian = .big ∧ (start .little []).params.endian = .little ∧
    Memory.wf (start .little []).mem ∧ effectiveAddress s 0 0xFFFE = 0xFFFFFFFE := by decide

theorem witness_FetchSeesTheStoreBeforeIt :
    let s := fetching 0xAD480004 (start .big [(10, 0x00400000), (8, 0x20090063)])
    Memory.wf s.mem ∧ s.status = .running ∧ decode s.fetch = .instr (.sw 8 4 10) ∧
    effectiveAddress s 10 4 = s.pc + 4 ∧ decode (s.x 8) = .instr (.addi 9 0 99) := by decide

theorem witness_UndefinedSyscallCodeTraps : State.reset.params.syscallTable.lookup (State.reset.x 2) = none := by decide

/-- Of ServedSyscallEndsByItsOutcome, by its four clauses. -/
theorem witness_ServedSyscall :
    let s := fun code : Word => { start .big [(2, code)] with params := servedParams }
    Memory.wf (s 1).mem ∧
    (s 1).params.syscallTable.lookup ((s 1).x 2) = some .printInt ∧ (serviceAnswer .printInt (s 1)).outcome = .proceed ∧
    (s 10).params.syscallTable.lookup ((s 10).x 2) = some .exit ∧ (serviceAnswer .exit (s 10)).outcome = .exit ∧
    (s 5).params.syscallTable.lookup ((s 5).x 2) = some .readInt ∧ (serviceAnswer .readInt (s 5)).outcome = .block ∧
    (s 0xFFFFFFFF).params.syscallTable.lookup ((s 0xFFFFFFFF).x 2) = none := by decide

/-- Of ResumeCompletesThePendingCall, by its clauses: the largest input accepted, the first one too large refused. -/
theorem witness_ResumeCompletesThePendingCall :
    Memory.wf blocked.mem ∧ blocked.status = .suspended ∧ blocked.host.pending = some ⟨.readInt, 3⟩ ∧
    (serviceReply .readInt blocked "2147483647".toList).writes = some ⟨[(2, 0x7FFFFFFF)], none, none, []⟩ ∧
    (serviceReply .readInt blocked "2147483648".toList).writes = none ∧
    (4 ≠ blocked.host.generation ∧ State.reset.status ≠ .suspended) := by decide

/-- Of RunProducesStatesOfSteps: the core is running after no step, and halted after one. -/
theorem witness_RunProducesStatesOfSteps :
    let s := { State.reset with host := { State.reset.host with mode := .execute } }
    s.host.mode = .execute ∧ (hostRun 0 s).status = .running ∧ (hostRun 1 s).status = .halted := by decide

/-- Of LabelTargetsAreReached: the farthest labels in reach and the first beyond. -/
theorem witness_LabelTargetsAreReached :
    branchField 0x00400000 0x00420000 = .ok 0x7FFF ∧ branchField 0x00400000 0x003E0004 = .ok 0x8000 ∧
    (branchField 0x00400000 0x00420004).toOption = none ∧ jumpField 0x0FFFFFFC = .ok 0x3FFFFFF ∧
    (jumpField 0x10000000).toOption = none :=
  ⟨rfl, rfl, by decide, rfl, by decide⟩

/-- Of LoadImmediateLoadsItsLiteral: the ends of its range; the words it gives at the ends of each form. -/
theorem witness_LoadImmediate :
    ((-2 : Int) ^ 31 ≤ 2 ^ 32 - 1) ∧ (encodeStmts (fun _ => none) 0 (expandLi 8 (-32768))).toOption = some [0x24088000] ∧
    (encodeStmts (fun _ => none) 0 (expandLi 8 65535)).toOption = some [0x3408FFFF] ∧
    (encodeStmts (fun _ => none) 0 (expandLi 8 65536)).toOption = some [0x3C010001, 0x34280000] ∧
    (encodeStmts (fun _ => none) 0 (expandLi 8 (-32769))).toOption = some [0x3C01FFFF, 0x34287FFF] := by decide

/-- Of LoadAddressLoadsTheLabel: a label that resolves. -/
theorem witness_LoadAddress :
    let resolve : Text → Option Word := fun _ => some 0x10010000
    resolve "val".toList = some 0x10010000 ∧
    (encodeStmts resolve 0x00400000 (expandLa 8 ⟨"val".toList, 0⟩)).toOption = some [0x3C011001, 0x34280000] := by decide

/-- Of ComparePseudosBranchOnTheComparison: each of the four expands and assembles (AS13 to AS16). -/
theorem witness_ComparePseudos :
    let resolve : Text → Option Word := fun _ => some 0x00400008
    let words := fun p : Pseudo =>
      ((expandPseudo p [.reg 8, .reg 9, .ref ⟨"L".toList, 0⟩]).bind (encodeStmts resolve 0x0040000C)).toOption
    ({ State.reset with pc := 0x0040000C } : State).pc = 0x0040000C ∧ resolve "L".toList = some 0x00400008 ∧
    words .blt = some [0x0109082A, 0x1420FFFD] ∧ words .bgt = some [0x0128082A, 0x1420FFFD] ∧
    words .ble = some [0x0128082A, 0x1020FFFD] ∧ words .bge = some [0x0109082A, 0x1020FFFD] := by decide

/-- Of BothPassesMoveTheCursorsAlike: a line both passes take, from the same cursors. -/
theorem witness_BothPasses :
    let l := parseLine 1 "x: nop".toList
    let p : PassOne := ⟨.initial .default, [], [], []⟩
    let q : PassTwo := ⟨.initial .default, [], []⟩
    p.cursors = q.cursors ∧ (p.line .default .big l).toOption.isSome = true ∧
    (q.line .default .big (fun _ => none) 0 l).toOption.isSome = true := by decide

end Sys2Proof.Tests
end

section
/-!
PROOFS. The statements about the core's state (10_state.md): the invariant and its step, what an instruction with and
without a general destination leaves, the step itself, and the state after reset.
-/

-- One elaboration thread: each thread's stack counts against the check's memory limit.
set_option Elab.async false

namespace Sys2Proof.Machine

/-! ### The invariant, operation by operation -/

namespace State.Inv

variable {s t : State}

/-- The invariant speaks of nothing but these parts of a state. -/
theorem of_same (h : s.Inv) (mem : s.mem.wf → t.mem.wf) (zero : t.regs[0] = s.regs[0]) (status : t.status = s.status)
    (cause : t.cause = s.cause) (causeInfo : t.causeInfo = s.causeInfo) (pending : t.host.pending = s.host.pending)
    (generation : t.host.generation = s.host.generation) (consoleState : t.host.consoleState = s.host.consoleState) :
    t.Inv where
  memory := mem h.memory
  zero := zero.trans h.zero
  faulted := by rw [status, cause]; exact h.faulted
  causeInfo := by rw [cause, causeInfo]; exact h.causeInfo
  suspended := by rw [status, pending]; exact h.suspended
  token := by rw [pending, generation]; exact h.token
  waiting := by rw [consoleState, pending]; exact h.waiting

theorem of_ordinary (h : s.Inv) (o : Ordinary s t) : t.Inv :=
  have c := o.control
  h.of_same o.memory o.zero c.status c.cause c.causeInfo (by rw [c.host]) (by rw [c.host]) (by rw [c.host])

/-- Committing a service's writes keeps the invariant (45_system.md R191). -/
theorem commit (h : s.Inv) (w : ServiceWrites) : (s.commit w).Inv := by
  obtain ⟨regs, hi, lo, m, e, zero, mem⟩ := commit_frame s w
  rw [e]
  exact h.of_same mem zero rfl rfl rfl rfl rfl rfl

theorem advance (h : s.Inv) : s.advance.Inv :=
  h.of_same id rfl rfl rfl rfl rfl rfl rfl

/-- A service's answer is counted and its lines are appended (45_system.md R191). -/
theorem answered (h : s.Inv) (calls : Nat) (console : List ConsoleLine) :
    State.Inv { s with host := { s.host with calls := calls, console := console } } :=
  h.of_same id rfl rfl rfl rfl rfl rfl rfl

/-- Only a suspended core has a pending call. -/
theorem pending_eq_none (h : s.Inv) (hs : s.status ≠ .suspended) : s.host.pending = none :=
  Classical.not_not.1 fun hp => hs (h.suspended.2 hp)

/-- Only a faulted core has a cause. -/
theorem cause_eq_none (h : s.Inv) (hs : s.status ≠ .faulted) : s.cause = .none :=
  Classical.not_not.1 fun hc => hs (h.faulted.2 hc)

/-- A running core that halts (60_exceptions.md R266). -/
theorem halt (h : s.Inv) (hr : s.status = .running) : s.halt.Inv where
  memory := h.memory
  zero := h.zero
  faulted := by simp [h.cause_eq_none (by simp [hr])]
  causeInfo := h.causeInfo
  suspended := by simp [h.pending_eq_none (by simp [hr])]
  token := h.token
  waiting := h.waiting

/-- A running core that traps (60_exceptions.md R264), with the `cause_info` 10_state.md R25 gives the cause. -/
theorem raise (h : s.Inv) (hr : s.status = .running) {c : Cause} {info : Word} (hc : c ≠ .none)
    (hi : c ≠ .syscallNotImplemented → info = 0) : (s.raise c info).Inv where
  memory := h.memory
  zero := h.zero
  faulted := by simp [hc]
  causeInfo := hi
  suspended := by simp [h.pending_eq_none (by simp [hr])]
  token := h.token
  waiting := h.waiting

/-- A running core that waits for a service's input (45_system.md R190, 60_exceptions.md R278). -/
theorem suspend (h : s.Inv) (hr : s.status = .running) (svc : Service) : (s.suspend svc).Inv where
  memory := h.memory
  zero := h.zero
  faulted := by simp [h.cause_eq_none (by simp [hr])]
  causeInfo := h.causeInfo
  suspended := by simp
  token := by simp
  waiting := by simp

end State.Inv

/-- Committing a service's writes leaves the status to the outcome (45_system.md R190). -/
theorem commit_status (s : State) (w : ServiceWrites) : (s.commit w).status = s.status := by
  obtain ⟨regs, hi, lo, m, e, -⟩ := commit_frame s w
  rw [e]

/-- Serving an environment call keeps the invariant, whatever the service answers (45_system.md R190). -/
theorem serve_keeps_inv {s : State} (h : s.Inv) (hr : s.status = .running) (svc : Service) : (s.serve svc).Inv := by
  have answered := h.answered (s.host.calls + 1) (s.host.console ++ consoleLines (serviceAnswer svc s).lines)
  have committed := (answered.commit (serviceAnswer svc s).writes).advance
  rcases serve_cases s svc with ⟨-, e⟩ | ⟨-, e⟩ | ⟨-, e⟩ <;> rw [e]
  · exact committed
  · exact committed.halt ((commit_status _ _).trans hr)
  · exact answered.suspend hr svc

/-- An environment call keeps the invariant: it traps with the code as `cause_info`, or is served. -/
theorem execSyscall_keeps_inv {s t : State} (h : s.Inv) (hr : s.status = .running) (e : execSyscall s = .next t) :
    t.Inv := by
  rcases execSyscall_cases s with ⟨-, e'⟩ | ⟨svc, -, e'⟩ <;> rw [e'] at e <;> cases e
  · exact h.raise hr (by simp) (by simp)
  · exact serve_keeps_inv h hr svc

/-- Every instruction a running core executes keeps the invariant. -/
theorem exec_keeps_inv {s t : State} (h : s.Inv) (hr : s.status = .running) {i : Instr} (e : exec i s = .next t) :
    t.Inv := by
  rcases exec_cases i s with ⟨u, e', o⟩ | ⟨e', -⟩ | rfl
  · cases e'.symm.trans e
    exact h.of_ordinary o
  · cases e'.symm.trans e
    exact h.raise hr (by simp) fun _ => rfl
  · exact execSyscall_keeps_inv h hr e

/-- Settles O12: a stopped core stays as it is, an invalid word halts, and each way an instruction can end keeps the
invariant. -/
theorem stepKeepsTheInvariant : Obligations.StepKeepsTheInvariant := by
  intro s t h e
  rcases step_cases s with ⟨-, e'⟩ | ⟨hr, -, e'⟩ | ⟨hr, i, -, e'⟩ <;> rw [e'] at e
  · cases e; exact h
  · cases e; exact h.halt hr
  · exact exec_keeps_inv h hr e

/-! ### What an instruction does to the registers -/

/-- Where an instruction that writes a general register goes on (10_state.md R21, 44_control.md R176, R178). -/
def pcAfterWrite (i : Instr) (s : State) : Word :=
  match i with
  | .jal address => jumpTarget address
  | .jalr _ rs => s.x rs
  | _ => s.pc + 4

/-- A register other than the one written reads as before. -/
theorem x_setX_of_ne (s : State) {q r : Reg} (v : Word) (h : q ≠ r) : (s.setX r v).x q = s.x q := by
  rw [x_setX, if_neg h]
  split
  · subst q; rfl
  · rfl

/-- The trapping three: in range the result is written, outside it Overflow is raised (40_arithmetic.md R100). -/
theorem writeOrTrap_range_cases (rd : Reg) (r : Int) (s : State) :
    (outsideSignedRange r ∧ writeOrTrap rd r s = .next (s.raise .overflow 0)) ∨
      (¬ outsideSignedRange r ∧ ∃ v, writeOrTrap rd r s = .next ((s.setX rd v).setPc (s.pc + 4))) := by
  by_cases hr : outsideSignedRange r
  · exact .inl ⟨hr, writeOrTrap_out_of_range hr rd s⟩
  · have inRange : -2 ^ 31 ≤ r ∧ r ≤ 2 ^ 31 - 1 := by unfold outsideSignedRange at hr; omega
    refine .inr ⟨hr, BitVec.ofInt 32 r, ?_⟩
    rw [writeOrTrap_in_range inRange, writeResult_eq, State.advance, setX_pc]

/-- `addi` adds the value its immediate field has as a signed number (40_arithmetic.md R105). -/
theorem exec_addi (rt rs : Reg) (imm : BitVec 16) (s : State) :
    exec (.addi rt rs imm) s = writeOrTrap rt ((s.x rs).toInt + imm.toInt) s :=
  congrArg (fun n => writeOrTrap rt ((s.x rs).toInt + n) s) (sextImm_toInt imm)

/-- An instruction with a general destination traps with Overflow, exactly when its result is out of range, or writes
its destination and `pc` and nothing else. -/
theorem exec_of_destination {i : Instr} {rd : Reg} (h : destination i = some rd) (s : State) :
    (resultOutOfRange i s ∧ exec i s = .next (s.raise .overflow 0)) ∨
      (¬ resultOutOfRange i s ∧ ∃ v, exec i s = .next ((s.setX rd v).setPc (pcAfterWrite i s))) := by
  have written (v : Word) : ∃ v', writeResult rd v s = .next ((s.setX rd v').setPc (s.pc + 4)) :=
    ⟨v, by rw [writeResult_eq, State.advance, setX_pc]⟩
  cases i with
  | add rd rs rt => cases h; exact writeOrTrap_range_cases _ _ s
  | sub rd rs rt => cases h; exact writeOrTrap_range_cases _ _ s
  | addi rt rs imm =>
    cases h
    rw [exec_addi]
    exact writeOrTrap_range_cases _ _ s
  | jal address => cases h; exact .inr ⟨id, _, rfl⟩
  | jalr rd rs => cases h; exact .inr ⟨id, _, rfl⟩
  | mult | multu | div | divu | mthi | mtlo | sb | sw | beq | bne | blez | bgtz | j | jr | syscall => exact nomatch h
  | _ => cases h; exact .inr ⟨id, written _⟩

/-- An instruction without a general destination, `syscall` apart, changes no general register, and `hi` and `lo` only
if it is one of those that may (10_state.md R14). -/
theorem exec_of_no_destination {i : Instr} (h : destination i = none) (hs : i ≠ .syscall) (s : State) :
    ∃ t, exec i s = .next t ∧ SameRegs s t ∧ (mayWriteHiLo i = false → SameHiLo s t) := by
  have branch (taken : Bool) (imm : BitVec 16) :
      ∃ t, branchIf taken imm s = .next t ∧ SameRegs s t ∧ (mayWriteHiLo i = false → SameHiLo s t) :=
    let ⟨t, e, j⟩ := branchIf_completes taken imm s
    ⟨t, e, j.regs, fun _ => j.hiLo⟩
  cases i with
  | mult | multu | div | divu | mthi | mtlo => exact ⟨_, rfl, .of_regs rfl, fun h => nomatch h⟩
  | sb | sw | j | jr => exact ⟨_, rfl, .of_regs rfl, fun _ => ⟨rfl, rfl⟩⟩
  | beq | bne | blez | bgtz => exact branch _ _
  | syscall => exact absurd rfl hs
  | _ => exact nomatch h

/-- Settles O18: the suppressed write leaves the jump to where the instruction goes on. -/
theorem writingRegisterZeroChangesNoRegister : Obligations.WritingRegisterZeroChangesNoRegister := by
  refine ⟨x_zero, fun i s h => ?_⟩
  rcases exec_of_destination h s with ⟨hr, e⟩ | ⟨hr, v, e⟩
  · exact ⟨_, e, fun _ => traps_raise s _ _, fun hn => absurd hr hn⟩
  · refine ⟨_, e, fun hn => absurd hn hr, fun _ => ?_⟩
    rw [setX_zero]
    cases i with
    | jal address => exact nomatch h
    | _ => exact jumps_setPc s _

/-- Settles O19, by whether the instruction has a general destination. -/
theorem onlyTheNamedRegistersChange : Obligations.OnlyTheNamedRegistersChange := by
  intro i s t hs e
  cases hd : destination i with
  | none =>
    obtain ⟨u, e', regs, hiLo⟩ := exec_of_no_destination hd hs s
    cases e'.symm.trans e
    exact ⟨fun r _ => regs r, hiLo⟩
  | some rd =>
    rcases exec_of_destination hd s with ⟨-, e'⟩ | ⟨-, v, e'⟩ <;> cases e'.symm.trans e
    · exact ⟨fun r _ => raise_x s r _ _, fun _ => ⟨rfl, rfl⟩⟩
    · exact ⟨fun r hr => x_setX_of_ne s v fun e => hr (e ▸ rfl), fun _ => ⟨setX_hi s rd v, setX_lo s rd v⟩⟩

/-! ### The step (10_state.md R30) -/

theorem step_of_decode {s : State} {i : Instr} (hr : s.status = .running) (hd : decode s.fetch = .instr i) :
    step s = exec i s := by
  simp [step, hr, hd]

theorem step_of_not_running {s : State} (h : s.status ≠ .running) : step s = .next s := by
  rcases step_cases s with ⟨-, e⟩ | ⟨hr, -⟩ | ⟨hr, -⟩
  · exact e
  · exact absurd hr h
  · exact absurd hr h

/-- Settles O8: the bytes the statement lists are those the fetch reads, so the two decode alike. -/
theorem stepExecutesTheDecodedInstruction : Obligations.StepExecutesTheDecodedInstruction :=
  fun _ _ hr hd => step_of_decode hr hd

/-- Settles O10: none of the three statuses is Running. -/
theorem stoppedCoreDoesNothingOnStep : Obligations.StoppedCoreDoesNothingOnStep := by
  rintro s (h | h | h) <;> exact step_of_not_running (by simp [h])

/-! ### Reset (10_state.md R16, R33) -/

/-- The general registers after reset (10_state.md R16). -/
theorem resetWith_x (p : Params) (h : HostSide) (r : Reg) :
    (State.resetWith p h).x r = if r = 29 then p.spReset else if r = 28 then Config.gpReset else 0 := by
  by_cases h0 : r = 0
  · subst h0; rfl
  · have h28 : (28 = r.val) = (r = 28) := by rw [eq_comm (a := 28), Fin.ext_iff]; rfl
    have h29 : (29 = r.val) = (r = 29) := by rw [eq_comm (a := 29), Fin.ext_iff]; rfl
    rw [x_of_ne _ _ h0, Fin.getElem_fin]
    simp only [State.resetWith, State.resetRegs, Vector.getElem_set, Vector.getElem_replicate, h28, h29]

theorem resetWith_inv (p : Params) (generation calls : Nat) :
    (State.resetWith p (.initial generation calls)).Inv where
  memory := wf_nil
  zero := rfl
  faulted := by simp [State.resetWith]
  causeInfo := fun _ => rfl
  suspended := by simp [State.resetWith, HostSide.initial]
  token := nofun
  waiting := by simp [State.resetWith, HostSide.initial]

/-- Settles O13: `State.reset` is one of the states `resetWith_inv` speaks of. -/
theorem resetMeetsTheInvariant : Obligations.ResetMeetsTheInvariant :=
  ⟨resetWith_inv .default 0 0, resetWith_inv⟩

/-- Settles O15: the registers by `resetWith_x`, the rest by what `State.resetWith` writes. -/
theorem resetValues : Obligations.ResetValues := by
  refine ⟨fun p h => ⟨?_, ?_, fun r h28 h29 => ?_, rfl, rfl, rfl, rfl, rfl, rfl, fun _ => rfl⟩, ?_, rfl, rfl⟩
  · exact resetWith_x p h 28
  · exact resetWith_x p h 29
  · rw [resetWith_x, if_neg h29, if_neg h28]
  · exact resetWith_x .default _ 29

end Sys2Proof.Machine
end

section
/-!
PROOFS. The statements about memory (20_memory.md): the parameters of the run stay (R50), a word stored is the word
loaded (R45, R47), and the fetch sees the store before it (R53).
-/

-- One elaboration thread: each thread's stack counts against the check's memory limit.
set_option Elab.async false

namespace Sys2Proof.Machine

/-! ### The parameters of the run (20_memory.md R50) -/

/-- Committing a service's writes changes no parameter (45_system.md R191). -/
@[simp] theorem commit_params (s : State) (w : ServiceWrites) : (s.commit w).params = s.params := by
  obtain ⟨regs, hi, lo, m, e, -⟩ := commit_frame s w
  rw [e]

@[simp] theorem serve_params (s : State) (svc : Service) : (s.serve svc).params = s.params := by
  rcases serve_cases s svc with ⟨-, e⟩ | ⟨-, e⟩ | ⟨-, e⟩ <;> simp [e]

theorem execSyscall_keeps_params {s t : State} (e : execSyscall s = .next t) : t.params = s.params := by
  rcases execSyscall_cases s with ⟨-, e'⟩ | ⟨svc, -, e'⟩ <;> cases e'.symm.trans e
  · exact raise_params s _ _
  · exact serve_params s svc

theorem exec_keeps_params {i : Instr} {s t : State} (e : exec i s = .next t) : t.params = s.params := by
  rcases exec_cases i s with ⟨u, e', o⟩ | ⟨e', -⟩ | rfl
  · cases e'.symm.trans e
    exact o.control.params
  · cases e'.symm.trans e
    exact raise_params s _ _
  · exact execSyscall_keeps_params e

/-- Settles O21: a stopped core stays as it is, a halt changes the status only, and no instruction changes a
parameter. -/
theorem noStepChangesAParameter : Obligations.NoStepChangesAParameter := by
  intro s t e
  rcases step_cases s with ⟨-, e'⟩ | ⟨-, -, e'⟩ | ⟨-, i, -, e'⟩ <;> rw [e'] at e
  · cases e; rfl
  · cases e; exact halt_params s
  · exact exec_keeps_params e

/-! ### Stores read back -/

/-- `sw` writes the word at its effective address and goes on to the next word (43_load_store.md R165). -/
theorem exec_sw (rt rs : Reg) (imm : BitVec 16) (s : State) :
    exec (.sw rt imm rs) s = .next (s.memWrite4 (effectiveAddress s rs imm) (s.x rt)).advance := rfl

/-- `lw` writes its destination with the word at its effective address (43_load_store.md R163). -/
theorem exec_lw (rt rs : Reg) (imm : BitVec 16) (s : State) :
    exec (.lw rt imm rs) s = writeResult rt (s.memRead4 (effectiveAddress s rs imm)) s := rfl

@[simp] theorem memRead4_advance (s : State) (a : Word) : s.advance.memRead4 a = s.memRead4 a := rfl

/-- A store changes no register, so the same address operands name the same address after it. -/
@[simp] theorem effectiveAddress_memWrite4_advance (s : State) (a v : Word) (rs : Reg) (imm : BitVec 16) :
    effectiveAddress (s.memWrite4 a v).advance rs imm = effectiveAddress s rs imm := rfl

/-- Settles O41: the load's address is the store's, and there `memRead4_memWrite4` reads the stored word back. -/
theorem loadWordReturnsTheStoredWord : Obligations.LoadWordReturnsTheStoredWord := by
  intro s rt rt' rs imm h
  obtain ⟨u, e, w⟩ := writeResult_completes rt' (s.x rt) (s.memWrite4 (effectiveAddress s rs imm) (s.x rt)).advance
  refine ⟨_, u, exec_sw rt rs imm s, ?_, w⟩
  rw [exec_lw, effectiveAddress_memWrite4_advance, memRead4_advance, memRead4_memWrite4 h, e]

/-- A word stored over the next instruction is the one fetched next (20_memory.md R53). -/
theorem fetch_of_store_at_next {s : State} (h : s.mem.wf) (v : Word) :
    (s.memWrite4 (s.pc + 4) v).advance.fetch = v :=
  memRead4_memWrite4 h (s.pc + 4) v

/-- Settles O42: the step after the store fetches the stored word, which decodes to `j`, and the core still runs. -/
theorem fetchSeesTheStoreBeforeIt : Obligations.FetchSeesTheStoreBeforeIt := by
  intro s rt rs imm j h hr hd ha hj
  refine ⟨(s.memWrite4 (s.pc + 4) (s.x rt)).advance, ?_, rfl, ?_⟩
  · rw [step_of_decode hr hd, exec_sw, ha]
  · have fetched := fetch_of_store_at_next h (s.x rt)
    exact step_of_decode hr (by rw [fetched, hj])

end Sys2Proof.Machine
end

section
/-!
PROOFS. The statements about the encoding (30_encoding.md): the slices of a word and the formats they make up, the key
that selects a catalog row, the round trip, the ignored fields, and the words that are no instruction.
-/

-- One elaboration thread: each thread's stack counts against the check's memory limit.
set_option Elab.async false

namespace Sys2Proof

/-! ### The slices of a word as numbers (30_encoding.md R71 to R74) -/

theorem getBits_toNat (hi lo : Nat) (w : Word) :
    (getBits hi lo w).toNat = w.toNat / 2 ^ lo % 2 ^ (hi - lo + 1) := by
  rw [getBits, BitVec.extractLsb'_toNat, Nat.shiftRight_eq_div_pow]

/-- Settles O2: each slice is a `getBits`; nothing stands above the opcode or below a field at bit 0. -/
theorem decoderSlicesEveryField : Obligations.DecoderSlicesEveryField := by
  intro w
  have opcode : w.toNat / 2 ^ 26 % 2 ^ 6 = w.toNat / 2 ^ 26 := Nat.mod_eq_of_lt (by have := w.isLt; omega)
  have low (n : Nat) : w.toNat / 2 ^ 0 % 2 ^ n = w.toNat % 2 ^ n := by rw [Nat.pow_zero, Nat.div_one]
  refine ⟨(getBits_toNat 31 26 w).trans opcode, getBits_toNat 25 21 w, getBits_toNat 20 16 w, getBits_toNat 15 11 w,
    getBits_toNat 10 6 w, (getBits_toNat 5 0 w).trans (low 6), (getBits_toNat 15 0 w).trans (low 16),
    (getBits_toNat 25 0 w).trans (low 26)⟩

/-- Every word is the sum of the slices of format R (30_encoding.md R71). -/
theorem toNat_eq_sliceSumR (w : Word) :
    w.toNat = (opcodeOf w).toNat * 2 ^ 26 + (rsOf w).val * 2 ^ 21 + (rtOf w).val * 2 ^ 16 + (rdOf w).val * 2 ^ 11
      + (shamtOf w).toNat * 2 ^ 6 + (functOf w).toNat := by
  obtain ⟨opcode, rs, rt, rd, shamt, funct, -, -⟩ := decoderSlicesEveryField w
  omega

/-- Every word is the sum of the slices of format I (30_encoding.md R72). -/
theorem toNat_eq_sliceSumI (w : Word) :
    w.toNat = (opcodeOf w).toNat * 2 ^ 26 + (rsOf w).val * 2 ^ 21 + (rtOf w).val * 2 ^ 16 + (immOf w).toNat := by
  obtain ⟨opcode, rs, rt, -, -, -, imm, -⟩ := decoderSlicesEveryField w
  omega

/-- Every word is the sum of the slices of format J (30_encoding.md R73). -/
theorem toNat_eq_sliceSumJ (w : Word) : w.toNat = (opcodeOf w).toNat * 2 ^ 26 + (addressOf w).toNat := by
  obtain ⟨opcode, -, -, -, -, -, -, address⟩ := decoderSlicesEveryField w
  omega

/-- Settles O1: a word is the sum of its slices, and the slices of a format's word are the fields it was made of. -/
theorem formatsPlaceTheirFields : Obligations.FormatsPlaceTheirFields := by
  refine ⟨fun fn rs rt rd sh => ?_, fun op rs rt imm => ?_, fun op address => ?_⟩
  · simpa using toNat_eq_sliceSumR (wordR fn rs rt rd sh)
  · simpa using toNat_eq_sliceSumI (wordI op rs rt imm)
  · simpa using toNat_eq_sliceSumJ (wordJ op address)

/-! ### The key of a catalog row (30_encoding.md R80, R82) -/

theorem Op.matchesKey_row (o : Op) (opcode funct : BitVec 6) :
    o.row.matchesKey opcode funct = true ↔ opcode = o.row.opcode ∧ (o.row.fmt = .R → funct = o.row.funct) := by
  cases o <;> simp [Row.matchesKey, Op.row, Row.ofR, Row.ofI, Row.ofJ]

/-- A row's own key finds the row, whatever `funct` is if the row is not of format R. -/
theorem Op.ofKey_row (o : Op) (funct : BitVec 6) :
    Op.ofKey o.row.opcode (if o.row.fmt = .R then o.row.funct else funct) = some o := by
  cases o <;> rfl

/-- The catalog finds exactly the row that matches the key. -/
theorem Op.ofKey_eq_some_iff {o : Op} {opcode funct : BitVec 6} :
    Op.ofKey opcode funct = some o ↔ o.row.matchesKey opcode funct = true := by
  constructor
  · exact List.find?_some (p := fun o : Op => o.row.matchesKey opcode funct)
  · intro h
    obtain ⟨rfl, hfunct⟩ := (o.matchesKey_row opcode funct).1 h
    have found := o.ofKey_row funct
    split at found
    · next hR => rwa [hfunct hR]
    · exact found

/-- Settles O6: both rows are the one the catalog finds for the key. -/
theorem noTwoRowsMatchTheSameWord : Obligations.NoTwoRowsMatchTheSameWord :=
  ⟨rfl, fun _ _ _ _ h h' =>
    Option.some.inj ((Op.ofKey_eq_some_iff.2 h).symm.trans (Op.ofKey_eq_some_iff.2 h'))⟩

/-! ### The round trip (30_encoding.md R89) -/

theorem Row.matchesKey_assemble (r : Row) (f : Fields) :
    r.matchesKey (opcodeOf (r.assemble f)) (functOf (r.assemble f)) = true := by
  unfold Row.matchesKey Row.assemble
  cases r.fmt <;> simp

/-- The encoder puts each operand into the field the decoder takes it from (30_encoding.md R86). -/
theorem ofFields_fieldsOf_assemble (o : Op) (f : Fields) :
    Instr.ofFields o (fieldsOf (o.row.assemble f)) = Instr.ofFields o f := by
  cases o <;> simp [Instr.ofFields, fieldsOf, Op.row, Row.ofR, Row.ofI, Row.ofJ, Row.assemble]

/-- `Laws.FieldsRoundTrip` for every instruction at once. -/
theorem ofFields_fields (i : Instr) : Instr.ofFields i.op i.fields = i := by
  cases i <;> rfl

/-- `Laws.KeySelectsRow` for every instruction at once: a row matches every word assembled for it. -/
theorem ofKey_encode (i : Instr) : Op.ofKey (opcodeOf (encode i)) (functOf (encode i)) = some i.op :=
  Op.ofKey_eq_some_iff.2 (i.op.row.matchesKey_assemble i.fields)

/-- An instruction's row reads the instruction back from its word. -/
theorem ofFields_fieldsOf_encode (i : Instr) : Instr.ofFields i.op (fieldsOf (encode i)) = i :=
  (ofFields_fieldsOf_assemble i.op i.fields).trans (ofFields_fields i)

theorem decode_encode {i : Instr} (h : encode i ≠ 0) : decode (encode i) = .instr i := by
  rw [decode_of_key h (ofKey_encode i), ofFields_fieldsOf_encode]

/-- Only `sll $zero, $zero, 0` encodes to the zero word: the zero word's key selects `sll`, and its fields are 0. -/
theorem eq_sll_of_encode_eq_zero {i : Instr} (h : encode i = 0) : i = .sll 0 0 0 := by
  have key : Op.ofKey (opcodeOf 0) (functOf 0) = some i.op := h ▸ ofKey_encode i
  have hop : Op.sll = i.op := Option.some.inj key
  calc i = Instr.ofFields i.op (fieldsOf (encode i)) := (ofFields_fieldsOf_encode i).symm
    _ = Instr.ofFields .sll (fieldsOf 0) := by rw [h, hop]
    _ = .sll 0 0 0 := rfl

theorem wf_eq_false_iff (i : Instr) : i.wf = false ↔ i = .sll 0 0 0 := by
  simp [Instr.wf, Instr.hasOwnWord]

/-- Settles O3: a well-formed instruction's word is not zero, so its key and its fields give the instruction back. -/
theorem decodingAnEncodedInstructionGivesItBack : Obligations.DecodingAnEncodedInstructionGivesItBack := by
  refine ⟨fun i h => decode_encode fun h0 => ?_, by decide, wf_eq_false_iff⟩
  have hw : i.wf = false := (wf_eq_false_iff i).2 (eq_sll_of_encode_eq_zero h0)
  exact Bool.noConfusion (h.symm.trans hw)

/-- Settles O7: the decoder run on each of the words. -/
theorem sampleWordsDecode : Obligations.SampleWordsDecode := by
  unfold Obligations.SampleWordsDecode
  decide

/-! ### The ignored fields (30_encoding.md R85) -/

/-- Clearing bits outside a field leaves the field. -/
theorem getBits_and_not {hi lo : Nat} {m : Word} (hm : getBits hi lo m = 0) (w : Word) :
    getBits hi lo (w &&& ~~~m) = getBits hi lo w := by
  have hmask : ∀ k < hi - lo + 1, m.getLsbD (lo + k) = false := by
    intro k hk
    simpa [getBits, hk] using congrArg (·.getLsbD k) hm
  apply BitVec.eq_of_getLsbD_eq
  intro k hk
  have hw := w.lt_of_getLsbD (i := lo + k)
  simpa [getBits, hk, hmask k hk] using hw

/-- Two words that agree outside a mask have the same value in every field outside the mask. -/
theorem getBits_eq_of_agree {w w' m : Word} (h : w' &&& ~~~m = w &&& ~~~m) {hi lo : Nat} (hm : getBits hi lo m = 0) :
    getBits hi lo w' = getBits hi lo w := by
  rw [← getBits_and_not hm w', h, getBits_and_not hm w]

section Agree
variable {w w' m : Word} (h : w' &&& ~~~m = w &&& ~~~m)
include h

theorem rsOf_eq_of_agree (hm : rsOf m = 0) : rsOf w' = rsOf w :=
  congrArg BitVec.toFin (getBits_eq_of_agree h (BitVec.toFin_inj.1 hm))

theorem rtOf_eq_of_agree (hm : rtOf m = 0) : rtOf w' = rtOf w :=
  congrArg BitVec.toFin (getBits_eq_of_agree h (BitVec.toFin_inj.1 hm))

theorem rdOf_eq_of_agree (hm : rdOf m = 0) : rdOf w' = rdOf w :=
  congrArg BitVec.toFin (getBits_eq_of_agree h (BitVec.toFin_inj.1 hm))

theorem shamtOf_eq_of_agree (hm : shamtOf m = 0) : shamtOf w' = shamtOf w := getBits_eq_of_agree h hm

theorem immOf_eq_of_agree (hm : immOf m = 0) : immOf w' = immOf w := getBits_eq_of_agree h hm

theorem addressOf_eq_of_agree (hm : addressOf m = 0) : addressOf w' = addressOf w := getBits_eq_of_agree h hm

end Agree

theorem opcodeOf_ignoredMask (o : Op) : opcodeOf o.ignoredMask = 0 := by cases o <;> rfl

theorem functOf_ignoredMask (o : Op) : functOf o.ignoredMask = 0 := by cases o <;> rfl

theorem op_ofFields (o : Op) (f : Fields) : (Instr.ofFields o f).op = o := by cases o <;> rfl

/-- No field a row's operands come from touches the row's ignored mask. -/
theorem ofFields_eq_of_agree {o : Op} {w w' : Word} (h : w' &&& ~~~o.ignoredMask = w &&& ~~~o.ignoredMask) :
    Instr.ofFields o (fieldsOf w') = Instr.ofFields o (fieldsOf w) := by
  cases o <;>
    simp (disch := decide) only [Instr.ofFields, fieldsOf, rsOf_eq_of_agree h, rtOf_eq_of_agree h,
      rdOf_eq_of_agree h, shamtOf_eq_of_agree h, immOf_eq_of_agree h, addressOf_eq_of_agree h]

/-- The decoder sees no difference in the fields an instruction does not use. -/
theorem decode_eq_of_agree {w w' : Word} {i : Instr} (hd : decode w = .instr i) (h0 : w' ≠ 0)
    (h : w' &&& ~~~i.op.ignoredMask = w &&& ~~~i.op.ignoredMask) : decode w' = .instr i := by
  obtain ⟨-, o, key, rfl⟩ := decode_instr hd
  rw [op_ofFields] at h
  have opcode : opcodeOf w' = opcodeOf w := getBits_eq_of_agree h (opcodeOf_ignoredMask o)
  have funct : functOf w' = functOf w := getBits_eq_of_agree h (functOf_ignoredMask o)
  rw [decode_of_key h0 (by rwa [opcode, funct]), ofFields_eq_of_agree h]

/-- A field is zero in a conjunction if it is zero in one of the two words. -/
theorem getBits_and_eq_zero {hi lo : Nat} {w m : Word} (h : getBits hi lo w = 0 ∨ getBits hi lo m = 0) :
    getBits hi lo (w &&& m) = 0 := by
  rw [getBits, BitVec.extractLsb'_and]
  rcases h with h | h <;> rw [getBits] at h <;> simp [h]

/-- A word whose slices of format R are all zero is the zero word. -/
theorem eq_zero_of_slices {w : Word} (opcode : opcodeOf w = 0) (rs : rsOf w = 0) (rt : rtOf w = 0) (rd : rdOf w = 0)
    (shamt : shamtOf w = 0) (funct : functOf w = 0) : w = 0 :=
  BitVec.eq_of_toNat_eq (by simp [toNat_eq_sliceSumR w, opcode, rs, rt, rd, shamt, funct])

theorem and_eq_zero_of_slices {w m : Word} (opcode : opcodeOf m = 0) (rs : rsOf w = 0 ∨ rsOf m = 0)
    (rt : rtOf w = 0 ∨ rtOf m = 0) (rd : rdOf w = 0 ∨ rdOf m = 0) (shamt : shamtOf w = 0 ∨ shamtOf m = 0)
    (funct : functOf m = 0) : w &&& m = 0 :=
  eq_zero_of_slices (getBits_and_eq_zero (.inr opcode))
    (congrArg BitVec.toFin (getBits_and_eq_zero (rs.imp BitVec.toFin_inj.1 BitVec.toFin_inj.1)))
    (congrArg BitVec.toFin (getBits_and_eq_zero (rt.imp BitVec.toFin_inj.1 BitVec.toFin_inj.1)))
    (congrArg BitVec.toFin (getBits_and_eq_zero (rd.imp BitVec.toFin_inj.1 BitVec.toFin_inj.1)))
    (getBits_and_eq_zero shamt) (getBits_and_eq_zero (.inr funct))

/-! A field the row ignores is written as zero (30_encoding.md R87). The instructions named in each lemma are those that
do not use the field; the mask of every other row leaves the field out. -/

theorem rsOf_encode_or_ignoredMask_eq_zero (i : Instr) : rsOf (encode i) = 0 ∨ rsOf i.op.ignoredMask = 0 := by
  cases i with
  | lui => exact .inl (rsOf_wordI ..)
  | sll | srl | sra | mfhi | mflo | syscall => exact .inl (rsOf_wordR ..)
  | _ => exact .inr (by rw [Instr.op]; rfl)

theorem rtOf_encode_or_ignoredMask_eq_zero (i : Instr) : rtOf (encode i) = 0 ∨ rtOf i.op.ignoredMask = 0 := by
  cases i with
  | blez | bgtz => exact .inl (rtOf_wordI ..)
  | mfhi | mflo | mthi | mtlo | jr | jalr | syscall => exact .inl (rtOf_wordR ..)
  | _ => exact .inr (by rw [Instr.op]; rfl)

theorem rdOf_encode_or_ignoredMask_eq_zero (i : Instr) : rdOf (encode i) = 0 ∨ rdOf i.op.ignoredMask = 0 := by
  cases i with
  | mult | multu | div | divu | mthi | mtlo | jr | syscall => exact .inl (rdOf_wordR ..)
  | _ => exact .inr (by rw [Instr.op]; rfl)

theorem shamtOf_encode_or_ignoredMask_eq_zero (i : Instr) :
    shamtOf (encode i) = 0 ∨ shamtOf i.op.ignoredMask = 0 := by
  cases i with
  | add | addu | sub | subu | slt | sltu | and | or | xor | nor | sllv | srlv | srav | mult | multu | div | divu
  | mfhi | mflo | mthi | mtlo | jr | jalr | syscall => exact .inl (shamtOf_wordR ..)
  | _ => exact .inr (by rw [Instr.op]; rfl)

theorem encode_and_ignoredMask (i : Instr) : encode i &&& i.op.ignoredMask = 0 :=
  and_eq_zero_of_slices (opcodeOf_ignoredMask i.op) (rsOf_encode_or_ignoredMask_eq_zero i)
    (rtOf_encode_or_ignoredMask_eq_zero i) (rdOf_encode_or_ignoredMask_eq_zero i)
    (shamtOf_encode_or_ignoredMask_eq_zero i) (functOf_ignoredMask i.op)

/-- Settles O4: the fields read, the key among them, lie outside the mask, and the encoder's word is zero inside it. -/
theorem unusedFieldsAreIgnored : Obligations.UnusedFieldsAreIgnored :=
  ⟨fun _ _ _ => decode_eq_of_agree, encode_and_ignoredMask⟩

/-! ### The words that are no instruction (30_encoding.md R81, R82, R83) -/

/-- The decoder rejects the zero word and the words whose key selects no row. -/
theorem decode_invalid_iff (w : Word) :
    (∃ why, decode w = .invalid why) ↔ w = 0 ∨ Op.ofKey (opcodeOf w) (functOf w) = none := by
  unfold decode
  split
  · next h0 => simp [h0]
  · next h0 =>
    split
    · next key => simpa [key] using h0
    · next key => split <;> simp [key]

/-- Only rows of format R look at `funct`, and their opcode is 0. -/
theorem Row.matchesKey_of_opcode_ne_zero (r : Row) {opcode : BitVec 6} (h : opcode ≠ 0) (funct funct' : BitVec 6) :
    r.matchesKey opcode funct = r.matchesKey opcode funct' := by
  unfold Row.matchesKey
  have h0 : (opcode == 0x00) = false := by simpa using h
  cases r.fmt <;> simp only [h0, Bool.false_and]

theorem Op.ofKey_of_opcode_ne_zero {opcode : BitVec 6} (h : opcode ≠ 0) (funct funct' : BitVec 6) :
    Op.ofKey opcode funct = Op.ofKey opcode funct' := by
  simp only [Op.ofKey, Row.matchesKey_of_opcode_ne_zero _ h funct funct']

theorem Op.ofKey_zero_eq_none_iff : ∀ funct : BitVec 6, Op.ofKey 0 funct = none ↔ funct.toNat ∈ unusedFuncts := by
  decide

theorem Op.ofKey_eq_none_iff_of_ne_zero :
    ∀ opcode : BitVec 6, opcode ≠ 0 → (Op.ofKey opcode 0 = none ↔ opcode.toNat ∈ unusedOpcodes) := by
  decide

theorem Op.ofKey_eq_none_iff (opcode funct : BitVec 6) :
    Op.ofKey opcode funct = none ↔
      opcode.toNat ∈ unusedOpcodes ∨ (opcode = 0 ∧ funct.toNat ∈ unusedFuncts) := by
  by_cases h : opcode = 0
  · have used : (0 : BitVec 6).toNat ∉ unusedOpcodes := by decide
    subst h
    simp only [Op.ofKey_zero_eq_none_iff, used, true_and, false_or]
  · simp only [Op.ofKey_of_opcode_ne_zero h funct 0, Op.ofKey_eq_none_iff_of_ne_zero opcode h, h, false_and, or_false]

/-- Settles O5: the decoder rejects what the catalog does not find, and the catalog does not find the unused keys. -/
theorem exactlyTheUnusedWordsAreInvalid : Obligations.ExactlyTheUnusedWordsAreInvalid := by
  refine ⟨by decide, by decide, fun w => ?_⟩
  rw [decode_invalid_iff, Op.ofKey_eq_none_iff]

end Sys2Proof
end

section
/-!
PROOFS. The statements about integer add, subtract and compare (40_arithmetic.md): the words of the family, the end of
an instruction that writes its result and of one that may trap, and the overflow read off the sign bits.
-/

-- One elaboration thread: each thread's stack counts against the check's memory limit.
set_option Elab.async false

namespace Sys2Proof.Machine

/-! ### The operands of a row's word (30_encoding.md R86) -/

/-- The word of an R row whose `funct` is not 0 decodes to the instruction the row makes of the word's own fields. -/
theorem decode_wordR_operands {fn : BitVec 6} {o : Op} {make : Reg → Reg → Reg → BitVec 5 → Instr}
    (key : Op.ofKey 0x00 fn = some o) (h0 : fn ≠ 0x00)
    (form : ∀ f, Instr.ofFields o f = make f.rs f.rt f.rd f.shamt) (rs rt rd : Reg) (sh : BitVec 5) :
    decode (wordR fn rs rt rd sh) = .instr (make rs rt rd sh) := by
  simp only [decode_wordR key h0, form, fieldsOf, rsOf_wordR, rtOf_wordR, rdOf_wordR, shamtOf_wordR]

/-- The word of an I row decodes to the instruction the row makes of the word's own fields. -/
theorem decode_wordI_operands {op : BitVec 6} {o : Op} {make : Reg → Reg → BitVec 16 → Instr}
    (key : ∀ f, Op.ofKey op f = some o) (h0 : op ≠ 0x00)
    (form : ∀ f, Instr.ofFields o f = make f.rs f.rt f.imm) (rs rt : Reg) (imm : BitVec 16) :
    decode (wordI op rs rt imm) = .instr (make rs rt imm) := by
  simp only [decode_wordI key h0, form, fieldsOf, rsOf_wordI, rtOf_wordI, immOf_wordI]

/-! ### An instruction that writes its result -/

/-- `writeResult_completes` for a statement that names the written value only by a property it has. -/
theorem writeResult_completes_with {P : Word → Prop} {v : Word} (hv : P v) (rd : Reg) (s : State) :
    ∃ t u, writeResult rd v s = .next t ∧ P u ∧ WritesReg s t rd u :=
  let ⟨t, e, w⟩ := writeResult_completes rd v s
  ⟨t, v, e, hv, w⟩

/-- The difference modulo 2^32 as a number. -/
theorem toNat_sub_eq_emod (a b : Word) : ((a - b).toNat : Int) = (a.toNat - b.toNat : Int) % 2 ^ 32 := by
  bv_omega

/-- Adding a sign-extended immediate, as a number modulo 2^32 (40_arithmetic.md R106). -/
theorem toNat_add_sextImm (a : Word) (imm : BitVec 16) :
    ((a + sextImm imm).toNat : Int) = (a.toNat + imm.toInt) % 2 ^ 32 := by
  have h := sextImm_toNat imm
  rw [BitVec.toNat_add]
  omega

/-- Settles O25: each of the three ends in `writeResult`, whose value is the sum or difference of words. -/
theorem adduSubuAddiuWrapWithoutTrap : Obligations.AdduSubuAddiuWrapWithoutTrap := by
  refine ⟨decode_wordR_operands rfl (by decide) fun _ => rfl, decode_wordR_operands rfl (by decide) fun _ => rfl,
    decode_wordI_operands (fun _ => rfl) (by decide) fun _ => rfl, fun s rd rs rt imm => ⟨?_, ?_, ?_⟩⟩
  · exact writeResult_completes_with (BitVec.toNat_add (s.x rs) (s.x rt)) rd s
  · exact writeResult_completes_with (toNat_sub_eq_emod (s.x rs) (s.x rt)) rd s
  · exact writeResult_completes_with (toNat_add_sextImm (s.x rs) imm) rt s

/-! ### Comparisons (40_arithmetic.md R107 to R110) -/

theorem ofCompare_ltSigned (a b : Word) :
    ofCompare (ltSigned a b) = if a.toInt < b.toInt then 0x00000001 else 0x00000000 := by
  simp [ofCompare, ltSigned]

theorem ofCompare_ltUnsigned (a b : Word) :
    ofCompare (ltUnsigned a b) = if a.toNat < b.toNat then 0x00000001 else 0x00000000 := by
  simp [ofCompare, ltUnsigned]

/-- The signed comparison with an immediate is with its value as a signed number (40_arithmetic.md R109). -/
theorem ofCompare_ltSigned_sextImm (a : Word) (imm : BitVec 16) :
    ofCompare (ltSigned a (sextImm imm)) = if a.toInt < imm.toInt then 0x00000001 else 0x00000000 := by
  rw [ofCompare_ltSigned, sextImm_toInt]

/-- The unsigned comparison with an immediate is with the sign-extended word as a number (40_arithmetic.md R110). -/
theorem ofCompare_ltUnsigned_sextImm (a : Word) (imm : BitVec 16) :
    ofCompare (ltUnsigned a (sextImm imm)) =
      if (a.toNat : Int) < imm.toInt % 2 ^ 32 then 0x00000001 else 0x00000000 := by
  rw [ofCompare_ltUnsigned, ← sextImm_toNat]
  simp only [Int.ofNat_lt]

/-- Settles O26: each of the four ends in `writeResult`, whose value is the comparison's. -/
theorem comparisonsWriteOneOrZero : Obligations.ComparisonsWriteOneOrZero := by
  refine ⟨decode_wordR_operands rfl (by decide) fun _ => rfl, decode_wordR_operands rfl (by decide) fun _ => rfl,
    decode_wordI_operands (fun _ => rfl) (by decide) fun _ => rfl,
    decode_wordI_operands (fun _ => rfl) (by decide) fun _ => rfl, fun s rd rs rt imm => ⟨?_, ?_, ?_, ?_⟩⟩
  · rw [← ofCompare_ltSigned]; exact writeResult_completes rd _ s
  · rw [← ofCompare_ltUnsigned]; exact writeResult_completes rd _ s
  · rw [← ofCompare_ltSigned_sextImm]; exact writeResult_completes rt _ s
  · rw [← ofCompare_ltUnsigned_sextImm]; exact writeResult_completes rt _ s

/-! ### An instruction that may trap (40_arithmetic.md R100) -/

theorem exec_add (rd rs rt : Reg) (s : State) :
    exec (.add rd rs rt) s = writeOrTrap rd ((s.x rs).toInt + (s.x rt).toInt) s := rfl

theorem exec_sub (rd rs rt : Reg) (s : State) :
    exec (.sub rd rs rt) s = writeOrTrap rd ((s.x rs).toInt - (s.x rt).toInt) s := rfl

/-- In range, the word `writeOrTrap` writes has the result as its value. -/
theorem writeOrTrap_completes {r : Int} (low : -2 ^ 31 ≤ r) (high : r ≤ 2 ^ 31 - 1) (rd : Reg) (s : State) :
    ∃ t v, writeOrTrap rd r s = .next t ∧ v.toInt = r ∧ WritesReg s t rd v := by
  have value : (BitVec.ofInt 32 r).toInt = r := BitVec.toInt_ofInt_eq_self (by decide) low (by omega)
  rw [writeOrTrap_in_range ⟨low, high⟩]
  exact writeResult_completes_with (P := fun v => v.toInt = r) value rd s

theorem writeOrTrap_traps {r : Int} (h : outsideSignedRange r) (rd : Reg) (s : State) :
    ∃ t, writeOrTrap rd r s = .next t ∧ Traps s t .overflow 0 :=
  ⟨_, writeOrTrap_out_of_range h rd s, traps_raise s _ _⟩

/-- Settles O24: the three end in `writeOrTrap` with the mathematical result. -/
theorem addSubAddiWriteInRangeAndTrapOutside : Obligations.AddSubAddiWriteInRangeAndTrapOutside := by
  refine ⟨decode_wordR_operands rfl (by decide) fun _ => rfl, decode_wordR_operands rfl (by decide) fun _ => rfl,
    decode_wordI_operands (fun _ => rfl) (by decide) fun _ => rfl, fun s rd rs rt imm i r h => ?_⟩
  have ends : exec i s = writeOrTrap rd r s := by
    rcases h with ⟨rfl, rfl⟩ | ⟨rfl, rfl⟩ | ⟨rfl, rfl⟩
    · exact exec_add rd rs rt s
    · exact exec_sub rd rs rt s
    · exact exec_addi rd rs imm s
  rw [ends]
  exact ⟨fun low high => writeOrTrap_completes low high rd s, fun outside => writeOrTrap_traps outside rd s⟩

/-- `writeOrTrap` traps out of range only: a completion moves `pc`, and a trap keeps it. -/
theorem writeOrTrap_traps_iff (rd : Reg) (r : Int) (s : State) :
    (∃ t, writeOrTrap rd r s = .next t ∧ Traps s t .overflow 0) ↔ outsideSignedRange r := by
  refine ⟨fun ⟨t, e, trap⟩ => ?_, fun h => writeOrTrap_traps h rd s⟩
  rcases writeOrTrap_range_cases rd r s with ⟨outside, -⟩ | ⟨-, v, e'⟩
  · exact outside
  · cases e.symm.trans e'
    have moved : s.pc + 4 = s.pc := trap.pc
    bv_omega

/-! ### Overflow read off the sign bits (40_arithmetic.md R100) -/

theorem outsideSignedRange_add_iff (a b : Word) :
    outsideSignedRange (a.toInt + b.toInt) ↔ a.msb = b.msb ∧ (a + b).msb ≠ a.msb := by
  have overflow : outsideSignedRange (a.toInt + b.toInt) ↔ a.saddOverflow b = true := by
    simp only [outsideSignedRange, BitVec.saddOverflow, Bool.or_eq_true, decide_eq_true_eq]
    omega
  rw [overflow, BitVec.saddOverflow_eq]
  simp

theorem outsideSignedRange_sub_iff (a b : Word) :
    outsideSignedRange (a.toInt - b.toInt) ↔ a.msb ≠ b.msb ∧ (a - b).msb = b.msb := by
  have overflow : outsideSignedRange (a.toInt - b.toInt) ↔ a.ssubOverflow b = true := by
    simp only [outsideSignedRange, BitVec.ssubOverflow, Bool.or_eq_true, decide_eq_true_eq]
    omega
  rw [overflow, BitVec.ssubOverflow_eq]
  cases a.msb <;> cases b.msb <;> simp

/-- Settles O27: the trap is the result out of range, which is the library's overflow of words. -/
theorem overflowIsReadOffTheSignBits : Obligations.OverflowIsReadOffTheSignBits := by
  intro s rd rs rt imm
  refine ⟨?_, ?_, ?_⟩
  · exact (writeOrTrap_traps_iff rd _ s).trans (outsideSignedRange_add_iff (s.x rs) (s.x rt))
  · exact (writeOrTrap_traps_iff rd _ s).trans (outsideSignedRange_add_iff (s.x rs) (sextImm imm))
  · exact (writeOrTrap_traps_iff rd _ s).trans (outsideSignedRange_sub_iff (s.x rs) (s.x rt))

end Sys2Proof.Machine
end

section
/-!
PROOFS. The statements about the logical, load-upper and shift instructions (41_logical_shift.md): the word of `sll`,
whose key the zero word shares, the bits of a zero-extended immediate, and the shifts as multiplication and division by
a power of two.
-/

-- One elaboration thread: each thread's stack counts against the check's memory limit.
set_option Elab.async false

namespace Sys2Proof.Machine

/-- `writeResult_completes_with` for a statement that gives the property of the value after the effect. -/
theorem writeResult_completes_and {P : Word → Prop} {v : Word} (hv : P v) (rd : Reg) (s : State) :
    ∃ t u, writeResult rd v s = .next t ∧ WritesReg s t rd u ∧ P u :=
  let ⟨t, u, e, hu, w⟩ := writeResult_completes_with hv rd s
  ⟨t, u, e, w, hu⟩

/-! ### Logic bit by bit (41_logical_shift.md R121 to R128) -/

theorem getLsbD_nor (a b : Word) (k : Nat) (hk : k < 32) :
    (~~~(a ||| b)).getLsbD k = !(a.getLsbD k || b.getLsbD k) := by
  rw [BitVec.getLsbD_not, BitVec.getLsbD_or, decide_eq_true hk, Bool.true_and]

/-- Settles O28: each of the four ends in `writeResult`, whose value is the operation on words. -/
theorem registerLogicIsBitwise : Obligations.RegisterLogicIsBitwise := by
  refine ⟨decode_wordR_operands rfl (by decide) fun _ => rfl, decode_wordR_operands rfl (by decide) fun _ => rfl,
    decode_wordR_operands rfl (by decide) fun _ => rfl, decode_wordR_operands rfl (by decide) fun _ => rfl,
    fun s rd rs rt => ⟨?_, ?_, ?_, ?_⟩⟩
  · exact writeResult_completes_and (fun _ _ => BitVec.getLsbD_and) rd s
  · exact writeResult_completes_and (fun _ _ => BitVec.getLsbD_or) rd s
  · exact writeResult_completes_and (fun _ _ => BitVec.getLsbD_xor) rd s
  · exact writeResult_completes_and (getLsbD_nor (s.x rs) (s.x rt)) rd s

/-- The zero-extended immediate has the immediate's bits and zeros above them (30_encoding.md R75). -/
theorem getLsbD_zextImm (imm : BitVec 16) (k : Nat) (hk : k < 32) :
    (zextImm imm).getLsbD k = if k < 16 then imm.getLsbD k else false := by
  rw [zextImm, BitVec.getLsbD_setWidth, decide_eq_true hk, Bool.true_and]
  split
  · rfl
  · next high => exact BitVec.getLsbD_of_ge imm k (by omega)

theorem getLsbD_and_zextImm (a : Word) (imm : BitVec 16) (k : Nat) (hk : k < 32) :
    (a &&& zextImm imm).getLsbD k = if k < 16 then (a.getLsbD k && imm.getLsbD k) else false := by
  rw [BitVec.getLsbD_and, getLsbD_zextImm imm k hk, apply_ite (a.getLsbD k && ·), Bool.and_false]

theorem getLsbD_or_zextImm (a : Word) (imm : BitVec 16) (k : Nat) (hk : k < 32) :
    (a ||| zextImm imm).getLsbD k = if k < 16 then (a.getLsbD k || imm.getLsbD k) else a.getLsbD k := by
  rw [BitVec.getLsbD_or, getLsbD_zextImm imm k hk, apply_ite (a.getLsbD k || ·), Bool.or_false]

theorem getLsbD_xor_zextImm (a : Word) (imm : BitVec 16) (k : Nat) (hk : k < 32) :
    (a ^^^ zextImm imm).getLsbD k = if k < 16 then (a.getLsbD k != imm.getLsbD k) else a.getLsbD k := by
  rw [BitVec.getLsbD_xor, getLsbD_zextImm imm k hk, apply_ite (a.getLsbD k ^^ ·), Bool.xor_false]

/-- The `lui` operand as a number (30_encoding.md R78). -/
theorem upperImm_toNat (imm : BitVec 16) : (upperImm imm).toNat = imm.toNat * 2 ^ 16 := by
  rw [upperImm, BitVec.toNat_append, BitVec.ofNat_eq_ofNat, BitVec.toNat_zero, Nat.or_zero, Nat.shiftLeft_eq]

/-- Settles O29: `andi`, `ori` and `xori` act on the zero-extended immediate; no operand of `lui` is its `rs` field. -/
theorem immediateLogicZeroExtends : Obligations.ImmediateLogicZeroExtends := by
  refine ⟨decode_wordI_operands (fun _ => rfl) (by decide) fun _ => rfl,
    decode_wordI_operands (fun _ => rfl) (by decide) fun _ => rfl,
    decode_wordI_operands (fun _ => rfl) (by decide) fun _ => rfl,
    decode_wordI_operands (make := fun _ rt imm => .lui rt imm) (fun _ => rfl) (by decide) fun _ => rfl,
    fun s rt rs imm => ⟨?_, ?_, ?_, ?_⟩⟩
  · exact writeResult_completes_and (getLsbD_and_zextImm (s.x rs) imm) rt s
  · exact writeResult_completes_and (getLsbD_or_zextImm (s.x rs) imm) rt s
  · exact writeResult_completes_and (getLsbD_xor_zextImm (s.x rs) imm) rt s
  · exact writeResult_completes_and (upperImm_toNat imm) rt s

/-! ### Shifts as numbers (41_logical_shift.md R129 to R134) -/

/-- The word of `sll`, whose `funct` is 0: the decoder rejects it only where it is the zero word (30_encoding.md R83). -/
theorem decode_wordR_sll (rs rt rd : Reg) (sh : BitVec 5) (h : wordR 0x00 rs rt rd sh ≠ 0) :
    decode (wordR 0x00 rs rt rd sh) = .instr (.sll rd rt sh) := by
  have key : Op.ofKey (opcodeOf (wordR 0x00 rs rt rd sh)) (functOf (wordR 0x00 rs rt rd sh)) = some .sll := by
    rw [opcodeOf_wordR, functOf_wordR]; rfl
  simp only [decode_of_key h key, Instr.ofFields, fieldsOf, rtOf_wordR, rdOf_wordR, shamtOf_wordR]

theorem shiftLeft_toNat (v : Word) (n : BitVec 5) : (v <<< n).toNat = v.toNat * 2 ^ n.toNat % 2 ^ 32 := by
  rw [BitVec.shiftLeft_eq', BitVec.toNat_shiftLeft, Nat.shiftLeft_eq]

theorem ushiftRight_toNat (v : Word) (n : BitVec 5) : (v >>> n).toNat = v.toNat / 2 ^ n.toNat := by
  rw [BitVec.ushiftRight_eq', BitVec.toNat_ushiftRight, Nat.shiftRight_eq_div_pow]

/-- The arithmetic shift rounds toward minus infinity (41_logical_shift.md R131). -/
theorem sshiftRight_toInt (v : Word) (n : BitVec 5) : (v.sshiftRight' n).toInt = v.toInt / 2 ^ n.toNat := by
  have power : ((2 ^ n.toNat : Nat) : Int) = 2 ^ n.toNat := Int.natCast_pow 2 n.toNat
  rw [BitVec.sshiftRight_eq', BitVec.toInt_sshiftRight, Int.shiftRight_eq_div_pow, power]

/-- Settles O30: the three shift by the field itself, read as a number. -/
theorem shiftsByShamt : Obligations.ShiftsByShamt := by
  refine ⟨decode_wordR_sll,
    decode_wordR_operands (make := fun _ rt rd sh => .srl rd rt sh) rfl (by decide) fun _ => rfl,
    decode_wordR_operands (make := fun _ rt rd sh => .sra rd rt sh) rfl (by decide) fun _ => rfl, rfl,
    fun s rd rt sh => ⟨?_, ?_, ?_⟩⟩
  · exact writeResult_completes_and (shiftLeft_toNat (s.x rt) sh) rd s
  · exact writeResult_completes_and (ushiftRight_toNat (s.x rt) sh) rd s
  · exact writeResult_completes_and (sshiftRight_toInt (s.x rt) sh) rd s

/-- The low five bits of the amount register, as a number (30_encoding.md R79). -/
theorem shiftAmount_toNat (v : Word) : (shiftAmount v).toNat = v.toNat % 32 := by
  simp [shiftAmount, getBits_toNat]

/-- Settles O31: the three shift by the low five bits, which are the register modulo 32. -/
theorem shiftsByRegister : Obligations.ShiftsByRegister := by
  refine ⟨decode_wordR_operands rfl (by decide) fun _ => rfl, decode_wordR_operands rfl (by decide) fun _ => rfl,
    decode_wordR_operands rfl (by decide) fun _ => rfl, fun s rd rt rs => ?_⟩
  simp only [← shiftAmount_toNat]
  refine ⟨?_, ?_, ?_⟩
  · exact writeResult_completes_and (shiftLeft_toNat (s.x rt) (shiftAmount (s.x rs))) rd s
  · exact writeResult_completes_and (ushiftRight_toNat (s.x rt) (shiftAmount (s.x rs))) rd s
  · exact writeResult_completes_and (sshiftRight_toInt (s.x rt) (shiftAmount (s.x rs))) rd s

end Sys2Proof.Machine
end

section
/-!
PROOFS. The statements about the multiply, divide and move instructions (42_muldiv.md): the halves of a product are the
product, and the dividers' results are the library's quotients and remainders of words.
-/

-- One elaboration thread: each thread's stack counts against the check's memory limit.
set_option Elab.async false

namespace Sys2Proof.Machine

/-- `writeHiLo_completes` for a statement that names the written values only by a property they have. -/
theorem writeHiLo_completes_and {P : Word → Word → Prop} {h l : Word} (hp : P h l) (s : State) :
    ∃ t h' l', writeHiLo h l s = .next t ∧ WritesHiLo s t h' l' ∧ P h' l' :=
  let ⟨t, e, w⟩ := writeHiLo_completes h l s
  ⟨t, h, l, e, w, hp⟩

/-! ### Products (42_muldiv.md R140 to R142) -/

/-- `writeProduct` loses no bit of the product: whatever holds of it holds of `hi` and `lo` together. -/
theorem writeProduct_completes_and {P : BitVec 64 → Prop} {p : BitVec 64} (hp : P p) (s : State) :
    ∃ t h l, writeProduct p s = .next t ∧ WritesHiLo s t h l ∧ P (h ++ l) := by
  have halves : p.extractLsb' 32 32 ++ p.extractLsb' 0 32 = p := BitVec.extractLsb'_append_extractLsb'
  exact writeHiLo_completes_and (P := fun h l => P (h ++ l)) (halves.symm ▸ hp) s

/-- The signed product of two words fits in 64 bits. -/
theorem toInt_ofInt_mul_toInt (a b : Word) : (BitVec.ofInt 64 (a.toInt * b.toInt)).toInt = a.toInt * b.toInt := by
  have low : -2 ^ 62 ≤ a.toInt * b.toInt := BitVec.le_toInt_mul_toInt
  have high : a.toInt * b.toInt ≤ 2 ^ 62 := BitVec.toInt_mul_toInt_le
  exact BitVec.toInt_ofInt_eq_self (by decide) (by omega) (by omega)

/-- The unsigned product of two words fits in 64 bits. -/
theorem toNat_ofNat_mul_toNat (a b : Word) : (BitVec.ofNat 64 (a.toNat * b.toNat)).toNat = a.toNat * b.toNat :=
  (BitVec.toNat_ofNat _ _).trans (Nat.mod_eq_of_lt BitVec.toNat_mul_toNat_lt)

/-- Settles O32: both end in `writeProduct`, with the product of two words, which fits in 64 bits. -/
theorem multiplyWritesTheWholeProduct : Obligations.MultiplyWritesTheWholeProduct := by
  refine ⟨decode_wordR_operands (make := fun rs rt _ _ => .mult rs rt) rfl (by decide) fun _ => rfl,
    decode_wordR_operands (make := fun rs rt _ _ => .multu rs rt) rfl (by decide) fun _ => rfl,
    fun s rs rt => ⟨?_, ?_⟩⟩
  · exact writeProduct_completes_and (P := (·.toInt = _)) (toInt_ofInt_mul_toInt (s.x rs) (s.x rt)) s
  · exact writeProduct_completes_and (P := (·.toNat = _)) (toNat_ofNat_mul_toNat (s.x rs) (s.x rt)) s

/-! ### The signed divider (42_muldiv.md R143) -/

theorem divSigned_by_zero (p : Params) (n : Int) : divSigned p n 0 = (0, 0) := rfl

theorem divSigned_corner (p : Params) : divSigned p (-2 ^ 31) (-1) = (p.divOvfHi, p.divOvfLo) := rfl

/-- The one quotient of words that is no word is that of -2^31 by -1. -/
theorem sdiv_toInt {a b : Word} (h : ¬ (a.toInt = -2 ^ 31 ∧ b.toInt = -1)) :
    (a.sdiv b).toInt = a.toInt.tdiv b.toInt := by
  refine BitVec.toInt_sdiv_of_ne_or_ne a b (Decidable.not_and_iff_not_or_not.1 fun corner => h ?_)
  obtain ⟨rfl, rfl⟩ := corner
  decide

/-- Outside the two special cases the divider gives the library's remainder and quotient of words. -/
theorem divSigned_toInt {a b : Word} (p : Params) (h0 : b.toInt ≠ 0) (hc : ¬ (a.toInt = -2 ^ 31 ∧ b.toInt = -1)) :
    divSigned p a.toInt b.toInt = (a.srem b, a.sdiv b) := by
  have quotient : BitVec.ofInt 32 (a.toInt.tdiv b.toInt) = a.sdiv b := by
    rw [← sdiv_toInt hc, BitVec.ofInt_toInt]
  have remainder : BitVec.ofInt 32 (a.toInt - a.toInt.tdiv b.toInt * b.toInt) = a.srem b := by
    rw [Int.mul_comm, ← Int.tmod_def, ← BitVec.toInt_srem, BitVec.ofInt_toInt]
  simp only [divSigned, if_neg h0, if_neg hc, quotient, remainder]

/-- The remainder is smaller than the divisor in magnitude. -/
theorem natAbs_tmod_lt (n : Int) {d : Int} (h : d ≠ 0) : (n.tmod d).natAbs < d.natAbs := by
  rw [Int.natAbs_tmod]
  exact Nat.mod_lt _ (Int.natAbs_pos.2 h)

/-- The remainder has the sign of the dividend, here of one that is not positive. -/
theorem tmod_nonpos {n : Int} (d : Int) (h : n ≤ 0) : n.tmod d ≤ 0 := by
  have := Int.tmod_nonneg d (Int.neg_nonneg.2 h)
  rw [Int.neg_tmod] at this
  exact Int.neg_nonneg.1 this

/-- Settles O33: the three clauses are the three cases of the divider; the last is the library's division that truncates
toward zero. -/
theorem signedDivide : Obligations.SignedDivide := by
  refine ⟨decode_wordR_operands (make := fun rs rt _ _ => .div rs rt) rfl (by decide) fun _ => rfl, ⟨rfl, rfl⟩,
    fun s rs rt => writeHiLo_completes_and ⟨fun hz => ?_, fun ⟨hn, hd⟩ => ?_, fun h0 hc => ?_⟩ s⟩
  · rw [hz, divSigned_by_zero]
    exact ⟨rfl, rfl⟩
  · rw [hn, hd, divSigned_corner]
    exact ⟨rfl, rfl⟩
  · rw [divSigned_toInt s.params h0 hc, sdiv_toInt hc, BitVec.toInt_srem]
    exact ⟨(Int.tdiv_mul_add_tmod _ _).symm, natAbs_tmod_lt _ h0, Int.tmod_nonneg _, tmod_nonpos _⟩

/-! ### The unsigned divider (42_muldiv.md R144) -/

theorem divUnsigned_by_zero (n : Nat) : divUnsigned n 0 = (0, 0) := rfl

/-- By a divisor that is not zero the divider gives the library's remainder and quotient of words. -/
theorem divUnsigned_toNat {a b : Word} (h : b.toNat ≠ 0) : divUnsigned a.toNat b.toNat = (a % b, a / b) := by
  rw [divUnsigned, if_neg h, ← BitVec.toNat_umod, ← BitVec.toNat_udiv, BitVec.ofNat_toNat, BitVec.ofNat_toNat,
    BitVec.setWidth_eq, BitVec.setWidth_eq]

/-- Settles O34: the two clauses are the two cases of the divider. -/
theorem unsignedDivide : Obligations.UnsignedDivide := by
  refine ⟨decode_wordR_operands (make := fun rs rt _ _ => .divu rs rt) rfl (by decide) fun _ => rfl,
    fun s rs rt => writeHiLo_completes_and ⟨fun hz => ?_, fun h0 => ?_⟩ s⟩
  · rw [hz, divUnsigned_by_zero]
    exact ⟨rfl, rfl⟩
  · rw [divUnsigned_toNat h0, BitVec.toNat_udiv, BitVec.toNat_umod]
    exact ⟨(Nat.div_add_mod' _ _).symm, Nat.mod_lt _ (Nat.pos_of_ne_zero h0)⟩

/-! ### Moves (42_muldiv.md R145 to R148) -/

/-- `mthi` writes `hi` with the register and `lo` with what it held (42_muldiv.md R147). -/
theorem exec_mthi (rs : Reg) (s : State) : exec (.mthi rs) s = writeHiLo (s.x rs) s.lo s := rfl

/-- `mtlo` writes `lo` with the register and `hi` with what it held (42_muldiv.md R148). -/
theorem exec_mtlo (rs : Reg) (s : State) : exec (.mtlo rs) s = writeHiLo s.hi (s.x rs) s := rfl

/-- Settles O35: two of the moves end in `writeResult`, two in `writeHiLo`, in every state. -/
theorem hiLoMoves : Obligations.HiLoMoves := by
  refine ⟨decode_wordR_operands (make := fun _ _ rd _ => .mfhi rd) rfl (by decide) fun _ => rfl,
    decode_wordR_operands (make := fun _ _ rd _ => .mflo rd) rfl (by decide) fun _ => rfl,
    decode_wordR_operands (make := fun rs _ _ _ => .mthi rs) rfl (by decide) fun _ => rfl,
    decode_wordR_operands (make := fun rs _ _ _ => .mtlo rs) rfl (by decide) fun _ => rfl,
    fun s rd rs => ⟨?_, ?_, ?_, ?_⟩⟩
  · exact writeResult_completes rd s.hi s
  · exact writeResult_completes rd s.lo s
  · rw [exec_mthi]; exact writeHiLo_completes (s.x rs) s.lo s
  · rw [exec_mtlo]; exact writeHiLo_completes s.hi (s.x rs) s

end Sys2Proof.Machine
end

section
/-!
PROOFS. The statements about the loads and stores (43_load_store.md): the effective address as a number, extension and
truncation of a byte, and the bytes of a word as numbers in either byte order.
-/

-- One elaboration thread: each thread's stack counts against the check's memory limit.
set_option Elab.async false

namespace Sys2Proof.Machine

/-- The word of a load or store row decodes to the row's `rt, imm(rs)` form (30_encoding.md R86). -/
theorem decode_wordI_load_store {op : BitVec 6} {o : Op} {make : Reg → BitVec 16 → Reg → Instr}
    (key : ∀ f, Op.ofKey op f = some o) (h0 : op ≠ 0x00)
    (form : ∀ f, Instr.ofFields o f = make f.rt f.imm f.rs) (rs rt : Reg) (imm : BitVec 16) :
    decode (wordI op rs rt imm) = .instr (make rt imm rs) :=
  decode_wordI_operands (make := fun rs rt imm => make rt imm rs) key h0 form rs rt imm

/-! ### The effective address (43_load_store.md R160) -/

/-- The effective address as a number, modulo 2^32. -/
theorem effectiveAddress_toNat (s : State) (rs : Reg) (imm : BitVec 16) :
    ((effectiveAddress s rs imm).toNat : Int) = ((s.x rs).toNat + imm.toInt) % 2 ^ 32 :=
  toNat_add_sextImm (s.x rs) imm

/-- The effective address as the word of the mathematical sum. -/
theorem effectiveAddress_eq_ofInt (s : State) (rs : Reg) (imm : BitVec 16) :
    effectiveAddress s rs imm = BitVec.ofInt 32 ((s.x rs).toNat + imm.toInt) := by
  have h := effectiveAddress_toNat s rs imm
  apply BitVec.eq_of_toNat_eq
  rw [BitVec.toNat_ofInt]
  omega

/-- Settles O36: `effectiveAddress_toNat` is the statement. -/
theorem effectiveAddressIsBasePlusDisplacement : Obligations.EffectiveAddressIsBasePlusDisplacement :=
  effectiveAddress_toNat

/-! ### Loads of a byte (43_load_store.md R161, R162) -/

theorem sextByte_toInt (b : Byte) : (sextByte b).toInt = b.toInt := BitVec.toInt_signExtend_of_le (by decide)

theorem zextByte_toNat (b : Byte) : (zextByte b).toNat = b.toNat := BitVec.toNat_setWidth_of_le (by decide)

/-- Settles O37: both end in `writeResult`, with the extended byte. -/
theorem byteLoadsExtend : Obligations.ByteLoadsExtend := by
  refine ⟨decode_wordI_load_store (fun _ => rfl) (by decide) fun _ => rfl,
    decode_wordI_load_store (fun _ => rfl) (by decide) fun _ => rfl,
    fun s rt rs imm => ?_⟩
  rw [← effectiveAddress_eq_ofInt]
  constructor
  · exact writeResult_completes_and (sextByte_toInt _) rt s
  · exact writeResult_completes_and (zextByte_toNat _) rt s

/-! ### Loads of a word (43_load_store.md R163, 20_memory.md R45) -/

/-- Appending bits below a word shifts it up by their number. -/
theorem toNat_append_eq_add {m n : Nat} (a : BitVec m) (b : BitVec n) :
    (a ++ b).toNat = a.toNat * 2 ^ n + b.toNat := by
  rw [BitVec.toNat_append, ← Nat.shiftLeft_add_eq_or_of_lt b.isLt, Nat.shiftLeft_eq]

/-- The word four bytes make, the lowest address the most significant (20_memory.md R45). -/
theorem wordOfBytes_big_toNat (b0 b1 b2 b3 : Byte) :
    (wordOfBytes .big b0 b1 b2 b3).toNat =
      b0.toNat * 2 ^ 24 + b1.toNat * 2 ^ 16 + b2.toNat * 2 ^ 8 + b3.toNat := by
  rw [wordOfBytes, toNat_append_eq_add, toNat_append_eq_add, toNat_append_eq_add]
  omega

/-- Little-endian order is big-endian order of the bytes reversed. -/
theorem wordOfBytes_little (b0 b1 b2 b3 : Byte) : wordOfBytes .little b0 b1 b2 b3 = wordOfBytes .big b3 b2 b1 b0 := rfl

/-- A word's read by the offsets of its bytes from the address (20_memory.md R45, R49). -/
theorem memRead4_eq_wordOfBytes (s : State) (a : Word) :
    s.memRead4 a = wordOfBytes s.params.endian (s.memRead1 (a + BitVec.ofNat 32 0)) (s.memRead1 (a + BitVec.ofNat 32 1))
      (s.memRead1 (a + BitVec.ofNat 32 2)) (s.memRead1 (a + BitVec.ofNat 32 3)) := by
  rw [BitVec.add_zero]
  rfl

/-- Settles O38: `lw` ends in `writeResult`, with the word the four bytes make in the byte order of the run. -/
theorem loadWordAssemblesFourBytes : Obligations.LoadWordAssemblesFourBytes := by
  refine ⟨decode_wordI_load_store (fun _ => rfl) (by decide) fun _ => rfl, fun s rt rs imm => ?_⟩
  rw [← effectiveAddress_eq_ofInt]
  refine writeResult_completes_and ⟨fun big => ?_, fun little => ?_⟩ rt s
  · rw [memRead4_eq_wordOfBytes, big, wordOfBytes_big_toNat]
  · rw [memRead4_eq_wordOfBytes, little, wordOfBytes_little, wordOfBytes_big_toNat]

/-! ### Stores (43_load_store.md R164, R165) -/

/-- `sb` writes the low byte of its register and goes on to the next word (43_load_store.md R164). -/
theorem exec_sb (rt rs : Reg) (imm : BitVec 16) (s : State) :
    exec (.sb rt imm rs) s = .next (s.memWrite1 (effectiveAddress s rs imm) (getBits 7 0 (s.x rt))).advance := rfl

@[simp] theorem memRead1_advance (s : State) (a : Word) : s.advance.memRead1 a = s.memRead1 a := rfl

/-- The low byte of a word as a number. -/
theorem lowByte_toNat (v : Word) : (getBits 7 0 v).toNat = v.toNat % 2 ^ 8 := by
  simp [getBits_toNat]

/-- Settles O39: the byte written is read back, and `storesAt_memWrite1` says what stays. -/
theorem storeByteChangesOneByte : Obligations.StoreByteChangesOneByte := by
  refine ⟨decode_wordI_load_store (fun _ => rfl) (by decide) fun _ => rfl,
    fun s rt rs imm h => ⟨effectiveAddress_toNat s rs imm, _, exec_sb rt rs imm s, storesAt_memWrite1 h _ _, ?_,
      wf_write h (BitVec.isLt _) _⟩⟩
  rw [memRead1_advance, memRead1_memWrite1 h, if_pos rfl, lowByte_toNat]

/-- The bytes of a word as numbers, the lowest address the most significant (20_memory.md R47). -/
theorem byteOfWord_big_toNat (v : Word) (k : Fin 4) :
    (byteOfWord .big v k).toNat = v.toNat / 2 ^ (24 - 8 * k.val) % 2 ^ 8 := by
  rw [byteOfWord, BitVec.extractLsb'_toNat, Nat.shiftRight_eq_div_pow]

/-- The bytes of a word as numbers, the lowest address the least significant (20_memory.md R47). -/
theorem byteOfWord_little_toNat (v : Word) (k : Fin 4) :
    (byteOfWord .little v k).toNat = v.toNat / 2 ^ (8 * k.val) % 2 ^ 8 := by
  rw [byteOfWord, BitVec.extractLsb'_toNat, Nat.shiftRight_eq_div_pow]

/-- Settles O40: each byte written is read back, and `storesAt_memWrite4` says what stays. -/
theorem storeWordChangesFourBytes : Obligations.StoreWordChangesFourBytes := by
  refine ⟨decode_wordI_load_store (fun _ => rfl) (by decide) fun _ => rfl,
    fun s rt rs imm h => ⟨effectiveAddress_toNat s rs imm, _, exec_sw rt rs imm s, storesAt_memWrite4 h _ _,
      wf_writeBytes h _ _, fun k hk big => ?_, fun k hk little => ?_⟩⟩
  · rw [memRead1_advance, memRead1_memWrite4 h _ _ ⟨k, hk⟩, big, byteOfWord_big_toNat]
  · rw [memRead1_advance, memRead1_memWrite4 h _ _ ⟨k, hk⟩, little, byteOfWord_little_toNat]

/-! ### What does not store (43_load_store.md R166) -/

/-- An instruction that writes neither a general register nor memory leaves every byte of memory. -/
theorem exec_of_no_destination_sameMemory {i : Instr} (hd : destination i = none) (hm : mayWriteMemory i = false)
    (s : State) : ∃ t, exec i s = .next t ∧ SameMemory s t := by
  have branch (taken : Bool) (imm : BitVec 16) : ∃ t, branchIf taken imm s = .next t ∧ SameMemory s t :=
    let ⟨t, e, j⟩ := branchIf_completes taken imm s
    ⟨t, e, j.memory⟩
  cases i with
  | mult | multu | div | divu | mthi | mtlo | j | jr => exact ⟨_, rfl, .of_mem rfl⟩
  | beq | bne | blez | bgtz => exact branch _ _
  | sb | sw | syscall => exact nomatch hm
  | _ => exact nomatch hd

/-- Settles O20: an instruction with a general destination ends in a write of it or in a trap, neither of which writes
memory. -/
theorem onlyStoresChangeMemory : Obligations.OnlyStoresChangeMemory := by
  intro i s t hm e
  cases hd : destination i with
  | none =>
    obtain ⟨u, e', same⟩ := exec_of_no_destination_sameMemory hd hm s
    cases e'.symm.trans e
    exact same
  | some rd =>
    rcases exec_of_destination hd s with ⟨-, e'⟩ | ⟨-, v, e'⟩ <;> cases e'.symm.trans e
    · exact (traps_raise s _ _).memory
    · exact .of_mem (setX_mem s rd v)

end Sys2Proof.Machine
end

section
/-!
PROOFS. The statements about the control transfers (44_control.md): each ends in `branchIf` or in a write of `pc`, and
the targets are those of `branchTarget` and `jumpTarget` as numbers.
-/

-- One elaboration thread: each thread's stack counts against the check's memory limit.
set_option Elab.async false

namespace Sys2Proof.Machine

/-! ### Conditional branches (44_control.md R171 to R174) -/

/-- `branchIf_completes` for a branch on a proposition, with the target as the word of a mathematical sum. -/
theorem branchIf_decide_completes (p : Prop) [Decidable p] (imm : BitVec 16) (s : State) :
    ∃ t, branchIf (decide p) imm s = .next t ∧
      Jumps s t (if p then BitVec.ofInt 32 (s.pc.toNat + 4 + 4 * imm.toInt) else s.pc + 4) := by
  simpa only [decide_eq_true_eq, branchTarget_eq] using branchIf_completes (decide p) imm s

/-- Settles O43: each of the four ends in `branchIf` on its condition. -/
theorem branchesTakeTheirTarget : Obligations.BranchesTakeTheirTarget := by
  refine ⟨decode_wordI_operands (fun _ => rfl) (by decide) fun _ => rfl,
    decode_wordI_operands (fun _ => rfl) (by decide) fun _ => rfl,
    decode_wordI_operands (make := fun rs _ imm => .blez rs imm) (fun _ => rfl) (by decide) fun _ => rfl,
    decode_wordI_operands (make := fun rs _ imm => .bgtz rs imm) (fun _ => rfl) (by decide) fun _ => rfl,
    fun s rs rt imm => ⟨?_, ?_, ?_, ?_⟩⟩
  · exact branchIf_decide_completes (s.x rs = s.x rt) imm s
  · exact branchIf_decide_completes (s.x rs ≠ s.x rt) imm s
  · exact branchIf_decide_completes ((s.x rs).toInt ≤ 0) imm s
  · exact branchIf_decide_completes ((s.x rs).toInt > 0) imm s

/-! ### Jumps to an address field (44_control.md R175, R176) -/

/-- The word of a J row decodes to the instruction the row makes of the word's own address field. -/
theorem decode_wordJ_operands {op : BitVec 6} {o : Op} {make : BitVec 26 → Instr}
    (key : ∀ f, Op.ofKey op f = some o) (h0 : op ≠ 0x00) (form : ∀ f, Instr.ofFields o f = make f.address)
    (address : BitVec 26) : decode (wordJ op address) = .instr (make address) := by
  simp only [decode_wordJ key h0, form, fieldsOf, addressOf_wordJ]

/-- The jump target as a number: four times the address field, which stays below 2^28. -/
theorem jumpTarget_eq (address : BitVec 26) : jumpTarget address = BitVec.ofNat 32 (4 * address.toNat) := by
  apply BitVec.eq_of_toNat_eq
  rw [jumpTarget, BitVec.toNat_shiftLeft, Nat.shiftLeft_eq, BitVec.toNat_setWidth_of_le (by decide), Nat.mul_comm,
    BitVec.toNat_ofNat]

theorem exec_j (address : BitVec 26) (s : State) : exec (.j address) s = .next (s.setPc (jumpTarget address)) := rfl

theorem exec_jal (address : BitVec 26) (s : State) :
    exec (.jal address) s = .next ((s.setX 31 (s.pc + 4)).setPc (jumpTarget address)) := rfl

/-- Settles O44: both write `pc` with the jump target, and `jal` register 31 with the address of the next word. -/
theorem jumpsToAddressField : Obligations.JumpsToAddressField := by
  refine ⟨decode_wordJ_operands (fun _ => rfl) (by decide) fun _ => rfl,
    decode_wordJ_operands (fun _ => rfl) (by decide) fun _ => rfl, fun s address => ?_⟩
  rw [← jumpTarget_eq]
  exact ⟨⟨_, exec_j address s, jumps_setPc s _⟩, ⟨_, exec_jal address s, jumpsAndLinks_setX_setPc s 31 _ _⟩⟩

/-! ### Jumps to a register (44_control.md R177, R178) -/

theorem exec_jr (rs : Reg) (s : State) : exec (.jr rs) s = .next (s.setPc (s.x rs)) := rfl

/-- The target is the register's value in the state before the link is written (44_control.md R178). -/
theorem exec_jalr (rd rs : Reg) (s : State) :
    exec (.jalr rd rs) s = .next ((s.setX rd (s.pc + 4)).setPc (s.x rs)) := rfl

/-- Settles O45: both write `pc` with the register's value, and `jalr` its `rd` with the address of the next word; the
one operand of the short form fills `rs`, and `rd` is 31. -/
theorem jumpsToRegister : Obligations.JumpsToRegister := by
  refine ⟨fun _ _ _ => rfl, decode_wordR_operands (make := fun rs _ _ _ => .jr rs) rfl (by decide) fun _ => rfl,
    decode_wordR_operands (make := fun rs _ rd _ => .jalr rd rs) rfl (by decide) fun _ => rfl, fun s rd rs => ?_⟩
  exact ⟨⟨_, exec_jr rs s, jumps_setPc s _⟩, ⟨_, exec_jalr rd rs s, jumpsAndLinks_setX_setPc s rd _ _⟩⟩

end Sys2Proof.Machine
end

section
/-!
PROOFS. The statements about the environment call and its completion (45_system.md): `syscall` traps or serves, a served
call ends by the outcome of its service, and a resumption rejects the input or completes the call.
-/

-- One elaboration thread: each thread's stack counts against the check's memory limit.
set_option Elab.async false

namespace Sys2Proof.Machine

/-! ### What a service's writes leave (45_system.md R191) -/

/-- Committing replaces the registers, `hi`, `lo` and memory, and leaves every other field. -/
theorem commit_eq (s : State) (w : ServiceWrites) :
    s.commit w =
      { s with regs := (s.commit w).regs, hi := (s.commit w).hi, lo := (s.commit w).lo, mem := (s.commit w).mem } := by
  obtain ⟨regs, hi, lo, m, e, -⟩ := commit_frame s w
  rw [e]

section
variable (s : State) (w : ServiceWrites)

@[simp] theorem commit_pc : (s.commit w).pc = s.pc := by rw [commit_eq]
@[simp] theorem commit_cause : (s.commit w).cause = s.cause := by rw [commit_eq]
@[simp] theorem commit_causeInfo : (s.commit w).causeInfo = s.causeInfo := by rw [commit_eq]
@[simp] theorem commit_host : (s.commit w).host = s.host := by rw [commit_eq]

end

/-- The host's side before the writes commit, and `pc`, the status and the host's side after, have no part in what the
writes do. -/
theorem commits_commit_of_host {s : State} (h : s.mem.wf) (w : ServiceWrites) (host host' : HostSide) (pc : Word)
    (status : Status) :
    Commits s { ({ s with host := host } : State).commit w with pc := pc, status := status, host := host' } w :=
  have c := commit_commits (s := { s with host := host }) h w
  ⟨c.regs, c.hi, c.lo, c.memory⟩

/-! ### The environment call (45_system.md R190) -/

/-- A code that selects no service traps, with the code as `cause_info` (60_exceptions.md R262). -/
theorem exec_syscall_of_undefined {s : State} (h : s.params.syscallTable.lookup (s.x 2) = none) :
    ∃ t, exec .syscall s = .next t ∧ Traps s t .syscallNotImplemented (s.x 2) := by
  rcases execSyscall_cases s with ⟨-, e⟩ | ⟨svc, hd, -⟩
  · exact ⟨_, e, traps_raise s _ _⟩
  · cases h.symm.trans hd

/-- A code that selects a service serves the call. -/
theorem exec_syscall_of_defined {s : State} {svc : Service} (h : s.params.syscallTable.lookup (s.x 2) = some svc) :
    exec .syscall s = .next (s.serve svc) := by
  rcases execSyscall_cases s with ⟨hn, -⟩ | ⟨svc', hd, e⟩
  · cases h.symm.trans hn
  · cases h.symm.trans hd
    exact e

/-- Serving a call raises nothing. -/
theorem serve_cause (s : State) (svc : Service) : (s.serve svc).cause = s.cause := by
  rcases serve_cases s svc with ⟨-, e⟩ | ⟨-, e⟩ | ⟨-, e⟩ <;> simp [e]

theorem serve_causeInfo (s : State) (svc : Service) : (s.serve svc).causeInfo = s.causeInfo := by
  rcases serve_cases s svc with ⟨-, e⟩ | ⟨-, e⟩ | ⟨-, e⟩ <;> simp [e]

/-- The host's side once a service has answered: the answer is counted and its lines are in the console. -/
def HostSide.afterAnswer (h : HostSide) (lines : List (LineKind × List Byte)) : HostSide :=
  { h with calls := h.calls + 1, console := h.console ++ consoleLines lines }

/-- A service that answers Continue leaves the status alone. -/
theorem serve_of_proceed {s : State} (hm : s.mem.wf) {svc : Service} (h : (serviceAnswer svc s).outcome = .proceed) :
    Commits s (s.serve svc) (serviceAnswer svc s).writes ∧ (s.serve svc).pc = s.pc + 4 ∧
      (s.serve svc).status = s.status ∧ (s.serve svc).host = s.host.afterAnswer (serviceAnswer svc s).lines := by
  rcases serve_cases s svc with ⟨-, e⟩ | ⟨o, -⟩ | ⟨o, -⟩
  · rw [e]
    exact ⟨commits_commit_of_host hm _ _ _ _ _, by simp, commit_status _ _, commit_host _ _⟩
  · cases h.symm.trans o
  · cases h.symm.trans o

/-- A service that answers Exit commits its writes before the core halts. -/
theorem serve_of_exit {s : State} (hm : s.mem.wf) {svc : Service} (h : (serviceAnswer svc s).outcome = .exit) :
    Commits s (s.serve svc) (serviceAnswer svc s).writes ∧ (s.serve svc).pc = s.pc + 4 ∧
      (s.serve svc).status = .halted ∧ (s.serve svc).host = s.host.afterAnswer (serviceAnswer svc s).lines := by
  rcases serve_cases s svc with ⟨o, -⟩ | ⟨-, e⟩ | ⟨o, -⟩
  · cases h.symm.trans o
  · rw [e]
    exact ⟨commits_commit_of_host hm _ _ _ _ _, by simp, rfl, commit_host _ _⟩
  · cases h.symm.trans o

/-- A service that blocks leaves its writes uncommitted. -/
theorem serve_of_block {s : State} {svc : Service} (h : (serviceAnswer svc s).outcome = .block) :
    SameRegs s (s.serve svc) ∧ SameHiLo s (s.serve svc) ∧ SameMemory s (s.serve svc) ∧ (s.serve svc).pc = s.pc ∧
      (s.serve svc).status = .suspended ∧
      (s.serve svc).host =
        { s.host.afterAnswer (serviceAnswer svc s).lines with
          pending := some ⟨svc, s.host.generation⟩, consoleState := .waitingInput } := by
  rcases serve_cases s svc with ⟨o, -⟩ | ⟨o, -⟩ | ⟨-, e⟩
  · cases h.symm.trans o
  · cases h.symm.trans o
  · rw [e]
    exact ⟨.of_regs rfl, ⟨rfl, rfl⟩, .of_mem rfl, rfl, rfl, rfl⟩

/-- Settles O47: `syscall` traps or serves by whether its code is defined, and serving has one lemma per outcome. -/
theorem servedSyscallEndsByItsOutcome : Obligations.ServedSyscallEndsByItsOutcome :=
  ⟨decode_wordR_operands (make := fun _ _ _ _ => .syscall) rfl (by decide) fun _ => rfl, rfl,
    fun _ => exec_syscall_of_undefined,
    fun s svc hm hd => ⟨s.serve svc, exec_syscall_of_defined hd, serve_params s svc, serve_cause s svc,
      serve_causeInfo s svc, serve_of_proceed hm, serve_of_exit hm, serve_of_block⟩⟩

/-! ### Resumption (45_system.md R191, R192) -/

/-- An input with a stale token, or for a core that is not suspended, changes nothing (60_exceptions.md R278). -/
theorem hostResume_of_stale {s : State} {token : Nat} (h : token ≠ s.host.generation ∨ s.status ≠ .suspended)
    (input : List Char) : hostResume input token s = s := by
  rcases hostResume_cases input token s with ⟨-, e⟩ | ⟨ht, hs, -⟩
  · exact e
  · exact absurd h (by simp [ht, hs])

section
variable {s : State} {c : PendingCall} {input : List Char} (hs : s.status = .suspended) (hp : s.host.pending = some c)
include hs hp

/-- An input the service rejects leaves an error line after the lines of the reply, and nothing else but the count. -/
theorem hostResume_of_rejected (hr : (serviceReply c.service s input).writes = none) :
    hostResume input s.host.generation s =
      { s with host := s.host.afterAnswer (serviceReply c.service s input).lines }.appendLine ⟨.error, .inputError⟩ := by
  rcases hostResume_cases input s.host.generation s with ⟨hn, -⟩ | ⟨-, -, c', hp', ⟨-, e⟩ | ⟨w, hw, -⟩⟩
  · simp [hs, hp] at hn
  · cases hp.symm.trans hp'
    exact e
  · cases hp.symm.trans hp'
    cases hr.symm.trans hw

/-- An input the service accepts commits the writes of the reply and lets the core run. -/
theorem hostResume_of_accepted {w : ServiceWrites} (hr : (serviceReply c.service s input).writes = some w) :
    hostResume input s.host.generation s =
      { (({ s with host := s.host.afterAnswer (serviceReply c.service s input).lines } : State).commit
          w).advance.clearPending with status := .running } := by
  rcases hostResume_cases input s.host.generation s with ⟨hn, -⟩ | ⟨-, -, c', hp', ⟨hw, -⟩ | ⟨w', hw, e⟩⟩
  · simp [hs, hp] at hn
  · cases hp.symm.trans hp'
    cases hr.symm.trans hw
  · cases hp.symm.trans hp'
    cases hr.symm.trans hw
    exact e

end

/-- Settles O48: the stale cases change nothing, and a reply either rejects the input or carries the writes that
complete the call. -/
theorem resumeCompletesThePendingCall : Obligations.ResumeCompletesThePendingCall := by
  refine ⟨fun s hs => ⟨step_of_not_running (by simp [hs]), rfl⟩, fun s input token h => hostResume_of_stale h input,
    fun s c input hm hs hp => ⟨fun hr => ?_, fun w hr => ?_⟩⟩
  · rw [hostResume_of_rejected hs hp hr]
    exact ⟨.of_regs rfl, ⟨rfl, rfl⟩, .of_mem rfl, rfl, hs, rfl, rfl, rfl, rfl, rfl⟩
  · rw [hostResume_of_accepted hs hp hr]
    exact ⟨commits_commit_of_host hm w _ _ _ _, by simp [State.clearPending], rfl, commit_cause _ _,
      commit_causeInfo _ _, commit_params _ _, rfl, by simp [State.clearPending, HostSide.afterAnswer], rfl⟩

end Sys2Proof.Machine
end

section
/-!
PROOFS. The statements about the passes of the off-line assembler (50_assembler.md): the fields of label targets (R222,
R223), and the cursors of the two passes (R221).
-/

-- One elaboration thread: each thread's stack counts against the check's memory limit.
set_option Elab.async false

namespace Sys2Proof.Asm

open Sys2Proof.Machine

/-! ### The fields of label targets (50_assembler.md R222, R223) -/

theorem signedField_eq_ok_iff {v : Int} {imm : BitVec 16} :
    signedField v = .ok imm ↔ (-32768 ≤ v ∧ v ≤ 32767) ∧ imm = BitVec.ofInt 16 v := by
  by_cases h : -32768 ≤ v ∧ v ≤ 32767 <;> simp [signedField, fitsSigned16, h, eq_comm]

theorem unsignedField_of_range {v : Int} (low : 0 ≤ v) (high : v ≤ 65535) :
    unsignedField v = .ok (BitVec.ofInt 16 v) := by
  simp [unsignedField, fitsUnsigned16, low, high]

/-- A branch field is the distance in words, where that is whole and fits. -/
theorem branchField_eq_ok_iff {a target : Word} {imm : BitVec 16} :
    branchField a target = .ok imm ↔
      ∃ q : Int, (target.toNat : Int) = a.toNat + 4 + 4 * q ∧ (-32768 ≤ q ∧ q ≤ 32767) ∧ imm = BitVec.ofInt 16 q := by
  unfold branchField
  dsimp only
  split
  · next whole =>
    rw [signedField_eq_ok_iff]
    constructor
    · exact fun h => ⟨_, by omega, h⟩
    · rintro ⟨q, distance, h⟩
      rwa [show ((target.toNat : Int) - (a.toNat + 4)) / 4 = q by omega]
  · next broken =>
    refine ⟨nofun, fun ⟨q, distance, _⟩ => absurd ?_ broken⟩
    omega

/-- A jump field is the address in words, where that is whole and below 2^26. -/
theorem jumpField_eq_ok_iff {target : Word} {address : BitVec 26} :
    jumpField (target.toNat : Int) = .ok address ↔
      (target.toNat % 4 = 0 ∧ target.toNat < 2 ^ 28) ∧ address = BitVec.ofNat 26 (target.toNat / 4) := by
  have field : BitVec.ofInt 26 ((target.toNat : Int) / 4) = BitVec.ofNat 26 (target.toNat / 4) := by
    rw [← BitVec.ofInt_natCast]; rfl
  unfold jumpField
  split
  · next broken => exact ⟨nofun, fun ⟨⟨whole, _⟩, _⟩ => by omega⟩
  · next whole =>
    split
    · next reach =>
      rw [field, Except.ok.injEq, eq_comm]
      exact (and_iff_right ⟨by omega, by omega⟩).symm
    · next far => exact ⟨nofun, fun ⟨⟨_, near⟩, _⟩ => by omega⟩

theorem branchTarget_of_branchField {a target : Word} {imm : BitVec 16} (h : branchField a target = .ok imm) :
    branchTarget a imm = target := by
  obtain ⟨q, distance, ⟨low, high⟩, rfl⟩ := branchField_eq_ok_iff.1 h
  rw [branchTarget_eq, BitVec.toInt_ofInt_eq_self (by decide) low (by omega), ← distance, BitVec.ofInt_natCast,
    BitVec.ofNat_toNat, BitVec.setWidth_eq]

theorem jumpTarget_of_jumpField {target : Word} {address : BitVec 26}
    (h : jumpField (target.toNat : Int) = .ok address) : jumpTarget address = target := by
  obtain ⟨⟨whole, near⟩, rfl⟩ := jumpField_eq_ok_iff.1 h
  apply BitVec.eq_of_toNat_eq
  rw [jumpTarget_eq, BitVec.toNat_ofNat, BitVec.toNat_ofNat]
  omega

/-- Settles O51: a field exists where its `_eq_ok_iff` says, and there the core's target is the label. -/
theorem labelTargetsAreReached : Obligations.LabelTargetsAreReached := by
  refine ⟨fun _ _ _ => branchTarget_of_branchField, fun _ _ => jumpTarget_of_jumpField, fun a target => ?_,
    fun target => ?_⟩
  · simp only [branchField_eq_ok_iff]
    exact ⟨fun ⟨_, q, distance, range, _⟩ => ⟨q, distance, range⟩,
      fun ⟨q, distance, range⟩ => ⟨_, q, distance, range, rfl⟩⟩
  · simp only [jumpField_eq_ok_iff]
    exact ⟨fun ⟨_, reach, _⟩ => reach, fun reach => ⟨_, reach, rfl⟩⟩

/-! ### The cursors of the two passes (50_assembler.md R210, R220, R221) -/

theorem bind_eq_ok {ε α β : Type} {x : Except ε α} {f : α → Except ε β} {b : β} (h : x.bind f = .ok b) :
    ∃ a, x = .ok a ∧ f a = .ok b := by
  cases x with
  | error e => cases h
  | ok a => exact ⟨a, rfl, h⟩

theorem map_eq_ok {ε α β : Type} {x : Except ε α} {f : α → β} {b : β} (h : x.map f = .ok b) :
    ∃ a, x = .ok a ∧ f a = b := by
  cases x with
  | error e => cases h
  | ok a => exact ⟨a, rfl, Except.ok.inj h⟩

theorem map_map {ε α β γ : Type} (f : α → β) (g : β → γ) (x : Except ε α) :
    (x.map f).map g = x.map fun a => g (f a) := by
  cases x <;> rfl

/-- Defining a label moves no cursor. -/
theorem PassOne.defineLabel_cursors {p q : PassOne} {name : Text} (h : p.defineLabel name = .ok q) :
    q.cursors = p.cursors := by
  unfold PassOne.defineLabel at h
  split at h
  · cases h
  · split at h
    · cases h
    · dsimp only at h
      split at h
      · obtain ⟨g, -, rfl⟩ := map_eq_ok h; rfl
      · cases h; rfl

theorem PassOne.defineLabels_cursors {names : List Text} {p q : PassOne} (h : p.defineLabels names = .ok q) :
    q.cursors = p.cursors := by
  induction names generalizing p with
  | nil => cases h; rfl
  | cons name names ih =>
    obtain ⟨u, first, rest⟩ := bind_eq_ok h
    exact (ih rest).trans (defineLabel_cursors first)

/-- `.globl` moves no cursor. -/
theorem PassOne.declareGlobal_cursors {p q : PassOne} {name : Text} (h : p.declareGlobal name = .ok q) :
    q.cursors = p.cursors := by
  unfold PassOne.declareGlobal at h
  split at h
  · cases h; rfl
  · dsimp only at h
    split at h
    · obtain ⟨g, -, rfl⟩ := map_eq_ok h; rfl
    · cases h; rfl
    · cases h; rfl

/-- Pass 1 moves the cursors as the line's statement does. -/
theorem PassOne.line_cursors {cfg : Settings} {e : Endian} {p p' : PassOne} {l : ParsedLine}
    (h : p.line cfg e l = .ok p') :
    ∃ b, bodyOf cfg e p.cursors.active l.body = .ok b ∧ p'.cursors = b.cursors p.cursors := by
  obtain ⟨u, labels, h⟩ := bind_eq_ok h
  obtain ⟨b, body, h⟩ := bind_eq_ok h
  rw [← defineLabels_cursors labels]
  refine ⟨b, body, ?_⟩
  dsimp only at h
  split at h
  · exact declareGlobal_cursors h
  · cases h; rfl

/-- Pass 2 moves the cursors as the line's statement does. -/
theorem PassTwo.line_cursors {cfg : Settings} {e : Endian} {resolve : Text → Option Word} {fileId : Nat}
    {q q' : PassTwo} {l : ParsedLine} (h : q.line cfg e resolve fileId l = .ok q') :
    ∃ b, bodyOf cfg e q.cursors.active l.body = .ok b ∧ q'.cursors = b.cursors q.cursors := by
  obtain ⟨b, body, h⟩ := bind_eq_ok h
  refine ⟨b, body, ?_⟩
  dsimp only at h
  split at h
  · cases h; rfl
  · obtain ⟨ws, -, rfl⟩ := map_eq_ok h; rfl
  · cases h; rfl

/-- Settles O55: both passes read the same statement from the same cursors, and it alone moves them. -/
theorem bothPassesMoveTheCursorsAlike : Obligations.BothPassesMoveTheCursorsAlike := by
  intro cfg e resolve fileId l p p' q q' same one two
  obtain ⟨b, body, moved⟩ := PassOne.line_cursors one
  obtain ⟨b', body', moved'⟩ := PassTwo.line_cursors two
  rw [same] at body moved
  cases body.symm.trans body'
  rw [moved, moved']

end Sys2Proof.Asm
end

section
/-!
PROOFS. What the words of `li`, `la` and the comparing pseudo-instructions of the off-line assembler do when they are
executed (50_assembler.md R226, R227, R230 to R233), and the worked example (R246).
-/

-- One elaboration thread: each thread's stack counts against the check's memory limit.
set_option Elab.async false

namespace Sys2Proof.Machine

/-! ### Executing consecutive words -/

theorem SameHiLo.trans {s u t : State} (h : SameHiLo s u) (h' : SameHiLo u t) : SameHiLo s t :=
  ⟨h'.1.trans h.1, h'.2.trans h.2⟩

theorem SameMemory.trans {s u t : State} (h : SameMemory s u) (h' : SameMemory u t) : SameMemory s t :=
  fun a => (h' a).trans (h a)

theorem SameControl.trans {s u t : State} (h : SameControl s u) (h' : SameControl u t) : SameControl s t :=
  ⟨h'.params.trans h.params, h'.status.trans h.status, h'.cause.trans h.cause, h'.causeInfo.trans h.causeInfo,
    h'.host.trans h.host⟩

/-- The word of an instruction that has one of its own executes the instruction (30_encoding.md R89). -/
theorem execWords_encode_cons {i : Instr} {s t : State} (e : exec i s = .next t) (own : i ≠ .sll 0 0 0)
    (ws : List Word) : execWords (encode i :: ws) s = execWords ws t := by
  have decoded : decode (encode i) = .instr i := decode_encode fun h => own (eq_sll_of_encode_eq_zero h)
  simp [execWords, decoded, e]

/-- Executing `ws`, one word or two, leaves `v` in `rt` (0 in register 0) and goes on behind them; two words may
overwrite `$at`, and nothing else changes. -/
def LoadsValue (ws : List Word) (rt : Reg) (v : Nat) (s : State) : Prop :=
  ∃ t, execWords ws s = some t ∧ (t.x rt).toNat = (if rt = 0 then 0 else v) ∧
    t.pc = s.pc + BitVec.ofNat 32 (4 * ws.length) ∧
    (∀ r : Reg, r ≠ rt → (ws.length = 2 → r ≠ 1) → t.x r = s.x r) ∧
    SameHiLo s t ∧ SameMemory s t ∧ SameControl s t

theorem WritesReg.x_same {s t : State} {rd : Reg} {v : Word} (w : WritesReg s t rd v) :
    t.x rd = if rd = 0 then 0 else v := by
  rw [w.regs, if_pos rfl]

theorem WritesReg.x_of_ne {s t : State} {rd r : Reg} {v : Word} (w : WritesReg s t rd v) (h : r ≠ rd) :
    t.x r = s.x r := by
  rw [w.regs, if_neg h]
  split
  · next h0 => rw [h0, x_zero]
  · rfl

/-- The value register `rt` holds after a write of `v`, as a number. -/
theorem WritesReg.toNat_x {s t : State} {rd : Reg} {v : Word} (w : WritesReg s t rd v) :
    (t.x rd).toNat = if rd = 0 then 0 else v.toNat := by
  rw [w.x_same]
  split <;> rfl

/-- The word of an instruction that ends in `writeResult` loads the value it writes. -/
theorem loadsValue_of_writeResult {i : Instr} {s : State} {rt : Reg} {v : Word} (ends : exec i s = writeResult rt v s)
    (own : i ≠ .sll 0 0 0) : LoadsValue [encode i] rt v.toNat s := by
  obtain ⟨t, e, w⟩ := writeResult_completes rt v s
  exact ⟨t, execWords_encode_cons (ends.trans e) own [], w.toNat_x, w.pc, fun r hr _ => w.x_of_ne hr, w.hiLo, w.memory,
    w.control⟩

/-- `lui` and `ori` put the two halves of a word together (30_encoding.md R78, R75). -/
theorem upperImm_or_zextImm (w : Word) : upperImm (getBits 31 16 w) ||| zextImm (getBits 15 0 w) = w := by
  apply BitVec.eq_of_getLsbD_eq
  intro k hk
  rw [getLsbD_or_zextImm _ _ k hk, upperImm, BitVec.getLsbD_append]
  by_cases low : k < 16
  · simp [low, getBits]
  · have : 16 + (k - 16) = k := by omega
    simp [low, getBits, this]
    omega

theorem exec_lui (rt : Reg) (imm : BitVec 16) (s : State) :
    exec (.lui rt imm) s = writeResult rt (upperImm imm) s := rfl

theorem exec_ori (rt rs : Reg) (imm : BitVec 16) (s : State) :
    exec (.ori rt rs imm) s = writeResult rt (s.x rs ||| zextImm imm) s := rfl

theorem exec_addiu (rt rs : Reg) (imm : BitVec 16) (s : State) :
    exec (.addiu rt rs imm) s = writeResult rt (s.x rs + sextImm imm) s := rfl

/-- From `$zero`, `ori` loads its zero-extended immediate. -/
theorem exec_ori_zero (rt : Reg) (imm : BitVec 16) (s : State) :
    exec (.ori rt 0 imm) s = writeResult rt (zextImm imm) s := by
  simp [exec_ori]

/-- From `$zero`, `addiu` loads its sign-extended immediate. -/
theorem exec_addiu_zero (rt : Reg) (imm : BitVec 16) (s : State) :
    exec (.addiu rt 0 imm) s = writeResult rt (sextImm imm) s := by
  simp [exec_addiu]

/-- The words that load `w` into `rt` by way of `$at` (50_assembler.md R226, R227). -/
def halfLoads (rt : Reg) (w : Word) : List Word :=
  [encode (.lui 1 (getBits 31 16 w)), encode (.ori rt 1 (getBits 15 0 w))]

/-- The halves as numbers. -/
theorem halfLoads_eq (rt : Reg) (w : Word) :
    halfLoads rt w = [encode (.lui 1 (BitVec.ofNat 16 (w.toNat / 2 ^ 16))),
      encode (.ori rt 1 (BitVec.ofNat 16 (w.toNat % 2 ^ 16)))] := by
  have high : getBits 31 16 w = BitVec.ofNat 16 (w.toNat / 2 ^ 16) := BitVec.eq_of_toNat_eq (getBits_toNat 31 16 w)
  have low : getBits 15 0 w = BitVec.ofNat 16 (w.toNat % 2 ^ 16) :=
    BitVec.eq_of_toNat_eq (by rw [getBits_toNat, BitVec.toNat_ofNat]; omega)
  rw [halfLoads, high, low]

/-- After the two words `rt` holds `w`: `ori` reads the upper half from `$at`. -/
theorem loadsValue_halfLoads (rt : Reg) (w : Word) (s : State) : LoadsValue (halfLoads rt w) rt w.toNat s := by
  obtain ⟨u, e, upper⟩ := writeResult_completes 1 (upperImm (getBits 31 16 w)) s
  obtain ⟨t, e', whole⟩ := writeResult_completes rt (u.x 1 ||| zextImm (getBits 15 0 w)) u
  have scratch : u.x 1 = upperImm (getBits 31 16 w) := upper.x_same
  rw [scratch, upperImm_or_zextImm] at whole
  refine ⟨t, ?_, whole.toNat_x, ?_, fun r hr hat => (whole.x_of_ne hr).trans (upper.x_of_ne (hat rfl)),
    upper.hiLo.trans whole.hiLo, upper.memory.trans whole.memory, upper.control.trans whole.control⟩
  · rw [halfLoads, execWords_encode_cons ((exec_lui 1 _ s).trans e) nofun,
      execWords_encode_cons ((exec_ori rt 1 _ u).trans e') nofun]
    rfl
  · rw [whole.pc, upper.pc, BitVec.add_assoc]
    rfl

/-! ### A comparison and a branch on it -/

/-- The branch that is taken when the comparison in `$at` has the value `sense` (50_assembler.md R230 to R233). -/
def branchOn (sense : Bool) (imm : BitVec 16) : Instr :=
  match sense with
  | true => .bne 1 0 imm
  | false => .beq 1 0 imm

theorem branchOn_ne_sll (sense : Bool) (imm : BitVec 16) : branchOn sense imm ≠ .sll 0 0 0 := by
  cases sense <;> exact nofun

theorem exec_branchOn (sense : Bool) (imm : BitVec 16) {u : State} {b : Bool} (h : u.x 1 = ofCompare b) :
    exec (branchOn sense imm) u = branchIf (b == sense) imm u := by
  have value : (u.x 1 = u.x 0) ↔ b = false := by
    rw [h, x_zero]
    cases b <;> simp [ofCompare]
  cases sense
  · change branchIf (decide (u.x 1 = u.x 0)) imm u = _
    simp only [value]
    cases b <;> rfl
  · change branchIf (decide (u.x 1 ≠ u.x 0)) imm u = _
    simp only [ne_eq, value]
    cases b <;> rfl

theorem exec_slt (rd rs rt : Reg) (s : State) :
    exec (.slt rd rs rt) s = writeResult rd (ofCompare (ltSigned (s.x rs) (s.x rt))) s := rfl

/-- `slt` into `$at` and a branch on it reach the branch's target or the next word, and change only `$at`. -/
theorem execWords_slt_branchOn (x y : Reg) (sense : Bool) (imm : BitVec 16) (s : State) :
    ∃ t, execWords [encode (.slt 1 x y), encode (branchOn sense imm)] s = some t ∧
      t.pc = (if ltSigned (s.x x) (s.x y) = sense then branchTarget (s.pc + 4) imm else s.pc + 8) ∧
      (∀ r : Reg, r ≠ 1 → t.x r = s.x r) ∧ SameHiLo s t ∧ SameMemory s t ∧ SameControl s t := by
  obtain ⟨u, e, compared⟩ := writeResult_completes 1 (ofCompare (ltSigned (s.x x) (s.x y))) s
  obtain ⟨t, e', branched⟩ := branchIf_completes (ltSigned (s.x x) (s.x y) == sense) imm u
  refine ⟨t, ?_, ?_, fun r hr => (branched.regs r).trans (compared.x_of_ne hr), compared.hiLo.trans branched.hiLo,
    compared.memory.trans branched.memory, compared.control.trans branched.control⟩
  · rw [execWords_encode_cons ((exec_slt 1 x y s).trans e) nofun,
      execWords_encode_cons ((exec_branchOn sense imm compared.x_same).trans e') (branchOn_ne_sll sense imm)]
    rfl
  · rw [branched.pc, compared.pc, BitVec.add_assoc]
    simp only [beq_iff_eq]
    rfl

end Sys2Proof.Machine

namespace Sys2Proof.Asm

open Sys2Proof.Machine

/-! ### Encoding the statements of an expansion -/

section
variable {resolve : Text → Option Word} {a : Word}

theorem encodeStmt_of_fields {st : Stmt} {i : Instr} (op : st.op = i.op)
    (fields : operandFields resolve a st = .ok i.fields) : encodeStmt resolve a st = .ok (encode i) := by
  rw [encodeStmt, fields, op]
  rfl

theorem encodeStmt_lui {v : Operand} {imm : BitVec 16} (rt : Reg) (h : immField resolve .lui v = .ok imm) :
    encodeStmt resolve a ⟨.lui, [.reg rt, v]⟩ = .ok (encode (.lui rt imm)) :=
  encodeStmt_of_fields rfl (congrArg (Except.map fun imm => ({ noFields with rt, imm } : Fields)) h)

theorem encodeStmt_ori {v : Operand} {imm : BitVec 16} (rt rs : Reg) (h : immField resolve .ori v = .ok imm) :
    encodeStmt resolve a ⟨.ori, [.reg rt, .reg rs, v]⟩ = .ok (encode (.ori rt rs imm)) :=
  encodeStmt_of_fields rfl (congrArg (Except.map fun imm => ({ noFields with rt, rs, imm } : Fields)) h)

theorem encodeStmt_addiu {v : Operand} {imm : BitVec 16} (rt rs : Reg) (h : immField resolve .addiu v = .ok imm) :
    encodeStmt resolve a ⟨.addiu, [.reg rt, .reg rs, v]⟩ = .ok (encode (.addiu rt rs imm)) :=
  encodeStmt_of_fields rfl (congrArg (Except.map fun imm => ({ noFields with rt, rs, imm } : Fields)) h)

theorem encodeStmts_one {st : Stmt} {w : Word} (h : encodeStmt resolve a st = .ok w) :
    encodeStmts resolve a [st] = .ok [w] := by
  simp only [encodeStmts, h]

theorem encodeStmts_two {st st' : Stmt} {w w' : Word} (h : encodeStmt resolve a st = .ok w)
    (h' : encodeStmt resolve (a + 4) st' = .ok w') : encodeStmts resolve a [st, st'] = .ok [w, w'] := by
  simp only [encodeStmts, h, h']

/-- `lui $at` with the upper half of a word and `ori` from `$at` with the lower one. -/
theorem encodeStmts_halfLoads {hi lo : Operand} (rt : Reg) {w : Word}
    (high : immField resolve .lui hi = .ok (getBits 31 16 w)) (low : immField resolve .ori lo = .ok (getBits 15 0 w)) :
    encodeStmts resolve a [⟨.lui, [atReg, hi]⟩, ⟨.ori, [.reg rt, atReg, lo]⟩] = .ok (halfLoads rt w) :=
  encodeStmts_two (encodeStmt_lui 1 high) (encodeStmt_ori rt 1 low)

/-- A number that is the value of 16 bits fills an unsigned field with those bits. -/
theorem unsignedField_toNat (b : BitVec 16) : unsignedField (b.toNat : Int) = .ok b := by
  rw [unsignedField_of_range (by omega) (by omega), BitVec.ofInt_natCast, BitVec.ofNat_toNat, BitVec.setWidth_eq]

/-! ### `li` and `la` (50_assembler.md R226, R227) -/

theorem encodeStmts_expandLi_of_signed (rt : Reg) {l : Int} (h : -32768 ≤ l ∧ l ≤ 32767) :
    encodeStmts resolve a (expandLi rt l) = .ok [encode (.addiu rt 0 (BitVec.ofInt 16 l))] := by
  rw [expandLi, if_pos (by simpa [fitsSigned16] using h)]
  exact encodeStmts_one (encodeStmt_addiu rt 0 (signedField_eq_ok_iff.2 ⟨h, rfl⟩))

theorem encodeStmts_expandLi_of_unsigned (rt : Reg) {l : Int} (h : 32768 ≤ l ∧ l ≤ 65535) :
    encodeStmts resolve a (expandLi rt l) = .ok [encode (.ori rt 0 (BitVec.ofInt 16 l))] := by
  rw [expandLi, if_neg (by simp [fitsSigned16]; omega), if_pos (by simp [fitsUnsigned16]; omega)]
  exact encodeStmts_one (encodeStmt_ori rt 0 (unsignedField_of_range (by omega) (by omega)))

theorem encodeStmts_expandLi_of_wide (rt : Reg) {l : Int} (h : ¬ (-32768 ≤ l ∧ l ≤ 32767))
    (h' : ¬ (32768 ≤ l ∧ l ≤ 65535)) :
    encodeStmts resolve a (expandLi rt l) = .ok (halfLoads rt (BitVec.ofInt 32 l)) := by
  rw [expandLi, if_neg (by simp [fitsSigned16]; omega), if_neg (by simp [fitsUnsigned16]; omega)]
  exact encodeStmts_halfLoads rt (unsignedField_toNat _) (unsignedField_toNat _)

theorem encodeStmts_expandLa (rt : Reg) {l : LabelRef} {w : Word} (h : refAddress resolve l = .ok w) :
    encodeStmts resolve a (expandLa rt l) = .ok (halfLoads rt w) :=
  encodeStmts_halfLoads rt (congrArg (Except.map fun a => getBits 31 16 a) h)
    (congrArg (Except.map fun a => getBits 15 0 a) h)

end

/-- A number in the signed range, as the word its immediate field is extended to (30_encoding.md R75). -/
theorem sextImm_ofInt_toNat {l : Int} (h : -32768 ≤ l ∧ l ≤ 32767) :
    (sextImm (BitVec.ofInt 16 l)).toNat = (l % 2 ^ 32).toNat := by
  have field : (BitVec.ofInt 16 l).toInt = l := BitVec.toInt_ofInt_eq_self (by decide) h.1 (by omega)
  have extended := sextImm_toNat (BitVec.ofInt 16 l)
  rw [field] at extended
  omega

/-- A number in the unsigned range, as the word its immediate field is extended to (30_encoding.md R75). -/
theorem zextImm_ofInt_toNat {l : Int} (h : 0 ≤ l ∧ l ≤ 65535) :
    (zextImm (BitVec.ofInt 16 l)).toNat = (l % 2 ^ 32).toNat := by
  rw [zextImm, BitVec.toNat_setWidth_of_le (by decide), BitVec.toNat_ofInt]
  omega

/-- Settles O52: one case per range of the literal. -/
theorem loadImmediateLoadsItsLiteral : Obligations.LoadImmediateLoadsItsLiteral := by
  intro resolve a rt l s low high
  dsimp only
  split
  · next small =>
    rw [← sextImm_ofInt_toNat small]
    exact ⟨encodeStmts_expandLi_of_signed rt small, loadsValue_of_writeResult (exec_addiu_zero rt _ s) nofun⟩
  · next notSmall =>
    split
    · next unsigned =>
      rw [← zextImm_ofInt_toNat ⟨by omega, unsigned.2⟩]
      exact ⟨encodeStmts_expandLi_of_unsigned rt unsigned, loadsValue_of_writeResult (exec_ori_zero rt _ s) nofun⟩
    · next notUnsigned =>
      have value : (l % 2 ^ 32).toNat = (BitVec.ofInt 32 l).toNat := (BitVec.toNat_ofInt l).symm
      rw [value, ← halfLoads_eq]
      exact ⟨encodeStmts_expandLi_of_wide rt notSmall notUnsigned, loadsValue_halfLoads rt _ s⟩

/-- Settles O53: the two halves are those of the address, and `loadsValue_halfLoads` executes them. -/
theorem loadAddressLoadsTheLabel : Obligations.LoadAddressLoadsTheLabel := by
  intro resolve a addr rt l s resolved
  have value : ((addr.toNat + l.offset) % 2 ^ 32).toNat = (addr + BitVec.ofInt 32 l.offset).toNat := by
    rw [BitVec.toNat_add, BitVec.toNat_ofInt]
    omega
  dsimp only
  rw [value, ← halfLoads_eq]
  obtain ⟨t, e, x, pc, others, frame⟩ := loadsValue_halfLoads rt (addr + BitVec.ofInt 32 l.offset) s
  exact ⟨encodeStmts_expandLa rt (by rw [refAddress, resolved]), t, e, x, pc, fun r hr hat => others r hr fun _ => hat,
    frame⟩

/-! ### `blt`, `bgt`, `ble`, `bge` (50_assembler.md R230 to R233) -/

/-- The signed comparison a comparing pseudo-instruction branches on. -/
def Pseudo.compares (p : Pseudo) (a b : Int) : Prop :=
  (p = .blt ∧ a < b) ∨ (p = .bgt ∧ a > b) ∨ (p = .ble ∧ a ≤ b) ∨ (p = .bge ∧ a ≥ b)

/-- The op of `branchOn`. -/
def branchOpOn (sense : Bool) : Op := if sense then .bne else .beq

/-- A pseudo-instruction of two registers and a target expands to a comparison of the two, in one order or the other,
and a branch on its being true or false, which is the comparison the pseudo-instruction names. -/
theorem expandPseudo_compare {p : Pseudo} {rs rt : Reg} {target : Operand} {stmts : List Stmt}
    (h : expandPseudo p [.reg rs, .reg rt, target] = .ok stmts) :
    ∃ x y sense, stmts = expandCompareBranch x y (branchOpOn sense) target ∧
      ∀ s : State, ltSigned (s.x x) (s.x y) = sense ↔ p.compares (s.x rs).toInt (s.x rt).toInt := by
  cases p with
  | blt => cases h; exact ⟨rs, rt, true, rfl, fun s => by simp [ltSigned, Pseudo.compares]⟩
  | bgt => cases h; exact ⟨rt, rs, true, rfl, fun s => by simp [ltSigned, Pseudo.compares]⟩
  | ble => cases h; exact ⟨rt, rs, false, rfl, fun s => by simp [ltSigned, Pseudo.compares]⟩
  | bge => cases h; exact ⟨rs, rt, false, rfl, fun s => by simp [ltSigned, Pseudo.compares]⟩
  | li | la | move | b | nop => exact nomatch h

theorem encodeStmt_branchOn {resolve : Text → Option Word} (a : Word) (sense : Bool) (target : Operand) :
    encodeStmt resolve a ⟨branchOpOn sense, [atReg, zeroReg, target]⟩ =
      (branchOperand resolve a target).map fun imm => encode (branchOn sense imm) := by
  cases sense <;> exact map_map _ _ _

/-- The words of a comparison and a branch to a label, whose field is that of the second word's address. -/
theorem encodeStmts_compareBranch {resolve : Text → Option Word} {name : Text} {target : Word}
    (resolved : resolve name = some target) (a : Word) (x y : Reg) (sense : Bool) :
    encodeStmts resolve a (expandCompareBranch x y (branchOpOn sense) (.ref ⟨name, 0⟩)) =
      (branchField (a + 4) target).map fun imm => [encode (.slt 1 x y), encode (branchOn sense imm)] := by
  have field : branchOperand resolve (a + 4) (.ref ⟨name, 0⟩) = branchField (a + 4) target := by
    simp [branchOperand, refAddress, resolved, Except.bind]
  have compare : encodeStmt resolve a ⟨.slt, [atReg, .reg x, .reg y]⟩ = .ok (encode (.slt 1 x y)) := rfl
  have branch : encodeStmt resolve (a + 4) ⟨branchOpOn sense, [atReg, zeroReg, .ref ⟨name, 0⟩]⟩ =
      (branchField (a + 4) target).map fun imm => encode (branchOn sense imm) := by
    rw [← field]
    exact encodeStmt_branchOn _ sense _
  simp only [expandCompareBranch, encodeStmts, compare, branch]
  cases branchField (a + 4) target <;> rfl

/-- Settles O54: the branch's field reaches the label, and it is taken when the comparison holds. -/
theorem comparePseudosBranchOnTheComparison : Obligations.ComparePseudosBranchOnTheComparison := by
  intro resolve a target rs rt name p s stmts ws hpc resolved expanded encoded
  obtain ⟨x, y, sense, rfl, holds⟩ := expandPseudo_compare expanded
  rw [encodeStmts_compareBranch resolved] at encoded
  obtain ⟨imm, field, rfl⟩ := map_eq_ok encoded
  obtain ⟨t, e, pc, frame⟩ := execWords_slt_branchOn x y sense imm s
  refine ⟨t, e, rfl, ?_, frame⟩
  rw [pc, hpc, branchTarget_of_branchField field]
  by_cases taken : ltSigned (s.x x) (s.x y) = sense
  · rw [if_pos taken]
    exact (if_pos ((holds s).1 taken)).symm
  · rw [if_neg taken]
    exact (if_neg fun compared => taken ((holds s).2 compared)).symm

/-! ### The worked example (50_assembler.md R246) -/

/-- The machine with the example assembled, from reset. -/
def forwardReferenceStart (e : Endian) : State :=
  hostAssemble .default forwardReferenceSource (State.resetWith { Params.default with endian := e } (.initial 0 0))

theorem forwardReference_assembles (e : Endian) :
    let r := assemble .default e forwardReferenceSource
    r.listing.map (fun l => (l.address, l.word))
      = [(0x00400000, 0x08100002), (0x00400004, 0x20080001), (0x00400008, 0x20090002)] ∧
    r.tables.locals = [[("end".toList, 0x00400008)]] := by
  cases e <;> decide

theorem forwardReference_steps (e : Endian) :
    let s := forwardReferenceStart e
    s.pc = 0x00400000 ∧ (hostSteps 1 s).pc = 0x00400008 ∧ (hostSteps 2 s).pc = 0x0040000C := by
  cases e <;> decide

theorem forwardReference_ends (e : Endian) :
    let t := hostRun 10 (forwardReferenceStart e)
    t.status = .halted ∧ t.pc = 0x0040000C ∧ t.x 8 = 0 ∧ t.x 9 = 2 := by
  cases e <;> decide

/-- Settles O56: the model evaluated on the example, in either byte order. -/
theorem forwardReferenceExample : Obligations.ForwardReferenceExample := by
  intro e
  obtain ⟨words, labels⟩ := forwardReference_assembles e
  obtain ⟨start, one, two⟩ := forwardReference_steps e
  exact ⟨words, labels, start, one, two, forwardReference_ends e⟩

end Sys2Proof.Asm
end

section
/-!
PROOFS. What the off-line pass leaves in memory (50_assembler.md R213, R222): only bytes written one at a time, so the
image is a memory in canonical form.
-/

-- One elaboration thread: each thread's stack counts against the check's memory limit.
set_option Elab.async false

namespace Sys2Proof.Asm

open Sys2Proof.Machine

theorem PassTwo.line_keeps_wf {cfg : Settings} {e : Endian} {resolve : Text → Option Word} {fileId : Nat}
    {p q : PassTwo} {l : ParsedLine} (wf : p.mem.wf) (h : p.line cfg e resolve fileId l = .ok q) : q.mem.wf := by
  obtain ⟨b, -, h⟩ := bind_eq_ok h
  dsimp only at h
  split at h
  · cases h
    exact wf_writeBytes wf _ _
  · obtain ⟨ws, -, rfl⟩ := map_eq_ok h
    exact wf_writeBytes wf _ _
  · cases h
    exact wf

/-- The lines before an error are all that wrote (50_assembler.md R242). -/
theorem PassTwo.lines_keeps_wf (cfg : Settings) (e : Endian) (resolve : Text → Option Word) (fileId : Nat)
    (ls : List ParsedLine) {p : PassTwo} (wf : p.mem.wf) : (p.lines cfg e resolve fileId ls).1.mem.wf := by
  induction ls generalizing p with
  | nil => exact wf
  | cons l ls ih =>
    unfold PassTwo.lines
    split
    next q hq => exact ih (line_keeps_wf wf hq)
    next => exact wf

theorem passTwo_keeps_wf (cfg : Settings) (e : Endian) (g : GlobalTable) (files : List (SourceFile × LocalTable))
    {p : PassTwo} (wf : p.mem.wf) : (passTwo cfg e g p files).1.mem.wf := by
  induction files generalizing p with
  | nil => exact wf
  | cons file files ih =>
    obtain ⟨f, locals⟩ := file
    have written := PassTwo.lines_keeps_wf cfg e (resolveLabel locals g) f.id (parseContent f.content)
      (p := { p with cursors := p.cursors.nextFile }) wf
    unfold passTwo
    split
    next hq => exact ih (by simpa [hq] using written)
    next hq => simpa [hq] using written

/-- The image is in canonical form, whether the pass failed or not. -/
theorem assemble_mem_wf (cfg : Settings) (e : Endian) (files : List SourceFile) : (assemble cfg e files).mem.wf := by
  unfold assemble
  split
  · exact wf_nil
  · exact passTwo_keeps_wf cfg e _ _ wf_nil

end Sys2Proof.Asm
end

section
/-!
PROOFS. The statements about traps, halts and the host (60_exceptions.md): what each action of the host can do, what the
host's step and its loop keep, and the statements from these.
-/

-- One elaboration thread: each thread's stack counts against the check's memory limit.
set_option Elab.async false

namespace Sys2Proof.Machine

/-! ### What each action of the host can do (60_exceptions.md R270 to R279) -/

/-- The host's flag of `run()` set or cleared (60_exceptions.md R275, R277). -/
def State.setRunning (s : State) (b : Bool) : State := { s with host := { s.host with running := b } }

theorem hostPause_hostPause (s : State) : hostPause (hostPause s) = hostPause s := rfl

theorem hostStep_of_edit {s : State} (h : s.host.mode = .edit) : hostStep s = s := by
  simp [hostStep, h]

theorem hostRun_of_edit {s : State} (h : s.host.mode = .edit) (n : Nat) : hostRun n s = s := by
  simp [hostRun, h]

theorem hostRun_of_execute {s : State} (h : s.host.mode = .execute) (n : Nat) :
    hostRun n s = runLoop n (s.setRunning true) := by
  simp [hostRun, h, State.setRunning]

/-- The host's step does nothing, stops a run of a core that is not running, or is the core's step, which a trap pauses
(60_exceptions.md R273). -/
theorem hostStep_cases (s : State) :
    hostStep s = s ∨ (s.status ≠ .running ∧ hostStep s = hostPause s) ∨
      ∃ t, step s = .next t ∧ (hostStep s = t ∨ (t.status = .faulted ∧ hostStep s = hostPause t)) := by
  unfold hostStep
  split
  · exact .inl rfl
  · split
    next t e =>
      refine .inr (.inr ⟨t, e, ?_⟩)
      split
      next hf => exact .inr ⟨hf, rfl⟩
      next => exact .inl rfl
    · exact .inl rfl
    · exact .inl rfl
  all_goals
    next hs => exact .inr (.inl ⟨by simp [hs], rfl⟩)

/-- The loop of `run()` steps a running core as long as the flag is set, and otherwise ends, with the flag cleared or
not (60_exceptions.md R275). -/
theorem runLoop_succ_cases (n : Nat) (s : State) :
    (s.host.running = true ∧ s.status = .running ∧ runLoop (n + 1) s = runLoop n (hostStep s)) ∨
      ((s.host.running = false ∨ s.status ≠ .running) ∧
        (runLoop (n + 1) s = s ∨ runLoop (n + 1) s = hostPause s)) := by
  rw [runLoop]
  split
  next hf => exact .inr ⟨.inl hf, .inl rfl⟩
  next hf hs => exact .inl ⟨hf, hs, rfl⟩
  next hs => exact .inr ⟨.inr (by simp [hs]), .inl rfl⟩
  next hs => exact .inr ⟨.inr (by simp [hs]), .inr rfl⟩
  next hs => exact .inr ⟨.inr (by simp [hs]), .inr rfl⟩

/-- `setInput` is a resumption: where no call is pending, one that changes nothing (60_exceptions.md R272). -/
theorem hostSetInput_eq_hostResume (input : List Char) (s : State) :
    ∃ token, hostSetInput input s = hostResume input token s := by
  unfold hostSetInput
  split
  next c _ => exact ⟨c.token, rfl⟩
  next hp =>
    refine ⟨0, ?_⟩
    rcases hostResume_cases input 0 s with ⟨-, e⟩ | ⟨-, -, c, hc, -⟩
    · exact e.symm
    · cases hp.symm.trans hc

theorem hostAssemble_of_success {cfg : Asm.Settings} {files : List Asm.SourceFile} {s : State}
    (h : (Asm.assemble cfg s.params.endian files).error = none) :
    let r := Asm.assemble cfg s.params.endian files
    hostAssemble cfg files s = loadImage r.mem r.entry r.lineMap (hostReset s) := by
  simp [hostAssemble, h]

theorem hostAssemble_of_error {cfg : Asm.Settings} {files : List Asm.SourceFile} {s : State} {e : Asm.AsmError}
    (h : (Asm.assemble cfg s.params.endian files).error = some e) :
    hostAssemble cfg files s =
      { hostReset s with mem := (Asm.assemble cfg s.params.endian files).mem }.appendLine
        ⟨.error, .assembleError e.fileId e.line e.token⟩ := by
  simp [hostAssemble, h]

/-! ### What the host's step and its loop keep -/

section
variable {P : State → Prop} (flag : ∀ u b, P u → P (u.setRunning b)) (core : ∀ u t, P u → step u = .next t → P t)
include flag core

/-- The host's step keeps what the core's step and the flag of `run()` keep. -/
theorem hostStep_keeps {s : State} (h : P s) : P (hostStep s) := by
  rcases hostStep_cases s with e | ⟨-, e⟩ | ⟨t, ht, e | ⟨-, e⟩⟩ <;> rw [e]
  · exact h
  · exact flag _ _ h
  · exact core _ _ h ht
  · exact flag _ _ (core _ _ h ht)

theorem runLoop_keeps (n : Nat) {s : State} (h : P s) : P (runLoop n s) := by
  induction n generalizing s with
  | zero => exact h
  | succ n ih =>
    rcases runLoop_succ_cases n s with ⟨-, -, e⟩ | ⟨-, e | e⟩ <;> rw [e]
    · exact ih (hostStep_keeps flag core h)
    · exact h
    · exact flag _ _ h

/-- So does `run()`, for any number of steps. -/
theorem hostRun_keeps (n : Nat) {s : State} (h : P s) : P (hostRun n s) := by
  cases hm : s.host.mode with
  | edit => rwa [hostRun_of_edit hm]
  | execute =>
    rw [hostRun_of_execute hm]
    exact runLoop_keeps flag core n (flag _ _ h)

end

/-! ### The invariant (60_exceptions.md R270) -/

namespace State.Inv

variable {s : State}

/-- The invariant does not speak of the flag of `run()`. -/
theorem setRunning (h : s.Inv) (b : Bool) : (s.setRunning b).Inv :=
  h.of_same id rfl rfl rfl rfl rfl rfl rfl

/-- A suspended core whose call is complete runs again (45_system.md R192). -/
theorem complete (h : s.Inv) (hs : s.status = .suspended) : State.Inv { s.clearPending with status := .running } where
  memory := h.memory
  zero := h.zero
  faulted := by simp [State.clearPending, h.cause_eq_none (by simp [hs])]
  causeInfo := h.causeInfo
  suspended := by simp [State.clearPending]
  token := nofun
  waiting := by simp [State.clearPending]

end State.Inv

theorem hostReset_inv (s : State) : (hostReset s).Inv := resetWith_inv s.params (s.host.generation + 1) s.host.calls

/-- A resumption keeps the invariant, whatever the service replies. -/
theorem hostResume_keeps_inv {s : State} (h : s.Inv) (input : List Char) (token : Nat) :
    (hostResume input token s).Inv := by
  rcases hostResume_cases input token s with ⟨-, e⟩ | ⟨-, hs, c, -, ⟨-, e⟩ | ⟨w, -, e⟩⟩ <;> rw [e]
  · exact h
  · exact h.answered _ _
  · exact ((h.answered _ _).commit w).advance.complete ((commit_status _ _).trans hs)

theorem hostSetInput_keeps_inv {s : State} (h : s.Inv) (input : List Char) : (hostSetInput input s).Inv := by
  obtain ⟨token, e⟩ := hostSetInput_eq_hostResume input s
  exact e ▸ hostResume_keeps_inv h input token

/-- Assembling leads to the invariant from every state: it resets, and the image is in canonical form. -/
theorem hostAssemble_inv (cfg : Asm.Settings) (files : List Asm.SourceFile) (s : State) :
    (hostAssemble cfg files s).Inv := by
  have image := Asm.assemble_mem_wf cfg s.params.endian files
  cases h : (Asm.assemble cfg s.params.endian files).error with
  | none =>
    rw [hostAssemble_of_success h]
    exact (hostReset_inv s).of_same (fun _ => image) rfl rfl rfl rfl rfl rfl rfl
  | some e =>
    rw [hostAssemble_of_error h]
    exact (hostReset_inv s).of_same (fun _ => image) rfl rfl rfl rfl rfl rfl rfl

/-- Settles O14: reset and assembling lead to the invariant from anywhere; the step and the run keep what the core's
step keeps; a resumption leaves the call pending or completes it. -/
theorem hostActionsKeepTheInvariant : Obligations.HostActionsKeepTheInvariant := fun s h =>
  have flag (u : State) (b : Bool) (hu : u.Inv) : (u.setRunning b).Inv := hu.setRunning b
  ⟨hostReset_inv s, h.setRunning false, hostStep_keeps flag stepKeepsTheInvariant h,
    fun n => hostRun_keeps flag stepKeepsTheInvariant n h, hostResume_keeps_inv h, hostSetInput_keeps_inv h,
    fun cfg files => hostAssemble_inv cfg files s⟩

/-! ### Traps (60_exceptions.md R261, R262, R264) -/

/-- A running core's instruction that raises Overflow is one whose result is out of range: had it written its
destination, the core would still run. -/
theorem resultOutOfRange_of_raise {i : Instr} {rd : Reg} {s : State} (hr : s.status = .running)
    (hd : destination i = some rd) (e : exec i s = .next (s.raise .overflow 0)) : resultOutOfRange i s := by
  rcases exec_of_destination hd s with ⟨range, -⟩ | ⟨-, v, e'⟩
  · exact range
  · have status := congrArg State.status (Host.Outcome.next.inj (e.symm.trans e'))
    simp [hr] at status

/-- A running core that serves a call does not fault (45_system.md R190). -/
theorem serve_status_ne_faulted {s : State} (hr : s.status = .running) (svc : Service) :
    (s.serve svc).status ≠ .faulted := by
  rcases serve_cases s svc with ⟨-, e⟩ | ⟨-, e⟩ | ⟨-, e⟩ <;> simp [e, commit_status, hr]

/-- Settles O22, by the ways an instruction can end. -/
theorem onlyTrapsSetTheCause : Obligations.OnlyTrapsSetTheCause := by
  intro i s t hr e
  rcases exec_cases i s with ⟨u, e', o⟩ | ⟨e', rd, rs, rt, imm, hi⟩ | rfl
  · cases e'.symm.trans e
    obtain ⟨-, status, cause, causeInfo, -⟩ := o.control
    exact .inl ⟨by simp [status, hr], cause, causeInfo⟩
  · cases e'.symm.trans e
    refine .inr (.inl ⟨traps_raise s _ _, step_of_not_running (by simp), rd, rs, rt, imm, ?_⟩)
    rcases hi with rfl | rfl | rfl
    · exact ⟨_, resultOutOfRange_of_raise hr rfl e, .inl ⟨rfl, rfl⟩⟩
    · exact ⟨_, resultOutOfRange_of_raise hr rfl e, .inr (.inl ⟨rfl, rfl⟩)⟩
    · exact ⟨_, resultOutOfRange_of_raise hr rfl e, .inr (.inr ⟨rfl, rfl⟩)⟩
  · rcases execSyscall_cases s with ⟨undefined, e'⟩ | ⟨svc, -, e'⟩ <;> cases e'.symm.trans e
    · exact .inr (.inr ⟨rfl, traps_raise s _ _, step_of_not_running (by simp), undefined⟩)
    · exact .inl ⟨serve_status_ne_faulted hr svc, serve_cause s svc, serve_causeInfo s svc⟩

/-- Settles O46: the trap of `syscall` for a code that selects no service. -/
theorem undefinedSyscallCodeTraps : Obligations.UndefinedSyscallCodeTraps :=
  fun _ => exec_syscall_of_undefined

/-! ### Halts (60_exceptions.md R266, R268) -/

theorem step_of_invalid {s : State} {why : DecodeError} (hr : s.status = .running)
    (hd : decode s.fetch = .invalid why) : step s = .next s.halt := by
  simp [step, hr, hd]

/-- Settles O9: an invalid word halts in place; a service that answers Exit halts after `pc` advanced. -/
theorem invalidWordHaltsAndChangesNothingElse : Obligations.InvalidWordHaltsAndChangesNothingElse := by
  refine ⟨fun s why hr hd => ⟨s.halt, step_of_invalid hr hd, halts_halt s⟩, fun s svc hr hd defined exits => ?_⟩
  refine ⟨s.serve svc, (step_of_decode hr hd).trans (exec_syscall_of_defined defined), ?_⟩
  rcases serve_cases s svc with ⟨o, -⟩ | ⟨-, e⟩ | ⟨o, -⟩
  · cases exits.symm.trans o
  · exact ⟨by rw [e], by simp [e], serve_cause s svc⟩
  · cases exits.symm.trans o

/-- Settles O23: the core's step does nothing then, so the host's step and run keep the status and the cause; no call
can be resumed; a reset starts the core afresh. -/
theorem onlyResetLeavesHaltedAndFaulted : Obligations.OnlyResetLeavesHaltedAndFaulted := by
  intro s stopped
  have notRunning : s.status ≠ .running := by rcases stopped with h | h <;> simp [h]
  have notSuspended : s.status ≠ .suspended := by rcases stopped with h | h <;> simp [h]
  have flag (u : State) (b : Bool) (h : u.status = s.status ∧ u.cause = s.cause) :
      (u.setRunning b).status = s.status ∧ (u.setRunning b).cause = s.cause := h
  have core (u t : State) (h : u.status = s.status ∧ u.cause = s.cause) (e : step u = .next t) :
      t.status = s.status ∧ t.cause = s.cause := by
    cases (step_of_not_running (h.1 ▸ notRunning)).symm.trans e
    exact h
  have resume (input : List Char) (token : Nat) : hostResume input token s = s :=
    hostResume_of_stale (.inr notSuspended) input
  obtain ⟨stepStatus, stepCause⟩ := hostStep_keeps flag core ⟨rfl, rfl⟩
  refine ⟨step_of_not_running notRunning, stepStatus, stepCause, fun n => hostRun_keeps flag core n ⟨rfl, rfl⟩, resume,
    fun input => ?_, rfl, rfl, rfl, rfl⟩
  obtain ⟨token, e⟩ := hostSetInput_eq_hostResume input s
  exact e.trans (resume input token)

/-! ### Reset and assembling (60_exceptions.md R274, R279) -/

/-- Settles O16: a reset reads nothing of the state but the parameters, the generation and the count of answers. -/
theorem hostResetForgetsEverything : Obligations.HostResetForgetsEverything := by
  refine fun s => ⟨rfl, rfl, rfl, rfl, rfl, rfl, rfl, rfl, fun _ => rfl, rfl, rfl, rfl,
    fun t params generation calls => ?_⟩
  unfold hostReset
  rw [params, generation, calls]

/-- Settles O17, by whether the pass fails. -/
theorem assemblingLoadsTheImage : Obligations.AssemblingLoadsTheImage := by
  intro cfg files s
  dsimp only
  cases h : (Asm.assemble cfg s.params.endian files).error with
  | none =>
    rw [hostAssemble_of_success h]
    exact ⟨rfl, rfl, rfl, rfl, rfl, rfl, rfl, rfl, rfl, rfl, fun _ => ⟨rfl, rfl, rfl, rfl⟩, nofun⟩
  | some e =>
    rw [hostAssemble_of_error h]
    refine ⟨rfl, rfl, rfl, rfl, rfl, rfl, rfl, rfl, rfl, rfl, nofun, fun e' he => ?_⟩
    cases he
    exact ⟨rfl, hostStep_of_edit rfl, hostRun_of_edit rfl, rfl⟩

/-! ### The generation (60_exceptions.md R278) -/

/-- The parts of the host's side that only actions of the host change are as before (10_state.md R29). -/
structure SameHostOwned (s t : State) : Prop where
  mode : t.host.mode = s.host.mode
  running : t.host.running = s.host.running
  generation : t.host.generation = s.host.generation
  lineMap : t.host.lineMap = s.host.lineMap

theorem SameHostOwned.of_host {s t : State} (h : t.host = s.host) : SameHostOwned s t := by
  constructor <;> rw [h]

/-- Serving a call writes the console, the pending call and the count of answers. -/
theorem serve_keeps_hostOwned (s : State) (svc : Service) : SameHostOwned s (s.serve svc) := by
  rcases serve_cases s svc with ⟨-, e⟩ | ⟨-, e⟩ | ⟨-, e⟩ <;> constructor <;> simp [e]

theorem exec_keeps_hostOwned {i : Instr} {s t : State} (e : exec i s = .next t) : SameHostOwned s t := by
  rcases exec_cases i s with ⟨u, e', o⟩ | ⟨e', -⟩ | rfl
  · cases e'.symm.trans e
    exact .of_host o.control.host
  · cases e'.symm.trans e
    exact ⟨rfl, rfl, rfl, rfl⟩
  · rcases execSyscall_cases s with ⟨-, e'⟩ | ⟨svc, -, e'⟩ <;> cases e'.symm.trans e
    · exact ⟨rfl, rfl, rfl, rfl⟩
    · exact serve_keeps_hostOwned s svc

theorem step_keeps_hostOwned {s t : State} (e : step s = .next t) : SameHostOwned s t := by
  rcases step_cases s with ⟨-, e'⟩ | ⟨-, -, e'⟩ | ⟨-, i, -, e'⟩ <;> rw [e'] at e
  · cases e; exact .of_host rfl
  · cases e; exact .of_host rfl
  · exact exec_keeps_hostOwned e

theorem hostResume_generation (input : List Char) (token : Nat) (s : State) :
    (hostResume input token s).host.generation = s.host.generation := by
  rcases hostResume_cases input token s with ⟨-, e⟩ | ⟨-, -, c, -, ⟨-, e⟩ | ⟨w, -, e⟩⟩ <;>
    simp [e, State.clearPending]

theorem hostSetInput_generation (input : List Char) (s : State) :
    (hostSetInput input s).host.generation = s.host.generation := by
  obtain ⟨token, e⟩ := hostSetInput_eq_hostResume input s
  rw [e, hostResume_generation]

@[simp] theorem hostReset_generation (s : State) : (hostReset s).host.generation = s.host.generation + 1 := rfl

/-- Assembling begins with a reset and raises the generation no further (log 11). -/
@[simp] theorem hostAssemble_generation (cfg : Asm.Settings) (files : List Asm.SourceFile) (s : State) :
    (hostAssemble cfg files s).host.generation = s.host.generation + 1 :=
  (assemblingLoadsTheImage cfg files s).1

/-- Settles O49: a pending call's token is the generation it was made in, only a reset moves the generation, and it
moves it up. -/
theorem staleInputChangesNothing : Obligations.StaleInputChangesNothing := by
  refine ⟨fun s input token h => hostResume_of_stale (.inl h) input, fun s c inv pending => ?_,
    fun s t e => (step_keeps_hostOwned e).generation, fun s => ?_⟩
  · have token := inv.token c pending
    refine ⟨by simp [token], fun cfg files => by simp [token], fun u input later => ?_⟩
    rw [hostReset_generation] at later
    exact hostResume_of_stale (.inl (by omega)) input
  · have flag (u : State) (b : Bool) (h : u.host.generation = s.host.generation) :
        (u.setRunning b).host.generation = s.host.generation := h
    have core (u t : State) (h : u.host.generation = s.host.generation) (e : step u = .next t) :
        t.host.generation = s.host.generation := (step_keeps_hostOwned e).generation.trans h
    exact ⟨hostStep_keeps flag core rfl, fun n => hostRun_keeps flag core n rfl, rfl,
      fun input => hostSetInput_generation input s, fun input token => hostResume_generation input token s,
      by simp, fun cfg files => by simp⟩

/-! ### `run()` as steps (60_exceptions.md R275) -/

/-- The host's step clears the flag of `run()` only where it leaves a core that is not running. -/
theorem hostStep_running {s : State} (h : s.host.running = true) :
    (hostStep s).host.running = true ∨ (hostStep s).status ≠ .running := by
  rcases hostStep_cases s with e | ⟨hs, e⟩ | ⟨t, ht, e | ⟨hf, e⟩⟩ <;> rw [e]
  · exact .inl h
  · exact .inr hs
  · exact .inl ((step_keeps_hostOwned ht).running.trans h)
  · exact .inr (by simp [hostPause, hf])

/-- The loop is a number of steps but for the flag, and all of its steps if the core still runs. A start with the flag
cleared is a core that does not run. -/
theorem runLoop_eq_hostSteps (n : Nat) {s : State} (h : s.host.running = true ∨ s.status ≠ .running) :
    ∃ k, k ≤ n ∧ hostPause (runLoop n s) = hostPause (hostSteps k s) ∧ ((runLoop n s).status = .running → k = n) := by
  induction n generalizing s with
  | zero => exact ⟨0, le_rfl, rfl, fun _ => rfl⟩
  | succ n ih =>
    rcases runLoop_succ_cases n s with ⟨hf, -, e⟩ | ⟨ended, e⟩
    · obtain ⟨k, le, same, all⟩ := ih (hostStep_running hf)
      rw [e]
      exact ⟨k + 1, by omega, same, fun hr => by rw [all hr]⟩
    · have notRunning : s.status ≠ .running := by
        rcases ended with hf | hs
        · exact h.resolve_left (by simp [hf])
        · exact hs
      have same : hostPause (runLoop (n + 1) s) = hostPause s := by
        rcases e with e | e
        · rw [e]
        · rw [e, hostPause_hostPause]
      exact ⟨0, by omega, same, fun hr => absurd ((congrArg State.status same).symm.trans hr) notRunning⟩

/-- Settles O50: `run()` sets the flag and enters the loop. -/
theorem runProducesStatesOfSteps : Obligations.RunProducesStatesOfSteps := by
  intro n s hm
  rw [hostRun_of_execute hm]
  exact runLoop_eq_hostSteps n (.inl rfl)

end Sys2Proof.Machine
end

section
/-!
PROOFS. The statement about progress (70_reset_and_hazards.md R303): every instruction rule is total, and so is the step.
-/

-- One elaboration thread: each thread's stack counts against the check's memory limit.
set_option Elab.async false

namespace Sys2Proof.Machine

/-- Traps and halts of the environment call are next states too (45_system.md R190). -/
theorem execSyscall_answers_next (s : State) : ∃ t, execSyscall s = .next t := by
  rcases execSyscall_cases s with ⟨-, e⟩ | ⟨svc, -, e⟩
  · exact ⟨_, e⟩
  · exact ⟨_, e⟩

theorem exec_answers_next (i : Instr) (s : State) : ∃ t, exec i s = .next t := by
  rcases exec_cases i s with ⟨t, e, -⟩ | ⟨e, -⟩ | rfl
  · exact ⟨t, e⟩
  · exact ⟨_, e⟩
  · exact execSyscall_answers_next s

/-- Settles O11: a stopped core stays as it is, an invalid word halts, and every instruction answers a next state. -/
theorem everyStepAnswersANextState : Obligations.EveryStepAnswersANextState := by
  intro s
  rcases step_cases s with ⟨-, e⟩ | ⟨-, -, e⟩ | ⟨-, i, -, e⟩
  · exact ⟨s, e⟩
  · exact ⟨s.halt, e⟩
  · exact e ▸ exec_answers_next i s

end Sys2Proof.Machine
end
